-- ==== Sys2Proof/Word.lean ====
section
/-!
DEFINITION. The block's word is one byte (R42: every primitive moves one byte), and what a pull of the byte source can meet.
-/

namespace Sys2Proof

/-- A byte, an unsigned 8-bit value (R9). -/
abbrev Byte := BitVec 8

/-- One element of what a byte source does when it is pulled (R32).  `byte` and `eos` are the two answers a source owes
(R90); `later` is a withheld answer (R32 "waits until the source answers", I13); `failed` is any other answer, which the
block does not model (D16, I14). -/
inductive SrcEvent where
  /-- The source answers a byte. -/
  | byte (b : Byte)
  /-- The source answers end of stream. -/
  | eos
  /-- The source withholds its next answer for a finite time. -/
  | later
  /-- The source answers with something that is neither a byte nor EOS. -/
  | failed
  deriving DecidableEq, Repr

end Sys2Proof
end

