-- ==== Sys2Proof/Config.lean ====
section
/-!
DEFINITION. What is fixed for an instantiation or a decoder (R5, R14), the arguments of CONSTRUCT (R59), and the free values.
-/

namespace Sys2Proof

/-- The generic `SPLIT`: which field of the reference code is the length (R5, R52). -/
inductive Split where
  | lengthLow
  | lengthHigh
  deriving DecidableEq, Repr

/-- The byte order of the reference code (R14, R40). -/
inductive Order where
  | lsb
  | msb
  deriving DecidableEq, Repr

/-- The generics of an instantiation (R5).  `countBits` is the optional model parameter `COUNT_BITS`; `none` is unbounded. -/
structure Generics where
  offsetBits : Nat
  lengthBits : Nat
  split : Split
  countBits : Option Nat
  deriving DecidableEq, Repr

/-- The default preset's generics (R8), with unbounded counters (R5). -/
def Generics.preset : Generics :=
  { offsetBits := 12, lengthBits := 4, split := .lengthLow, countBits := none }

/-- A supplied control function (R64) as plain data: its listed values, and its value at every other argument.
DESIGN CHOICE (log 3): every total function of a byte and a sub-round 0..7 is such a table. -/
structure CtrlTable where
  entries : List ((Byte × Nat) × Bool)
  other : Bool
  deriving DecidableEq, Repr

/-- A supplied reference function (R73) as plain data: its listed values `(length, offset)`, and its value at every other
argument.  DESIGN CHOICE (log 3). -/
structure RefTable where
  entries : List ((List Byte × Order) × (Int × Int))
  other : Int × Int
  deriving DecidableEq, Repr

/-- CONSTRUCT's `ctrlArg` (R59). -/
inductive CtrlArg where
  | omitted
  | null
  | fn (f : CtrlTable)
  deriving DecidableEq, Repr

/-- CONSTRUCT's `refArg` (R59). -/
inductive RefArg where
  | omitted
  | null
  | fn (f : RefTable)
  deriving DecidableEq, Repr

/-- CONSTRUCT's `thrArg` (R59). -/
inductive ThrArg where
  | omitted
  | value (t : Int)
  deriving DecidableEq, Repr

/-- `cfg.isLit` (R14): the default control function or a supplied one. -/
inductive CtrlFn where
  | default
  | supplied (f : CtrlTable)
  deriving DecidableEq, Repr

/-- `cfg.decRef` (R14): the default reference function or a supplied one. -/
inductive RefFn where
  | default
  | supplied (f : RefTable)
  deriving DecidableEq, Repr

/-- The configuration of a constructed decoder (R14). -/
structure Cfg where
  order : Order
  isLit : CtrlFn
  decRef : RefFn
  threshold : Nat
  deriving DecidableEq, Repr

/-- FREE VALUE (log 4): what `ctrl` holds before its first write, after so many pulls.  No run reads it (R18, I12). -/
opaque Config.unwrittenCtrl : Nat → Byte

/-- FREE VALUE (log 4): what `copyDist` holds before its first write, after so many pulls.  No run reads it (R29, I12). -/
opaque Config.unwrittenDist : Nat → Nat

end Sys2Proof
end

