-- ==== Sys2Proof/Machine/Codes.lean ====
section
/-!
DEFINITION. The named values of the sequencer and of the error kinds, and the numbers the STATUS word gives them (R17, R26, R28, R92).
-/

namespace Sys2Proof.Machine

/-- The sequencer's phase: the next action, or a terminal state (R17). -/
inductive Phase where
  | ctrl
  | lit
  | ref
  | copy
  | done
  | failed
  deriving DecidableEq, Repr

/-- The window mode (R26). -/
inductive Mode where
  | buffer
  | stream
  deriving DecidableEq, Repr

/-- The error kinds (R92). -/
inductive Cause where
  | none
  | unknownOrder
  | nilParameter
  | thresholdTooSmall
  | unexpectedEof
  | chunkLength
  | offset
  | closed
  deriving DecidableEq, Repr

/-- The PHASE field's encoding (R28). -/
def Phase.code : Phase → Nat
  | .ctrl => 0
  | .lit => 1
  | .ref => 2
  | .copy => 3
  | .done => 4
  | .failed => 5

/-- The cause codes (R92). -/
def Cause.code : Cause → Nat
  | .none => 0
  | .unknownOrder => 1
  | .nilParameter => 2
  | .thresholdTooSmall => 3
  | .unexpectedEof => 4
  | .chunkLength => 5
  | .offset => 6
  | .closed => 7

/-- The MODE field's encoding (R28). -/
def Mode.code : Mode → Nat
  | .buffer => 0
  | .stream => 1

/-- The ORDER field's encoding (R15), which is also `order`'s code (R5). -/
def orderCode : Order → Nat
  | .lsb => 0
  | .msb => 1

/-- The SPLIT field's encoding (R15). -/
def splitCode : Split → Nat
  | .lengthLow => 0
  | .lengthHigh => 1

end Sys2Proof.Machine
end

