-- ==== Sys2Proof/Machine/Params.lean ====
section
/-!
DEFINITION. The derived constants of an instantiation (R7), which instantiations are supported (R6), and the counter bound (R101, R105).
-/

namespace Sys2Proof

/-- `CODE_BITS` (R7). -/
def Generics.codeBits (g : Generics) : Nat := g.offsetBits + g.lengthBits

/-- `REF_BYTES` (R7). -/
def Generics.refBytes (g : Generics) : Nat := g.codeBits / 8

/-- `WINDOW` (R7). -/
def Generics.window (g : Generics) : Nat := 2 ^ g.offsetBits

/-- `BUF_CAP` (R7). -/
def Generics.bufCap (g : Generics) : Nat := 2 * g.window

/-- `THRESHOLD_MIN` (R7). -/
def Generics.thresholdMin (g : Generics) : Nat := g.refBytes + 1

/-- `OFFSET_MAX` (R7). -/
def Generics.offsetMax (g : Generics) : Nat := 2 ^ g.offsetBits - 1

/-- `LENGTH_MAX` (R7). -/
def Generics.lengthMax (g : Generics) : Nat := 2 ^ g.lengthBits - 1

/-- `COUNT_BITS` is an integer at least 1, or unbounded (R5). -/
def Generics.countBitsLegal (g : Generics) : Bool :=
  match g.countBits with
  | none => true
  | some b => decide (1 ≤ b)

/-- The supported instantiations (R6), with a legal `COUNT_BITS` (R5, log 25). -/
def Generics.supported (g : Generics) : Bool :=
  decide (1 ≤ g.offsetBits) && decide (1 ≤ g.lengthBits) && decide (g.codeBits % 8 = 0) &&
    decide (g.codeBits / 8 ≤ 4) && g.countBitsLegal

/-- A counter may take the value `n`: it does not pass `2^COUNT_BITS - 1` (R101, R105). -/
def Generics.countOk (g : Generics) (n : Nat) : Bool :=
  match g.countBits with
  | none => true
  | some b => decide (n < 2 ^ b)

/-- The ring has at least one slot, so an index modulo `BUF_CAP` is a slot (R35). -/
theorem Generics.bufCap_pos (g : Generics) : 0 < g.bufCap := by
  simp [Generics.bufCap, Generics.window]

end Sys2Proof
end

