-- ==== Sys2Proof/Syntax.lean ====
section
/-!
DEFINITION. The instructions: one constructor per row of spec/opcode_table.json (R57, R79).
-/

namespace Sys2Proof

/-- The tokens and stream events of R57, the COPY micro-step of R75 and the host operations of R79.
`dec` numbers a constructed decoder and `inst` an instance, in order of creation (log 11). -/
inductive Instr where
  /-- CTRL: a control byte (R48, R65). -/
  | ctrl (c : Byte)
  /-- END_CLEAN: end of stream at a group boundary (R65, R67). -/
  | endClean
  /-- LIT: a literal byte (R49, R70). -/
  | lit (v : Byte)
  /-- REF: a back-reference in the generic layout, by its bytes in pull order (R50, R78). -/
  | ref (bytes : List Byte)
  /-- REF_LSB_LENLOW: the 12/4 layout of `order = LSB`, `SPLIT = LENGTH_LOW` (R54). -/
  | refLsbLenlow (length : BitVec 4) (offset : BitVec 12)
  /-- REF_MSB_LENLOW: the 12/4 layout of `order = MSB`, `SPLIT = LENGTH_LOW` (R54). -/
  | refMsbLenlow (length : BitVec 4) (offset : BitVec 12)
  /-- REF_LSB_LENHIGH: the 12/4 layout of `order = LSB`, `SPLIT = LENGTH_HIGH` (R54). -/
  | refLsbLenhigh (length : BitVec 4) (offset : BitVec 12)
  /-- REF_MSB_LENHIGH: the 12/4 layout of `order = MSB`, `SPLIT = LENGTH_HIGH` (R54). -/
  | refMsbLenhigh (length : BitVec 4) (offset : BitVec 12)
  /-- COPY: one byte of a reference's copy (R75). -/
  | copy
  /-- END_TRUNC: end of stream inside a group (R70, R71). -/
  | endTrunc
  /-- CONSTRUCT (R59). -/
  | construct (orderCode : Int) (ctrlArg : CtrlArg) (refArg : RefArg) (thrArg : ThrArg)
  /-- DECODE on decoder `dec` (R82). -/
  | decode (dec : Nat) (input : List Byte)
  /-- OPEN on decoder `dec` (R84). -/
  | openStream (dec : Nat) (source : List SrcEvent)
  /-- READ of up to `n` bytes on instance `inst` (R86). -/
  | read (inst : Nat) (n : Nat)
  /-- CLOSE of instance `inst` (R87). -/
  | close (inst : Nat)
  /-- STATUS of instance `inst` (R88). -/
  | status (inst : Nat)
  deriving DecidableEq, Repr

end Sys2Proof
end

