-- ==== Sys2Proof/WellFormed.lean ====
section
/-!
DEFINITION. Which instructions are well formed in an instantiation: the widths and layouts of R50 and R54, the domains of the
supplied functions (R14), and a source that answers EOS last (R32).
-/

namespace Sys2Proof

/-- The generics have the default preset's widths (R8), the only ones in which the layouts of R54 exist. -/
def Generics.presetWidths (g : Generics) : Bool :=
  decide (g.offsetBits = 12) && decide (g.lengthBits = 4)

/-- A source description is well formed when it answers only bytes and EOS (R90), EOS, which ends all pulling (R32), last. -/
def sourceWf : List SrcEvent → Bool
  | [] => true
  | .eos :: rest => rest.isEmpty
  | .failed :: _ => false
  | .byte _ :: rest => sourceWf rest
  | .later :: rest => sourceWf rest

/-- A supplied control function is given on its domain: sub-rounds 0..7 (R14). -/
def CtrlArg.wf : CtrlArg → Bool
  | .omitted => true
  | .null => true
  | .fn f => f.entries.all fun e => decide (e.1.2 < 8)

/-- A supplied reference function is given on its domain: `REF_BYTES` bytes (R14). -/
def RefArg.wf (g : Generics) : RefArg → Bool
  | .omitted => true
  | .null => true
  | .fn f => f.entries.all fun e => decide (e.1.1.length = g.refBytes)

/-- The instructions that are well formed under the generics `g`. -/
def Instr.wf (g : Generics) : Instr → Bool
  | .ctrl _ => true
  | .endClean => true
  | .lit _ => true
  | .ref bytes => decide (bytes.length = g.refBytes)
  | .refLsbLenlow _ _ => g.presetWidths && decide (g.split = .lengthLow)
  | .refMsbLenlow _ _ => g.presetWidths && decide (g.split = .lengthLow)
  | .refLsbLenhigh _ _ => g.presetWidths && decide (g.split = .lengthHigh)
  | .refMsbLenhigh _ _ => g.presetWidths && decide (g.split = .lengthHigh)
  | .copy => true
  | .endTrunc => true
  | .construct _ ctrlArg refArg _ => ctrlArg.wf && refArg.wf g
  | .decode _ _ => true
  | .openStream _ source => sourceWf source
  | .read _ _ => true
  | .close _ => true
  | .status _ => true

end Sys2Proof
end

