-- ==== Sys2Proof/Decode.lean ====
section
/-!
DEFINITION. The decoder: from what the source answers, and what the engine's state selects (R47, R55, R57), to a token or an
end event, total on any answers; and after it the encoder (R48 to R54, R58).
-/

namespace Sys2Proof

/-- What selects and lays out a token (R55): the phase, the generics, the configured order, and whether a reference
function was supplied (its codes have no fields, R73). -/
structure DecodeCtx where
  phase : Machine.Phase
  gen : Generics
  order : Order
  suppliedRef : Bool
  deriving DecidableEq, Repr

/-- Why no instruction is decoded. -/
inductive Reject where
  /-- The answers end before the token's last byte. -/
  | incomplete
  /-- The source withholds an answer the token needs (R32). -/
  | withheld
  /-- The source failed (D16). -/
  | sourceFailed
  /-- The phase is DONE or FAILED, which selects no token (R17, R96). -/
  | terminal
  deriving DecidableEq, Repr

/-- The next `n` bytes, or `none` when EOS stands among them (R71), with the answers left. -/
def takeBytes : Nat → List SrcEvent → Except Reject (Option (List Byte) × List SrcEvent)
  | 0, evs => .ok (some [], evs)
  | n + 1, .byte b :: rest =>
    match takeBytes n rest with
    | .ok (some bs, left) => .ok (some (b :: bs), left)
    | .ok (none, left) => .ok (none, left)
    | .error e => .error e
  | _ + 1, .eos :: rest => .ok (none, rest)
  | _ + 1, .later :: _ => .error .withheld
  | _ + 1, .failed :: _ => .error .sourceFailed
  | _ + 1, [] => .error .incomplete

/-- The fields of the two reference bytes `b0`, `b1` of the 12/4 widths, in the four layouts of R54. -/
def decodeLayout (ord : Order) (split : Split) (b0 b1 : Byte) : Instr :=
  match ord, split with
  | .lsb, .lengthLow => .refLsbLenlow (b0.extractLsb' 0 4) (b1 ++ b0.extractLsb' 4 4)
  | .msb, .lengthLow => .refMsbLenlow (b1.extractLsb' 0 4) (b0 ++ b1.extractLsb' 4 4)
  | .lsb, .lengthHigh => .refLsbLenhigh (b1.extractLsb' 4 4) (b1.extractLsb' 0 4 ++ b0)
  | .msb, .lengthHigh => .refMsbLenhigh (b0.extractLsb' 4 4) (b0.extractLsb' 0 4 ++ b1)

/-- A complete reference token: one of the layouts of R54 where they exist, the generic REF otherwise (log 20). -/
def decodeRef (c : DecodeCtx) (bytes : List Byte) : Instr :=
  if c.gen.presetWidths && !c.suppliedRef then
    match bytes with
    | [b0, b1] => decodeLayout c.order c.gen.split b0 b1
    | _ => .ref bytes
  else .ref bytes

/-- The decoder: the token or end event at the head of the answers, and the answers left (R57). -/
def decode (c : DecodeCtx) (evs : List SrcEvent) : Except Reject (Instr × List SrcEvent) :=
  match c.phase with
  | .ctrl =>
    match takeBytes 1 evs with
    | .ok (some [b], left) => .ok (.ctrl b, left)
    | .ok (_, left) => .ok (.endClean, left)
    | .error e => .error e
  | .lit =>
    match takeBytes 1 evs with
    | .ok (some [b], left) => .ok (.lit b, left)
    | .ok (_, left) => .ok (.endTrunc, left)
    | .error e => .error e
  | .ref =>
    match takeBytes c.gen.refBytes evs with
    | .ok (some bs, left) => .ok (decodeRef c bs, left)
    | .ok (none, left) => .ok (.endTrunc, left)
    | .error e => .error e
  | .copy => .ok (.copy, evs)
  | .done => .error .terminal
  | .failed => .error .terminal

/-- The bits of an instruction as source bytes, numbered as the opcode table numbers them: `n` bytes, the first lowest. -/
def tableBytes : Nat → Nat → List Byte
  | 0, _ => []
  | n + 1, w => BitVec.ofNat 8 w :: tableBytes n (w / 256)

/-- The phase in which an instruction of so many bytes is read when nothing else says so (log 19): none is END_CLEAN's EOS,
one byte is a control byte, more bytes are a reference. -/
def tablePhase : Nat → Machine.Phase
  | 0 => .ctrl
  | 1 => .ctrl
  | _ => .ref

/-- The context of `decodeTableWord` (log 19): the default preset (R8) with `order = LSB`, the first of the two codes. -/
def tableCtx (nbytes : Nat) : DecodeCtx :=
  { phase := tablePhase nbytes, gen := .preset, order := .lsb, suppliedRef := false }

/-- The instruction the decoder reads from an instruction of `nbits` bits numbered `w` (log 19).  The block has no words, so
an instruction is exactly its bytes, followed by EOS. -/
def decodeTableWord (nbits w : Nat) : Option Instr :=
  let n := (nbits + 7) / 8
  match decode (tableCtx n) ((tableBytes n w).map .byte ++ [.eos]) with
  | .ok (i, left) => if left.length ≤ 1 then some i else none
  | .error _ => none

/-! ## The encoder -/

/-- The source elements of an instruction (R48 to R50, R54, R57); `none` for a host operation, which has no stream
encoding (R59, R82, R84, R86, R87). -/
def encode : Instr → Option (List SrcEvent)
  | .ctrl c => some [.byte c]
  | .endClean => some [.eos]
  | .lit v => some [.byte v]
  | .ref bytes => some (bytes.map .byte)
  | .refLsbLenlow l o => some [.byte (o.extractLsb' 0 4 ++ l), .byte (o.extractLsb' 4 8)]
  | .refMsbLenlow l o => some [.byte (o.extractLsb' 4 8), .byte (o.extractLsb' 0 4 ++ l)]
  | .refLsbLenhigh l o => some [.byte (o.extractLsb' 0 8), .byte (l ++ o.extractLsb' 8 4)]
  | .refMsbLenhigh l o => some [.byte (l ++ o.extractLsb' 8 4), .byte (o.extractLsb' 0 8)]
  | .copy => some []
  | .endTrunc => some [.eos]
  | .construct _ _ _ _ => none
  | .decode _ _ => none
  | .openStream _ _ => none
  | .read _ _ => none
  | .close _ => none
  | .status _ => none

/-- Bytes `0..n-1` of a code, the least significant first (R58 step 2). -/
def codeBytesLsb : Nat → Nat → List Byte
  | 0, _ => []
  | n + 1, code => BitVec.ofNat 8 code :: codeBytesLsb n (code / 256)

/-- The code of a length field and an offset field (R58 step 1). -/
def joinCode (g : Generics) (length offset : Nat) : Nat :=
  match g.split with
  | .lengthLow => offset * 2 ^ g.lengthBits + length
  | .lengthHigh => length * 2 ^ g.offsetBits + offset

/-- The assembler's bytes of `REF off=offset len=length` in pull order (R58). -/
def encodeRef (g : Generics) (ord : Order) (length offset : Nat) : List Byte :=
  match ord with
  | .lsb => codeBytesLsb g.refBytes (joinCode g length offset)
  | .msb => (codeBytesLsb g.refBytes (joinCode g length offset)).reverse

end Sys2Proof
end

