-- ==== Sys2Proof/Machine/State.lean ====
section
/-!
DEFINITION. The state of the machine as plain data (10_state.md), the reasons a step can stop, and the state after power-on.
-/

namespace Sys2Proof.Machine

/-- A register that the engine reset leaves unwritten (R29, R108): the spec's own value, not a missing one (log 4). -/
inductive Latch (α : Type) where
  | unwritten
  | holds (v : α)
  deriving DecidableEq, Repr

/-- The ring `RB` (R25, R35): its written slots, by index, strictly rising.  An unlisted slot is unwritten (R29). -/
abbrev Memory := List Host.Cell

/-- The ring's canonical form: indexes strictly rise. -/
def Memory.wf : Memory → Bool
  | [] => true
  | [_] => true
  | c :: d :: rest => decide (c.1 < d.1) && Memory.wf (d :: rest)

/-- One instance: a DECODE run or an OPENed adapter (R102), with its engine (R17 to R23), window (R24, R25), adapter (R26)
and source (R31). -/
structure Inst where
  /-- The configuration of the decoder it came from (R14, R102). -/
  cfg : Cfg
  /-- R26. -/
  mode : Mode
  /-- R17. -/
  phase : Phase
  /-- R17. -/
  sub : Nat
  /-- R18. -/
  ctrl : Latch Byte
  /-- R19. -/
  refBuf : List Byte
  /-- R20. -/
  copyRem : Nat
  /-- R20. -/
  copyDist : Latch Nat
  /-- R21. -/
  outCount : Nat
  /-- R22. -/
  consumed : Nat
  /-- R23. -/
  cause : Cause
  /-- The history `H` (R24); in STREAM mode the reference view that R37 and R38 write and read. -/
  hist : List Byte
  /-- The ring `RB` (R25), STREAM mode only. -/
  ring : Memory
  /-- R25, STREAM mode only. -/
  pending : Nat
  /-- R25, STREAM mode only. -/
  ready : List Byte
  /-- R26, STREAM mode only. -/
  closed : Bool
  /-- What the source does at the coming pulls (R31, R32; log 6). -/
  src : List SrcEvent
  deriving DecidableEq, Repr

/-- A READ that waits for its source: its instance and its `N` (R86, R104). -/
structure Running where
  inst : Nat
  n : Nat
  deriving DecidableEq, Repr

/-- A host operation as the host issues it (R79); the model's own queue holds these (log 7). -/
inductive HostCall where
  | construct (orderCode : Int) (ctrlArg : CtrlArg) (refArg : RefArg) (thrArg : ThrArg)
  | decode (dec : Nat) (input : List Byte)
  | openStream (dec : Nat) (source : List SrcEvent)
  | read (inst : Nat) (n : Nat)
  | close (inst : Nat)
  | status (inst : Nat)
  deriving DecidableEq, Repr

/-- The kind of a READ's result (R86). -/
inductive ReadKind where
  | data
  | endOfStream
  | error (c : Cause)
  deriving DecidableEq, Repr

/-- What an operation returns to the host (R89).  OPEN returns nothing (R90). -/
inductive HostResult where
  /-- `Ok(cfg)` of CONSTRUCT (R59). -/
  | constructed (cfg : Cfg)
  /-- `Error(cause)` of CONSTRUCT (R59). -/
  | constructError (c : Cause)
  /-- DECODE's `(H, status)` with the final `consumed` (R82, R83, R89); status `none` is OK. -/
  | decoded (out : List Byte) (status : Cause) (consumed : Nat)
  /-- READ's bytes and kind, with the instance read (R86). -/
  | read (inst : Nat) (bytes : List Byte) (kind : ReadKind)
  /-- CLOSE's OK, with the instance closed (R87). -/
  | closedOk (inst : Nat)
  /-- STATUS's word, `consumed`, `outCount` and, in STREAM mode, the length of `ready` (R28, R88). -/
  | status (word : BitVec 16) (consumed outCount : Nat) (ready : Option Nat)
  deriving DecidableEq, Repr

/-- Model-only faults. -/
inductive Fault where
  /-- Raised by `MemRead` of an unwritten ring slot (R35, R105); no rule reaches it (R39).  Safe. -/
  | windowUnwritten
  /-- Raised by `WinRead(d)` outside its precondition `1 <= d <= outCount` (R36); no rule reaches it (R30).  Safe (log 18). -/
  | windowPrecondition
  deriving DecidableEq, Repr

/-- Why a step is refused. -/
inductive Refusal where
  /-- Raised by exec's arm of an instruction that has no meaning yet.  Safe. -/
  | notModelled (mnemonic : String)
  /-- Raised by CONSTRUCT under generics that break R6: no decoder of that shape exists (R105).  Safe. -/
  | unsupportedInstantiation
  /-- Raised by a pull or an Emit that would take a counter past `2^COUNT_BITS - 1` (R101, R105).  Safe. -/
  | countOverflow
  /-- Raised by a pull of a source that fails (D16, I14).  Safe. -/
  | sourceFailed
  /-- Raised by DECODE or OPEN without the constructed decoder it names (R100, R109).  Safe (log 16). -/
  | noDecoder
  /-- Raised by READ, CLOSE, STATUS or a token whose instance does not exist (R29, R109).  Safe (log 16). -/
  | noInstance
  /-- Raised by READ or CLOSE on a DECODE run, which has no adapter (R25, R100).  Safe (log 16). -/
  | notStream
  /-- Raised by a token outside any host operation: the block acts only within one (R99).  Safe (log 15). -/
  | noOperation
  /-- Raised by a token that the engine's phase does not select (R57, R81, R96).  Safe (log 15). -/
  | notSelected
  /-- Raised by READ, CLOSE or STATUS while a READ is under way that they would run beside (R90, I15).  Safe (log 17). -/
  | operationUnderWay
  deriving DecidableEq, Repr

/-- The result of an operation of the model. -/
abbrev Res (α : Type) := Host.Outcome α Fault Refusal

/-- The machine: the instantiation's generics, the constructed decoders, the instances, the operation under way, and the
host's side of the interface. -/
structure State where
  /-- The generics (R5), constants that no step changes (log 1). -/
  gen : Generics
  /-- The constructed decoders in order of construction (R59, R61). -/
  decoders : List Cfg
  /-- The instances in order of creation (R84, R102). -/
  insts : List Inst
  /-- The READ under way, when it waits for its source (R104). -/
  op : Option Running
  /-- MODEL'S OWN (log 7): the host operations issued and not begun. -/
  calls : List HostCall
  /-- MODEL'S OWN (log 7): the results returned so far, oldest first. -/
  results : List HostResult
  deriving DecidableEq, Repr

/-- The default instantiation (R8) before any operation: no decoder, no instance (R29), nothing issued and nothing returned. -/
def State.reset : State :=
  { gen := .preset, decoders := [], insts := [], op := none, calls := [], results := [] }

end Sys2Proof.Machine
end

