-- ==== Sys2Proof/Machine/Flags.lean ====
section
/-!
DEFINITION. The predicates the rules read (R27), the control function (R63, R64), and the STATUS and CONFIG views (R15, R28).
-/

namespace Sys2Proof.Machine

/-- The default control function (R63): bit `7 - i` of the control byte is zero. -/
def defaultIsLiteral (c : Byte) (i : Nat) : Bool := !c.getLsbD (7 - i)

/-- The value a supplied control function's table gives (R64). -/
def CtrlTable.apply (f : CtrlTable) (c : Byte) (i : Nat) : Bool :=
  (f.entries.lookup (c, i)).getD f.other

/-- `cfg.isLit(c, i)` (R14, R64). -/
def applyIsLit (f : CtrlFn) (c : Byte) (i : Nat) : Bool :=
  match f with
  | .default => defaultIsLiteral c i
  | .supplied t => CtrlTable.apply t c i

/-- The predicate `terminal` (R27). -/
def Phase.terminal : Phase → Bool
  | .ctrl => false
  | .lit => false
  | .ref => false
  | .copy => false
  | .done => true
  | .failed => true

/-- The phases between rounds: a group boundary or a terminal state (R85). -/
def Phase.boundary : Phase → Bool
  | .ctrl => true
  | .lit => false
  | .ref => false
  | .copy => false
  | .done => true
  | .failed => true

/-- The value a read of `ctrl` gives; of an unwritten register, a free value (R18, I12; log 4). -/
def ctrlValue (e : Inst) : Byte :=
  match e.ctrl with
  | .holds c => c
  | .unwritten => Config.unwrittenCtrl e.consumed

/-- The literal/reference decision of the current sub-round (R27, R66). -/
def isLiteralNow (e : Inst) : Bool := applyIsLit e.cfg.isLit (ctrlValue e) e.sub

/-- A Boolean as a one-bit field. -/
def flagBit (b : Bool) : Nat := if b then 1 else 0

/-- The STATUS word (R28); CLOSED is 0 in BUFFER mode, and bits 15 to 12 read as 0. -/
def statusWord (e : Inst) : BitVec 16 :=
  BitVec.ofNat 4 0 ++ BitVec.ofNat 1 e.mode.code ++
    BitVec.ofNat 1 (flagBit (e.closed && decide (e.mode = .stream))) ++ BitVec.ofNat 3 e.cause.code ++
    BitVec.ofNat 4 e.sub ++ BitVec.ofNat 3 e.phase.code

/-- STATUS's fourth value: the length of `ready`, in STREAM mode (R28). -/
def statusReady (e : Inst) : Option Nat :=
  match e.mode with
  | .buffer => none
  | .stream => some e.ready.length

/-- The CTRLFN_CUSTOM field (R15). -/
def CtrlFn.isSupplied : CtrlFn → Bool
  | .default => false
  | .supplied _ => true

/-- The REFFN_CUSTOM field (R15). -/
def RefFn.isSupplied : RefFn → Bool
  | .default => false
  | .supplied _ => true

/-- The CONFIG view (R15); bits 15 to 4 read as 0. -/
def configWord (g : Generics) (c : Cfg) : BitVec 16 :=
  BitVec.ofNat 12 0 ++ BitVec.ofNat 1 (flagBit (RefFn.isSupplied c.decRef)) ++
    BitVec.ofNat 1 (flagBit (CtrlFn.isSupplied c.isLit)) ++ BitVec.ofNat 1 (splitCode g.split) ++
    BitVec.ofNat 1 (orderCode c.order)

/-- The THRESHOLD view (R15). -/
def thresholdView (c : Cfg) : Nat := c.threshold

end Sys2Proof.Machine
end

