-- ==== Sys2Proof/Machine/Operands.lean ====
section
/-!
DEFINITION. The operands of a reference: the code, its two fields, the supplied reference function, and the copy's length,
start and distance (R40, R51 to R53, R72, R73).
-/

namespace Sys2Proof.Machine

/-- `v[hi:lo]`, zero-extended (R9). -/
def bitField (v hi lo : Nat) : Nat := v / 2 ^ lo % 2 ^ (hi + 1 - lo)

/-- The code with the first byte least significant (R51, LSB). -/
def assembleLsb : List Byte → Nat
  | [] => 0
  | b :: bs => b.toNat + 256 * assembleLsb bs

/-- `Assemble(bytes, ord)` (R51). -/
def assemble (ord : Order) (bytes : List Byte) : Nat :=
  match ord with
  | .lsb => assembleLsb bytes
  | .msb => assembleLsb bytes.reverse

/-- The length and offset fields of a code (R52). -/
def splitFields (g : Generics) (code : Nat) : Nat × Nat :=
  match g.split with
  | .lengthLow => (bitField code (g.lengthBits - 1) 0, bitField code (g.codeBits - 1) g.lengthBits)
  | .lengthHigh => (bitField code (g.codeBits - 1) g.offsetBits, bitField code (g.offsetBits - 1) 0)

/-- The default reference function (R72), on naturals. -/
def defaultFields (g : Generics) (ord : Order) (bytes : List Byte) : Nat × Nat :=
  splitFields g (assemble ord bytes)

/-- The value a supplied reference function's table gives (R73). -/
def RefTable.apply (f : RefTable) (bytes : List Byte) (ord : Order) : Int × Int :=
  (f.entries.lookup (bytes, ord)).getD f.other

/-- `cfg.decRef(bytes, cfg.order)` (R72, R73). -/
def applyDecRef (g : Generics) (c : Cfg) (bytes : List Byte) : Int × Int :=
  match c.decRef with
  | .default =>
    let f := defaultFields g c.order bytes
    ((f.1 : Int), (f.2 : Int))
  | .supplied t => RefTable.apply t bytes c.order

/-- `copyLength` (R53). -/
def copyLength (c : Cfg) (length : Int) : Int := length + (c.threshold : Int)

/-- `copyStart`, signed (R53). -/
def copyStart (e : Inst) (offset : Int) : Int := (e.outCount : Int) - 1 - offset

/-- `dist` (R53). -/
def distance (offset : Int) : Int := offset + 1

/-- The value a read of `copyDist` gives; of an unwritten register, a free value (R29, I12; log 4). -/
def distValue (e : Inst) : Nat :=
  match e.copyDist with
  | .holds d => d
  | .unwritten => Config.unwrittenDist e.consumed

end Sys2Proof.Machine
end

