-- ==== Sys2Proof/Machine/Ops.lean ====
section
/-!
DEFINITION. The named operations on the machine's state: the pseudocode primitives of R11 (SrcPull, MemRead, MemWrite, WinRead,
Emit, Flush, Finish, raise), Dispatch (R66), Resolve (R74), and the engine reset (R80), which is the only way on after a failure (R98).
-/

namespace Sys2Proof.Machine

/-- Runs `f` on the next state of `o`; a fault or a refusal stays. -/
def andThen {α β : Type} (o : Res α) (f : α → Res β) : Res β :=
  match o with
  | .next a => f a
  | .fault r => .fault r
  | .refused r => .refused r

/-! ## Named updates of an instance -/

/-- `phase <- p`. -/
def Inst.goto (e : Inst) (p : Phase) : Inst := { e with phase := p }

/-- `ctrl <- c; sub <- 0` (R65). -/
def Inst.latchCtrl (e : Inst) (c : Byte) : Inst := { e with ctrl := .holds c, sub := 0 }

/-- `sub <- sub + 1` (R66). -/
def Inst.nextSub (e : Inst) : Inst := { e with sub := e.sub + 1 }

/-- `refBuf <- bs` (R71). -/
def Inst.setRefBuf (e : Inst) (bs : List Byte) : Inst := { e with refBuf := bs }

/-- `copyDist <- d; copyRem <- n; phase <- COPY` (R74). -/
def Inst.startCopy (e : Inst) (d n : Nat) : Inst :=
  { e with copyDist := .holds d, copyRem := n, phase := .copy }

/-- `copyRem <- n` (R75). -/
def Inst.setCopyRem (e : Inst) (n : Nat) : Inst := { e with copyRem := n }

/-- The source advances past `k` answered bytes, and `consumed` counts them (R32). -/
def Inst.pulled (e : Inst) (k : Nat) : Inst :=
  { e with consumed := e.consumed + k, src := e.src.drop k }

/-- The source advances past an element that `consumed` does not count: EOS (R32), or the end of a wait. -/
def Inst.pastEvent (e : Inst) : Inst := { e with src := e.src.drop 1 }

/-- `H <- H ++ [v]; outCount <- outCount + 1` (R37). -/
def Inst.append (e : Inst) (v : Byte) : Inst :=
  { e with hist := e.hist ++ [v], outCount := e.outCount + 1 }

/-- `RB <- m; pending <- n` (R37). -/
def Inst.setRing (e : Inst) (m : Memory) (n : Nat) : Inst := { e with ring := m, pending := n }

/-- `ready <- bs; pending <- 0` (R38). -/
def Inst.flushTo (e : Inst) (bs : List Byte) : Inst := { e with ready := bs, pending := 0 }

/-- `ready <- bs` (R86). -/
def Inst.setReady (e : Inst) (bs : List Byte) : Inst := { e with ready := bs }

/-- `cause <- c; phase <- FAILED` (R93). -/
def Inst.failWith (e : Inst) (c : Cause) : Inst := { e with cause := c, phase := .failed }

/-- `closed <- true; ready <- []` (R87). -/
def Inst.shut (e : Inst) : Inst := { e with closed := true, ready := [] }

/-! ## Named updates of the machine -/

/-- Replaces instance `i`. -/
def State.setInst (s : State) (i : Nat) (e : Inst) : State := { s with insts := s.insts.set i e }

/-- Adds an instance, numbered after those there are. -/
def State.addInst (s : State) (e : Inst) : State := { s with insts := s.insts ++ [e] }

/-- Adds a decoder, numbered after those there are. -/
def State.addDecoder (s : State) (c : Cfg) : State := { s with decoders := s.decoders ++ [c] }

/-- Returns a result to the host. -/
def State.addResult (s : State) (r : HostResult) : State := { s with results := s.results ++ [r] }

/-- Sets the READ under way. -/
def State.setOp (s : State) (o : Option Running) : State := { s with op := o }

/-- Sets the host's queue. -/
def State.setCalls (s : State) (cs : List HostCall) : State := { s with calls := cs }

/-! ## The ring -/

/-- The slot of history position `n` (R35). -/
def ringSlot (g : Generics) (n : Nat) : Fin g.bufCap := ⟨n % g.bufCap, Nat.mod_lt n g.bufCap_pos⟩

/-- The contents of an index, `none` when unwritten. -/
def memLookup : Memory → Nat → Option Byte
  | [], _ => none
  | (k, b) :: rest, a => if k = a then some b else memLookup rest a

/-- The list with index `a` holding `v`, in canonical form. -/
def memInsert : Memory → Nat → Byte → Memory
  | [], a, v => [(a, v)]
  | (k, b) :: rest, a, v =>
    if a < k then (a, v) :: (k, b) :: rest
    else if a = k then (a, v) :: rest
    else (k, b) :: memInsert rest a v

/-- `MemRead(a, 1)` (R35): an unwritten slot is the model fault `WindowUnwritten`. -/
def memRead {g : Generics} (m : Memory) (a : Fin g.bufCap) : Res Byte :=
  match memLookup m a.val with
  | some b => .next b
  | none => .fault .windowUnwritten

/-- `MemWrite(a, 1, v)` (R35). -/
def memWrite {g : Generics} (m : Memory) (a : Fin g.bufCap) (v : Byte) : Memory :=
  memInsert m a.val v

/-! ## The source and the window -/

/-- `SrcPull` of `k` bytes that the source answers (R32); refused past the counter bound (R105). -/
def pullBytes (g : Generics) (k : Nat) (e : Inst) : Res Inst :=
  if g.countOk (e.consumed + k) then .next (e.pulled k) else .refused .countOverflow

/-- The last `k` elements, oldest first. -/
def lastBytes (k : Nat) (l : List Byte) : List Byte := l.drop (l.length - k)

/-- `Flush()` (R38). -/
def flush (e : Inst) : Inst := e.flushTo (e.ready ++ lastBytes e.pending e.hist)

/-- Flush in STREAM mode, nothing in BUFFER mode (R67, R93). -/
def flushIfStream (e : Inst) : Inst :=
  match e.mode with
  | .buffer => e
  | .stream => flush e

/-- The STREAM-mode part of `Emit(v)` before the history grows (R37): the ring write, and one more pending byte. -/
def ringEmit (g : Generics) (v : Byte) (e : Inst) : Inst :=
  e.setRing (memWrite e.ring (ringSlot g e.outCount) v) (e.pending + 1)

/-- The STREAM-mode end of `Emit(v)` (R37): a flush when the buffer is full. -/
def flushIfFull (g : Generics) (e : Inst) : Inst :=
  if e.pending = g.bufCap then flush e else e

/-- `Emit(v)` (R37); refused past the counter bound (R105). -/
def emit (g : Generics) (v : Byte) (e : Inst) : Res Inst :=
  if g.countOk (e.outCount + 1) then
    match e.mode with
    | .buffer => .next (e.append v)
    | .stream => .next (flushIfFull g ((ringEmit g v e).append v))
  else .refused .countOverflow

/-- `WinRead(d)` (R36); outside its precondition a model fault (log 18). -/
def winRead (g : Generics) (d : Nat) (e : Inst) : Res Byte :=
  if 1 ≤ d ∧ d ≤ e.outCount then
    match e.mode with
    | .buffer =>
      match e.hist[e.outCount - d]? with
      | some b => .next b
      | none => .fault .windowPrecondition
    | .stream => memRead e.ring (ringSlot g (e.outCount - d))
  else .fault .windowPrecondition

/-! ## Sequencing -/

/-- `Dispatch()` (R66). -/
def dispatch (e : Inst) : Inst :=
  if e.sub = 8 then e.goto .ctrl
  else if isLiteralNow e then e.goto .lit
  else e.goto .ref

/-- A completed token: `sub <- sub + 1; Dispatch()` (R66). -/
def completeToken (e : Inst) : Inst := dispatch e.nextSub

/-- `Finish()` (R67). -/
def finish (e : Inst) : Inst := (flushIfStream e).goto .done

/-- `raise c` (R93): the one way into the Failed state, which has no vector and saves no counter. -/
def raise (c : Cause) (e : Inst) : Inst := (flushIfStream e).failWith c

/-- A reference reaches outside the history, or in STREAM mode outside the window (R74). -/
def offsetInvalid (g : Generics) (e : Inst) (offset : Int) : Bool :=
  decide (offset < 0) || decide (copyStart e offset < 0) ||
    (decide (e.mode = .stream) && decide ((g.window : Int) < offset + 1))

/-- `Resolve` on a decoded pair `(length, offset)` (R74). -/
def resolve (g : Generics) (length offset : Int) (e : Inst) : Inst :=
  if length < 0 then raise .chunkLength e
  else if offsetInvalid g e offset then raise .offset e
  else e.startCopy (distance offset).toNat (copyLength e.cfg length).toNat

/-- `EngineReset(m)` with the source latched (R29, R80, R82, R84). -/
def engineReset (c : Cfg) (m : Mode) (source : List SrcEvent) : Inst :=
  { cfg := c, mode := m, phase := .ctrl, sub := 0, ctrl := .unwritten, refBuf := [], copyRem := 0,
    copyDist := .unwritten, outCount := 0, consumed := 0, cause := .none, hist := [], ring := [],
    pending := 0, ready := [], closed := false, src := source }

end Sys2Proof.Machine
end

