-- ==== Sys2Proof/Machine/Tokens.lean ====
section
/-!
DEFINITION. The tokens and end events (R57): what each does to the engine that runs it, and its meaning on the machine.
-/

namespace Sys2Proof.Machine

/-! ## On an engine -/

/-- CTRL on a byte (R65). -/
def ctrlToken (g : Generics) (c : Byte) (e : Inst) : Res Inst :=
  andThen (pullBytes g 1 e) fun e1 => .next (dispatch (e1.latchCtrl c))

/-- CTRL on EOS (R65, R67). -/
def endCleanToken (e : Inst) : Res Inst := .next (finish e.pastEvent)

/-- LIT (R70). -/
def litToken (g : Generics) (v : Byte) (e : Inst) : Res Inst :=
  andThen (pullBytes g 1 e) fun e1 => andThen (emit g v e1) fun e2 => .next (completeToken e2)

/-- A reference token of `k` bytes with fields `(length, offset)` (R71, R74): pulls the bytes `refBuf` does not hold yet (log 21),
clears `refBuf`, and resolves. -/
def refToken (g : Generics) (k : Nat) (length offset : Int) (e : Inst) : Res Inst :=
  andThen (pullBytes g (k - e.refBuf.length) e) fun e1 => .next (resolve g length offset (e1.setRefBuf []))

/-- A REF step that does not complete the code (R71). -/
def collectByte (g : Generics) (b : Byte) (e : Inst) : Res Inst :=
  andThen (pullBytes g 1 e) fun e1 => .next (e1.setRefBuf (e1.refBuf ++ [b]))

/-- The end of a COPY step: `copyRem <- copyRem - 1`, and at 0 the token is complete (R75). -/
def copyAdvance (e : Inst) : Inst :=
  let e1 := e.setCopyRem (e.copyRem - 1)
  if e1.copyRem = 0 then completeToken e1 else e1

/-- COPY (R75). -/
def copyToken (g : Generics) (e : Inst) : Res Inst :=
  andThen (winRead g (distValue e) e) fun b => andThen (emit g b e) fun e1 => .next (copyAdvance e1)

/-- EOS inside a group (R70, R71): in REF the partial code is discarded. -/
def endTruncToken (e : Inst) : Res Inst :=
  match e.phase with
  | .ref => .next (raise .unexpectedEof (e.pastEvent.setRefBuf []))
  | _ => .next (raise .unexpectedEof e.pastEvent)

/-! ## On the machine -/

/-- Runs a token on the engine of the operation under way (R99), when that engine's phase selects it (R57). -/
def runToken (sel : Phase → Bool) (f : Generics → Inst → Res Inst) (s : State) : Res State :=
  match s.op with
  | none => .refused .noOperation
  | some r =>
    match s.insts[r.inst]? with
    | none => .refused .noInstance
    | some e =>
      if sel e.phase then andThen (f s.gen e) fun e1 => .next (s.setInst r.inst e1)
      else .refused .notSelected

/-- The phases in which EOS ends the stream inside a group (R57). -/
def midGroup (p : Phase) : Bool := p == .lit || p == .ref

/-- CTRL (R65). -/
def execCtrl (c : Byte) (s : State) : Res State := runToken (· == .ctrl) (fun g => ctrlToken g c) s

/-- END_CLEAN (R65, R67). -/
def execEndClean (s : State) : Res State := runToken (· == .ctrl) (fun _ => endCleanToken) s

/-- LIT (R70). -/
def execLit (v : Byte) (s : State) : Res State := runToken (· == .lit) (fun g => litToken g v) s

/-- The generic REF on an engine (R71, R73): the pair `cfg.decRef` gives.  DESIGN CHOICE (log 31): run directly with other than
`REF_BYTES` bytes, which no step does, it takes the bytes it is given. -/
def refGeneric (bytes : List Byte) (g : Generics) (e : Inst) : Res Inst :=
  let f := applyDecRef g e.cfg bytes
  refToken g bytes.length f.1 f.2 e

/-- REF (R71 to R74, R78). -/
def execRef (bytes : List Byte) (s : State) : Res State := runToken (· == .ref) (refGeneric bytes) s

/-- A two-byte reference with the fields of the 12/4 widths (R54, R74).  DESIGN CHOICE (log 31): run directly on an engine whose
order, `SPLIT`, widths or supplied `decRef` do not select the layout, which no step does, it takes its operands as the pair. -/
def refPreset (l : BitVec 4) (o : BitVec 12) (g : Generics) (e : Inst) : Res Inst :=
  refToken g 2 (l.toNat : Int) (o.toNat : Int) e

/-- REF_LSB_LENLOW (R54, R71, R74). -/
def execRefLsbLenlow (l : BitVec 4) (o : BitVec 12) (s : State) : Res State := runToken (· == .ref) (refPreset l o) s

/-- REF_MSB_LENLOW (R54, R71, R74). -/
def execRefMsbLenlow (l : BitVec 4) (o : BitVec 12) (s : State) : Res State := runToken (· == .ref) (refPreset l o) s

/-- REF_LSB_LENHIGH (R54, R71, R74). -/
def execRefLsbLenhigh (l : BitVec 4) (o : BitVec 12) (s : State) : Res State := runToken (· == .ref) (refPreset l o) s

/-- REF_MSB_LENHIGH (R54, R71, R74). -/
def execRefMsbLenhigh (l : BitVec 4) (o : BitVec 12) (s : State) : Res State := runToken (· == .ref) (refPreset l o) s

/-- COPY (R75). -/
def execCopy (s : State) : Res State := runToken (· == .copy) copyToken s

/-- END_TRUNC (R70, R71, R93). -/
def execEndTrunc (s : State) : Res State := runToken midGroup (fun _ => endTruncToken) s

end Sys2Proof.Machine
end

