-- ==== Sys2Proof/Machine/Engine.lean ====
section
/-!
DEFINITION. Fetching the engine's next token from its source, one engine step (R81), the loops of DECODE and RunRound (R82, R85),
and the instruction placed for a fetch.
-/

namespace Sys2Proof.Machine

/-- What the decoder needs of an engine's state (R55). -/
def decodeCtx (g : Generics) (e : Inst) : DecodeCtx :=
  { phase := e.phase, gen := g, order := e.cfg.order, suppliedRef := RefFn.isSupplied e.cfg.decRef }

/-- The answers the decoder sees at one step: the reference bytes pulled so far (R19), then the source's next element. -/
def fetchWindow (e : Inst) : List SrcEvent :=
  match e.phase with
  | .ref => e.refBuf.map .byte ++ e.src.take 1
  | _ => e.src.take 1

/-- What an engine's next step is. -/
inductive Fetched where
  /-- A token, an end event or a COPY step. -/
  | run (i : Instr)
  /-- A byte of a reference code that is not complete yet (R71). -/
  | collect (b : Byte)
  /-- The source has not answered and will not (R90): the step waits. -/
  | waits
  /-- The source withholds its answer for now (R32). -/
  | later
  /-- The source failed (D16). -/
  | sourceFailed
  /-- No step is enabled (R81). -/
  | terminal
  deriving DecidableEq, Repr

/-- The engine's next step, by its phase and its source's next element (R57, R81). -/
def fetch (g : Generics) (e : Inst) : Fetched :=
  match Sys2Proof.decode (decodeCtx g e) (fetchWindow e) with
  | .ok (i, _) => .run i
  | .error .incomplete =>
    match e.src with
    | .byte b :: _ => .collect b
    | _ => .waits
  | .error .withheld => .later
  | .error .sourceFailed => .sourceFailed
  | .error .terminal => .terminal

/-- A token's effect on its engine; a host operation is no token (R57, R79). -/
def engineExec (g : Generics) (i : Instr) (e : Inst) : Res Inst :=
  match i with
  | .ctrl c => ctrlToken g c e
  | .endClean => endCleanToken e
  | .lit v => litToken g v e
  | .ref bytes => refGeneric bytes g e
  | .refLsbLenlow l o => refPreset l o g e
  | .refMsbLenlow l o => refPreset l o g e
  | .refLsbLenhigh l o => refPreset l o g e
  | .refMsbLenhigh l o => refPreset l o g e
  | .copy => copyToken g e
  | .endTrunc => endTruncToken e
  | .construct _ _ _ _ => .refused .notSelected
  | .decode _ _ => .refused .notSelected
  | .openStream _ _ => .refused .notSelected
  | .read _ _ => .refused .notSelected
  | .close _ => .refused .notSelected
  | .status _ => .refused .notSelected

/-- One step of the engine (R81): one pull, one copied byte, or a wait for the source (R104), which leaves every register as it is. -/
def engineStep (g : Generics) (e : Inst) : Res Inst :=
  match fetch g e with
  | .run i => engineExec g i e
  | .collect b => collectByte g b e
  | .waits => .next e
  | .later => .next e.pastEvent
  | .sourceFailed => .refused .sourceFailed
  | .terminal => .next e

/-- `k` COPY steps (R75, R76). -/
def copySteps (g : Generics) : Nat → Inst → Res Inst
  | 0, e => .next e
  | k + 1, e => andThen (copyToken g e) (copySteps g k)

/-- How many COPY steps the engine runs before it pulls again (R75, log 24). -/
def copiesDue (e : Inst) : Nat :=
  match e.phase with
  | .copy => max 1 e.copyRem
  | _ => 0

/-- The COPY steps of a resolved reference (R75). -/
def runCopies (g : Generics) (e : Inst) : Res Inst := copySteps g (copiesDue e) e

/-- Engine steps until `stop` holds or the source withholds its next answer: the `while` of R82 and the rounds of R85.
The list is the engine's own source, on which the recursion runs: each turn pulls one element of it. -/
def drive (g : Generics) (stop : Inst → Bool) : List SrcEvent → Inst → Res Inst
  | [], e => runCopies g e
  | ev :: rest, e =>
    andThen (runCopies g e) fun e1 =>
      if stop e1 || ev == .later then .next e1
      else andThen (engineStep g e1) fun e2 => drive g stop rest e2

/-- The host operation of a call (R79). -/
def HostCall.toInstr : HostCall → Instr
  | .construct oc ca ra ta => .construct oc ca ra ta
  | .decode d input => .decode d input
  | .openStream d source => .openStream d source
  | .read i n => .read i n
  | .close i => .close i
  | .status i => .status i

/-! ## Placing an instruction for the next fetch (log 19) -/

/-- The configuration that `decodeTableWord` decodes under. -/
def tableCfg : Cfg := { order := .lsb, isLit := .default, decRef := .default, threshold := 3 }

/-- An engine whose next fetch completes an instruction of `n` bytes numbered `w`: all but its last byte collected and counted. -/
def placedInst (n w : Nat) : Inst :=
  let bytes := tableBytes n w
  { engineReset tableCfg .stream (((bytes.drop (n - 1)).map .byte) ++ [.eos]) with
    phase := tablePhase n, refBuf := bytes.take (n - 1), consumed := n - 1 }

/-- The machine about to run that instruction: a decoder, an instance of it, and a READ of one byte under way on that. -/
def placeWord (s : State) (nbits w : Nat) : State :=
  { s with
    gen := .preset
    decoders := s.decoders ++ [tableCfg]
    insts := s.insts ++ [placedInst ((nbits + 7) / 8) w]
    op := some ⟨s.insts.length, 1⟩ }

end Sys2Proof.Machine
end

