-- ==== Sys2Proof/Machine/HostOps.lean ====
section
/-!
DEFINITION. The six host operations (R79): CONSTRUCT (R59), DECODE (R82), OPEN (R84), READ (R86), CLOSE (R87), STATUS (R88); and
how the machine goes on: a READ under way, or the host's next operation.
-/

namespace Sys2Proof.Machine

/-! ## CONSTRUCT -/

/-- The order of an order code (R5, R59). -/
def orderOfCode (orderCode : Int) : Option Order :=
  if orderCode = 0 then some .lsb else if orderCode = 1 then some .msb else none

/-- A function argument is `Nil` (R59). -/
def anyNull (ctrlArg : CtrlArg) (refArg : RefArg) : Bool := ctrlArg == .null || refArg == .null

/-- The control function an argument gives (R59); `Nil` is rejected before. -/
def ctrlFnOf : CtrlArg → CtrlFn
  | .omitted => .default
  | .null => .default
  | .fn f => .supplied f

/-- The reference function an argument gives (R59); `Nil` is rejected before. -/
def refFnOf : RefArg → RefFn
  | .omitted => .default
  | .null => .default
  | .fn f => .supplied f

/-- The threshold an argument gives (R59). -/
def thresholdOf (g : Generics) : ThrArg → Int
  | .omitted => g.thresholdMin
  | .value t => t

/-- CONSTRUCT's checks in their order (R59, R60), and the configuration. -/
def constructCfg (g : Generics) (orderCode : Int) (ctrlArg : CtrlArg) (refArg : RefArg) (thrArg : ThrArg) : Except Cause Cfg :=
  match orderOfCode orderCode with
  | none => .error .unknownOrder
  | some ord =>
    if anyNull ctrlArg refArg then .error .nilParameter
    else if thresholdOf g thrArg < (g.thresholdMin : Int) then .error .thresholdTooSmall
    else .ok { order := ord, isLit := ctrlFnOf ctrlArg, decRef := refFnOf refArg, threshold := (thresholdOf g thrArg).toNat }

/-- CONSTRUCT (R59 to R61): a new decoder, or an error that changes nothing else; refused where no decoder of the shape exists (R6, R105). -/
def execConstruct (orderCode : Int) (ctrlArg : CtrlArg) (refArg : RefArg) (thrArg : ThrArg) (s : State) : Res State :=
  if s.gen.supported then
    match constructCfg s.gen orderCode ctrlArg refArg thrArg with
    | .error c => .next (s.addResult (.constructError c))
    | .ok cfg => .next ((s.addDecoder cfg).addResult (.constructed cfg))
  else .refused .unsupportedInstantiation

/-! ## DECODE and OPEN -/

/-- The byte source DECODE makes of its input (R32). -/
def bufferSource (input : List Byte) : List SrcEvent := input.map .byte ++ [.eos]

/-- DECODE's engine, run from the engine reset until it is terminal (R82). -/
def decodeRun (g : Generics) (c : Cfg) (input : List Byte) : Res Inst :=
  drive g (fun e => e.phase.terminal) (bufferSource input) (engineReset c .buffer (bufferSource input))

/-- DECODE's result (R82, R83). -/
def decodeResult (e : Inst) : HostResult := .decoded e.hist e.cause e.consumed

/-- DECODE (R82): a new BUFFER-mode instance, left terminal, and its result. -/
def execDecode (dec : Nat) (input : List Byte) (s : State) : Res State :=
  match s.decoders[dec]? with
  | none => .refused .noDecoder
  | some c => andThen (decodeRun s.gen c input) fun e => .next ((s.addInst e).addResult (decodeResult e))

/-- OPEN (R84): a new STREAM-mode instance; it returns nothing (R90) and pulls nothing. -/
def execOpen (dec : Nat) (source : List SrcEvent) (s : State) : Res State :=
  match s.decoders[dec]? with
  | none => .refused .noDecoder
  | some c => .next (s.addInst (engineReset c .stream source))

/-! ## READ -/

/-- The part of READ's loop before RunRound (R86): what it can return at once, and the instance after it. -/
def readNow (n : Nat) (e : Inst) : Option (List Byte × ReadKind × Inst) :=
  if e.ready ≠ [] then some (e.ready.take n, .data, e.setReady (e.ready.drop n))
  else
    match e.phase with
    | .done => some ([], .endOfStream, e)
    | .failed => some ([], .error e.cause, e)
    | _ => none

/-- READ runs no further round (R85, R86): between rounds, with bytes ready or the engine terminal. -/
def readStop (e : Inst) : Bool := e.phase.boundary && (e.phase.terminal || !e.ready.isEmpty)

/-- The READ under way returns, if it can (R86): between rounds only (R85). -/
def settle (s : State) : State :=
  match s.op with
  | none => s
  | some r =>
    match s.insts[r.inst]? with
    | none => s
    | some e =>
      if e.phase.boundary then
        match readNow r.n e with
        | some (bs, k, e1) => ((s.setInst r.inst e1).setOp none).addResult (.read r.inst bs k)
        | none => s
      else s

/-- The instance is used by the READ under way (R90). -/
def State.busy (s : State) (i : Nat) : Bool :=
  match s.op with
  | none => false
  | some r => r.inst == i

/-- READ on an open adapter with `n ≥ 1` (R86): what can be returned at once, or rounds until it returns or must wait (R104). -/
def readOpen (i n : Nat) (e : Inst) (s : State) : Res State :=
  match readNow n e with
  | some (bs, k, e1) => .next ((s.setInst i e1).addResult (.read i bs k))
  | none =>
    andThen (drive s.gen readStop e.src e) fun e1 => .next (settle ((s.setInst i e1).setOp (some ⟨i, n⟩)))

/-- READ (R86). -/
def execRead (i n : Nat) (s : State) : Res State :=
  if s.op ≠ none then .refused .operationUnderWay
  else
    match s.insts[i]? with
    | none => .refused .noInstance
    | some e =>
      match e.mode with
      | .buffer => .refused .notStream
      | .stream =>
        if e.closed then .next (s.addResult (.read i [] (.error .closed)))
        else if n = 0 then .next (s.addResult (.read i [] .data))
        else readOpen i n e s

/-! ## CLOSE and STATUS -/

/-- CLOSE (R87). -/
def execClose (i : Nat) (s : State) : Res State :=
  if s.busy i then .refused .operationUnderWay
  else
    match s.insts[i]? with
    | none => .refused .noInstance
    | some e =>
      match e.mode with
      | .buffer => .refused .notStream
      | .stream => .next ((s.setInst i e.shut).addResult (.closedOk i))

/-- STATUS's four values (R28, R88). -/
def statusResult (e : Inst) : HostResult := .status (statusWord e) e.consumed e.outCount (statusReady e)

/-- STATUS (R88). -/
def execStatus (i : Nat) (s : State) : Res State :=
  if s.busy i then .refused .operationUnderWay
  else
    match s.insts[i]? with
    | none => .refused .noInstance
    | some e => .next (s.addResult (statusResult e))

/-! ## Going on

`ex` is the machine's `exec`, which calls the meanings above. -/

/-- The READ under way takes one engine step (R81) and returns if it then can (R86).  A byte of an incomplete reference code
(R71), a wait (R104) and a failing source (D16) are what a step meets beside the tokens that `ex` runs. -/
def goOn (ex : Instr → State → Res State) (e : Inst) (r : Running) (s : State) : Res State :=
  match fetch s.gen e with
  | .run i => andThen (ex i s) fun t => .next (settle t)
  | .collect b => andThen (collectByte s.gen b e) fun e1 => .next (s.setInst r.inst e1)
  | .waits => .next s
  | .later => .next (s.setInst r.inst e.pastEvent)
  | .sourceFailed => .refused .sourceFailed
  | .terminal => .next (settle s)

/-- The host's next operation (R79); with none issued the block does nothing (R99, log 9). -/
def nextCall (ex : Instr → State → Res State) (s : State) : Res State :=
  match s.calls with
  | [] => .next s
  | c :: rest => ex c.toInstr (s.setCalls rest)

/-- One step of the machine over `ex`: an operation runs to completion before the next begins (R79). -/
def stepWith (ex : Instr → State → Res State) (s : State) : Res State :=
  match s.op with
  | none => nextCall ex s
  | some r =>
    match s.insts[r.inst]? with
    | none => .refused .noInstance
    | some e => goOn ex e r s

end Sys2Proof.Machine
end

