-- ==== Sys2Proof/Machine/Dispatch.lean ====
section
/-!
DEFINITION. One arm per instruction (opcode_table.json), each one call of its meaning.
-/

namespace Sys2Proof.Machine

def exec (i : Instr) (s : State) : Host.Outcome State Fault Refusal :=
  match i with
  | .ctrl c => Sys2Proof.Machine.execCtrl c s
  | .endClean => Sys2Proof.Machine.execEndClean s
  | .lit v => Sys2Proof.Machine.execLit v s
  | .ref bytes => Sys2Proof.Machine.execRef bytes s
  | .refLsbLenlow l o => Sys2Proof.Machine.execRefLsbLenlow l o s
  | .refMsbLenlow l o => Sys2Proof.Machine.execRefMsbLenlow l o s
  | .refLsbLenhigh l o => Sys2Proof.Machine.execRefLsbLenhigh l o s
  | .refMsbLenhigh l o => Sys2Proof.Machine.execRefMsbLenhigh l o s
  | .copy => Sys2Proof.Machine.execCopy s
  | .endTrunc => Sys2Proof.Machine.execEndTrunc s
  | .construct oc ca ra ta => Sys2Proof.Machine.execConstruct oc ca ra ta s
  | .decode d input => Sys2Proof.Machine.execDecode d input s
  | .openStream d source => Sys2Proof.Machine.execOpen d source s
  | .read k n => Sys2Proof.Machine.execRead k n s
  | .close k => Sys2Proof.Machine.execClose k s
  | .status k => Sys2Proof.Machine.execStatus k s

end Sys2Proof.Machine
end

