-- ==== Sys2Proof/Machine/Step.lean ====
section
/-!
DEFINITION. One step of the machine: an engine step of the READ under way, or else the host's next operation (R2, R79, R81).
-/

namespace Sys2Proof.Machine

/-- One step: the mendable `stepWith` over `exec`. -/
def step (s : State) : Host.Outcome State Fault Refusal := stepWith exec s

/-- The machine with an instruction placed where `step` fetches its next one (log 19). -/
def State.withFetchWord (s : State) (nbits w : Nat) : State := placeWord s nbits w

end Sys2Proof.Machine
end

