-- ==== Sys2Proof/Machine/Reference.lean ====
section
/-!
DEFINITION. The spec's summaries of the step machine, as functions of their own: the copy loop (R76) and the token-level decode
function (R83).  No step calls them; statements compare the machine with them.
-/

namespace Sys2Proof.Machine

/-- The loop of R76: `n` bytes from index `start` on, each write visible to the next read. -/
def copyLoop : Nat → List Byte → Nat → List Byte
  | 0, h, _ => h
  | n + 1, h, start =>
    match h[start]? with
    | some b => copyLoop n (h ++ [b]) (start + 1)
    | none => h

/-- A run of R83 that has ended: the output, the status, and the input bytes not consumed. -/
structure DecodeEnd where
  out : List Byte
  status : Cause
  rest : List Byte
  deriving DecidableEq, Repr

/-- The last `k` of a group's 8 tokens (R83's inner loop; the next sub-round is `8 - k`). -/
def groupTokens (g : Generics) (c : Cfg) (ctl : Byte) : Nat → List Byte → List Byte → Except DecodeEnd (List Byte × List Byte)
  | 0, h, rest => .ok (h, rest)
  | k + 1, h, rest =>
    if applyIsLit c.isLit ctl (7 - k) then
      match rest with
      | [] => .error ⟨h, .unexpectedEof, []⟩
      | b :: more => groupTokens g c ctl k (h ++ [b]) more
    else if rest.length < g.refBytes then .error ⟨h, .unexpectedEof, []⟩
    else
      let f := applyDecRef g c (rest.take g.refBytes)
      let more := rest.drop g.refBytes
      if f.1 < 0 then .error ⟨h, .chunkLength, more⟩
      else if f.2 < 0 ∨ (h.length : Int) < f.2 + 1 then .error ⟨h, .offset, more⟩
      else
        groupTokens g c ctl k
          (copyLoop (f.1 + (c.threshold : Int)).toNat h ((h.length : Int) - 1 - f.2).toNat) more

/-- R83's outer loop, for at most `fuel` groups. -/
def decodeGroups (g : Generics) (c : Cfg) : Nat → List Byte → List Byte → DecodeEnd
  | 0, h, rest => ⟨h, .none, rest⟩
  | _ + 1, h, [] => ⟨h, .none, []⟩
  | fuel + 1, h, ctl :: rest =>
    match groupTokens g c ctl 8 h rest with
    | .error done => done
    | .ok (h1, rest1) => decodeGroups g c fuel h1 rest1

/-- `Decode(cfg, input)` of R83: the output, the status and the final `consumed`.  Each group takes at least its control
byte, so one more group than there are bytes suffices. -/
def decodeFunction (g : Generics) (c : Cfg) (input : List Byte) : List Byte × Cause × Nat :=
  let d := decodeGroups g c (input.length + 1) [] input
  (d.out, d.status, input.length - d.rest.length)

end Sys2Proof.Machine
end

