-- ==== Sys2Proof/Safety.lean ====
section
/-!
DEFINITION. What holds between steps (R30, R39, R85), what counts as a safe run, and the vocabulary of the statements: repeated
steps, the engine a token runs on, and what a token leaves alone.
-/

namespace Sys2Proof.Machine

/-! ## The invariant of an instance -/

/-- `delivered ++ ready ++ lastPending = H` is stated of the machine below; these are the engine's own invariants (R30, R39). -/
structure Inst.Inv (g : Generics) (e : Inst) : Prop where
  /-- R30. -/
  atCtrl : e.phase = .ctrl → e.copyRem = 0 ∧ (e.sub = 0 ∨ e.sub = 8)
  /-- R30. -/
  inGroup : (e.phase = .lit ∨ e.phase = .ref) → e.sub ≤ 7 ∧ e.copyRem = 0
  /-- R30; in STREAM mode the distance is also at most `WINDOW` (R36, R74). -/
  inCopy : e.phase = .copy → 1 ≤ e.copyRem ∧ e.sub ≤ 7 ∧
    ∃ d, e.copyDist = .holds d ∧ 1 ≤ d ∧ d ≤ e.outCount ∧ (e.mode = .stream → d ≤ g.window)
  /-- R17: `sub` is 0..8. -/
  subBound : e.sub ≤ 8
  /-- R19, R30. -/
  partialRef : e.phase = .ref → e.refBuf.length < g.refBytes
  /-- R30. -/
  noPartialRef : e.phase ≠ .ref → e.refBuf = []
  /-- R23, R30. -/
  causeIff : e.cause = .none ↔ e.phase ≠ .failed
  /-- R93: only the decode-time causes are raised. -/
  causeKind : e.cause = .none ∨ e.cause = .unexpectedEof ∨ e.cause = .chunkLength ∨ e.cause = .offset
  /-- R18: `ctrl` is written before it is read. -/
  ctrlWritten : (e.phase = .lit ∨ e.phase = .ref ∨ e.phase = .copy) → e.ctrl ≠ .unwritten
  /-- R21, R24. -/
  count : e.outCount = e.hist.length
  /-- R59: a constructed decoder's threshold. -/
  threshold : g.thresholdMin ≤ e.cfg.threshold
  /-- The ring is in canonical form. -/
  ringWf : e.ring.wf = true
  /-- R35: the ring has `BUF_CAP` slots. -/
  ringRange : ∀ c ∈ e.ring, c.1 < g.bufCap
  /-- R39. -/
  window : e.mode = .stream → ∀ n, n < e.outCount → e.outCount - g.bufCap ≤ n →
    memLookup e.ring (n % g.bufCap) = e.hist[n]?
  /-- R25, R30. -/
  pendingBound : e.pending < g.bufCap ∧ e.pending ≤ e.outCount
  /-- R25: in BUFFER mode ring, pending and ready are absent, and R28: CLOSED is 0. -/
  bufferMode : e.mode = .buffer → e.ring = [] ∧ e.pending = 0 ∧ e.ready = [] ∧ e.closed = false
  /-- R101, R105: no counter is past the bound. -/
  counters : g.countOk e.consumed = true ∧ g.countOk e.outCount = true

/-! ## The invariant of the machine -/

/-- The bytes READ has returned from instance `i` (R30). -/
def deliveredIn (i : Nat) : List HostResult → List Byte
  | [] => []
  | .read j bs _ :: rest => if j = i then bs ++ deliveredIn i rest else deliveredIn i rest
  | _ :: rest => deliveredIn i rest

/-- What holds of the machine between steps. -/
structure State.Inv (s : State) : Prop where
  /-- R6: no decoder of an unsupported shape exists. -/
  supported : s.decoders ≠ [] → s.gen.supported = true
  /-- R59. -/
  thresholds : ∀ c ∈ s.decoders, s.gen.thresholdMin ≤ c.threshold
  /-- R102: an instance's configuration is that of a decoder. -/
  configs : ∀ e ∈ s.insts, e.cfg ∈ s.decoders
  /-- R30, R39. -/
  engines : ∀ e ∈ s.insts, e.Inv s.gen
  /-- R85: outside a READ under way an engine is at a group boundary or terminal. -/
  between : ∀ i e, s.insts[i]? = some e → (∀ n, s.op ≠ some ⟨i, n⟩) → e.phase.boundary = true
  /-- R86, R104: a READ under way is on an open adapter, wants bytes, and cannot return yet. -/
  running : ∀ r, s.op = some r → 1 ≤ r.n ∧
    ∃ e, s.insts[r.inst]? = some e ∧ e.mode = .stream ∧ e.closed = false ∧ readStop e = false
  /-- R30, until CLOSE discards bytes (R87, log 22): `delivered ++ ready ++ lastPending = H`. -/
  served : ∀ i e, s.insts[i]? = some e → e.mode = .stream → e.closed = false →
    deliveredIn i s.results ++ e.ready ++ lastBytes e.pending e.hist = e.hist
  /-- Nothing was read from an instance that does not exist (R100). -/
  unread : ∀ i, s.insts.length ≤ i → deliveredIn i s.results = []

/-! ## Runs -/

/-- What counts as a safe step: no model fault ends it (R105: none is reachable). -/
def SafeStep (s : State) : Prop := ∀ r, step s ≠ .fault r

/-- `k` times the same instruction. -/
def execTimes (i : Instr) : Nat → State → Res State
  | 0, s => .next s
  | k + 1, s => andThen (exec i s) (execTimes i k)

/-- `k` engine steps (R81). -/
def engineRun (g : Generics) : Nat → Inst → Res Inst
  | 0, e => .next e
  | k + 1, e => andThen (engineStep g e) (engineRun g k)

/-! ## The engine a token runs on -/

/-- A READ is under way on instance `k`, whose engine is `e`. -/
def RunsOn (s : State) (k : Nat) (e : Inst) : Prop := (∃ n, s.op = some ⟨k, n⟩) ∧ s.insts[k]? = some e

/-- The two states differ at most in instance `k`. -/
def SameOutside (s t : State) (k : Nat) : Prop :=
  t.gen = s.gen ∧ t.decoders = s.decoders ∧ t.op = s.op ∧ t.calls = s.calls ∧ t.results = s.results ∧
    t.insts.length = s.insts.length ∧ ∀ j, j ≠ k → t.insts[j]? = s.insts[j]?

/-- What no token writes: the configuration, the mode and the `closed` flag (R14, R26). -/
def SameAdapter (e e1 : Inst) : Prop := e1.cfg = e.cfg ∧ e1.mode = e.mode ∧ e1.closed = e.closed

/-- R38 in one record: the pending bytes move to the back of `ready`. -/
def flushSpec (e : Inst) : Inst :=
  match e.mode with
  | .buffer => e
  | .stream => { e with ready := e.ready ++ lastBytes e.pending e.hist, pending := 0 }

/-- R93 in one record: the flush in STREAM mode, the cause, and the Failed state. -/
def raiseSpec (c : Cause) (e : Inst) : Inst := { flushSpec e with cause := c, phase := .failed }

/-- R37 in one record: the history grows by `v`; in STREAM mode the slot `outCount mod BUF_CAP` holds it, and the byte is
pending unless the buffer is now full, which flushes its `BUF_CAP` bytes. -/
def emitSpec (g : Generics) (v : Byte) (e : Inst) : Inst :=
  match e.mode with
  | .buffer => { e with hist := e.hist ++ [v], outCount := e.outCount + 1 }
  | .stream =>
    if e.pending + 1 = g.bufCap then
      { e with
        hist := e.hist ++ [v], outCount := e.outCount + 1, ring := memInsert e.ring (e.outCount % g.bufCap) v
        pending := 0, ready := e.ready ++ lastBytes g.bufCap (e.hist ++ [v]) }
    else
      { e with
        hist := e.hist ++ [v], outCount := e.outCount + 1, ring := memInsert e.ring (e.outCount % g.bufCap) v
        pending := e.pending + 1 }

/-- R66 after a completed token: the phase for sub-round `sub + 1` under control byte `c`. -/
def phaseAfter (e : Inst) (c : Byte) : Phase :=
  if e.sub + 1 = 8 then .ctrl else if applyIsLit e.cfg.isLit c (e.sub + 1) then .lit else .ref

/-- The reference token's pulls (R71): the bytes of a `k`-byte code that `refBuf` does not hold yet; `refBuf` is empty after. -/
def pulledRef (k : Nat) (e : Inst) : Inst :=
  { e with
    consumed := e.consumed + (k - e.refBuf.length), src := e.src.drop (k - e.refBuf.length), refBuf := [] }

/-- R74's conditions on a pair `(length, offset)` under which a copy starts. -/
def ValidReference (g : Generics) (e : Inst) (length offset : Int) : Prop :=
  0 ≤ length ∧ 0 ≤ offset ∧ 0 ≤ (e.outCount : Int) - 1 - offset ∧ (e.mode = .stream → offset + 1 ≤ (g.window : Int))

/-- The engine at the start of that copy (R74). -/
def copyStarted (e : Inst) (length offset : Int) : Inst :=
  { e with copyDist := .holds (offset + 1).toNat, copyRem := (length + (e.cfg.threshold : Int)).toNat, phase := .copy }

/-- The tokens and end events (R57), as against the host operations. -/
def isToken : Instr → Bool
  | .ctrl _ => true
  | .endClean => true
  | .lit _ => true
  | .ref _ => true
  | .refLsbLenlow _ _ => true
  | .refMsbLenlow _ _ => true
  | .refLsbLenhigh _ _ => true
  | .refMsbLenhigh _ _ => true
  | .copy => true
  | .endTrunc => true
  | .construct _ _ _ _ => false
  | .decode _ _ => false
  | .openStream _ _ => false
  | .read _ _ => false
  | .close _ => false
  | .status _ => false

/-- The phases that select a token (R57). -/
def selectedIn : Instr → Phase → Bool
  | .ctrl _, p => p == .ctrl
  | .endClean, p => p == .ctrl
  | .lit _, p => p == .lit
  | .ref _, p => p == .ref
  | .refLsbLenlow _ _, p => p == .ref
  | .refMsbLenlow _ _, p => p == .ref
  | .refLsbLenhigh _ _, p => p == .ref
  | .refMsbLenhigh _ _, p => p == .ref
  | .copy, p => p == .copy
  | .endTrunc, p => p == .lit || p == .ref
  | .construct _ _ _ _, _ => false
  | .decode _ _, _ => false
  | .openStream _ _, _ => false
  | .read _ _, _ => false
  | .close _, _ => false
  | .status _, _ => false

/-- `i` is a reference in one of the four layouts of R54, with these fields. -/
def IsLayout (i : Instr) (l : BitVec 4) (o : BitVec 12) : Prop :=
  i = .refLsbLenlow l o ∨ i = .refMsbLenlow l o ∨ i = .refLsbLenhigh l o ∨ i = .refMsbLenhigh l o

/-- The instances an instruction may change (R102): a token its engine, READ and CLOSE the instance they name. -/
def touches (s : State) : Instr → Nat → Prop
  | .construct _ _ _ _, _ => False
  | .decode _ _, _ => False
  | .openStream _ _, _ => False
  | .read i _, j => i = j
  | .close i, j => i = j
  | .status _, _ => False
  | .ctrl _, j => ∃ n, s.op = some ⟨j, n⟩
  | .endClean, j => ∃ n, s.op = some ⟨j, n⟩
  | .lit _, j => ∃ n, s.op = some ⟨j, n⟩
  | .ref _, j => ∃ n, s.op = some ⟨j, n⟩
  | .refLsbLenlow _ _, j => ∃ n, s.op = some ⟨j, n⟩
  | .refMsbLenlow _ _, j => ∃ n, s.op = some ⟨j, n⟩
  | .refLsbLenhigh _ _, j => ∃ n, s.op = some ⟨j, n⟩
  | .refMsbLenhigh _ _, j => ∃ n, s.op = some ⟨j, n⟩
  | .copy, j => ∃ n, s.op = some ⟨j, n⟩
  | .endTrunc, j => ∃ n, s.op = some ⟨j, n⟩

/-- The source is made of bytes the source answers one after the other, then EOS (R32). -/
def answersAll (src : List SrcEvent) : Prop := ∃ (bytes : List Byte) (more : List SrcEvent), src = bytes.map .byte ++ .eos :: more

/-- The decoding contexts in which a token's encoding is that token (R54, R57). -/
def Selects (c : DecodeCtx) : Instr → Prop
  | .ctrl _ => c.phase = .ctrl
  | .endClean => c.phase = .ctrl
  | .lit _ => c.phase = .lit
  | .ref _ => c.phase = .ref ∧ (c.gen.presetWidths = false ∨ c.suppliedRef = true)
  | .refLsbLenlow _ _ => c.phase = .ref ∧ c.suppliedRef = false ∧ c.order = .lsb
  | .refMsbLenlow _ _ => c.phase = .ref ∧ c.suppliedRef = false ∧ c.order = .msb
  | .refLsbLenhigh _ _ => c.phase = .ref ∧ c.suppliedRef = false ∧ c.order = .lsb
  | .refMsbLenhigh _ _ => c.phase = .ref ∧ c.suppliedRef = false ∧ c.order = .msb
  | .copy => c.phase = .copy
  | .endTrunc => c.phase = .lit ∨ (c.phase = .ref ∧ 1 ≤ c.gen.refBytes)
  | .construct _ _ _ _ => False
  | .decode _ _ => False
  | .openStream _ _ => False
  | .read _ _ => False
  | .close _ => False
  | .status _ => False

end Sys2Proof.Machine
end

