-- ==== Sys2Proof/Certificates/Slice0/Obligations.lean ====
section
/-!
DEFINITION. The statements for the provers, from the numbered rules of spec/.
-/

open Sys2Proof Sys2Proof.Machine

/-! ## Encoding -/

/-- R63: under the default control function sub-round `i` reads bit `7 - i` (bit 7 for sub-round 0), and zero is a literal;
the order has no part in it. -/
def Obligations.DefaultIsLiteralReadsBitFromTop : Prop :=
  ∀ (c : Byte) (i : Nat), i < 8 → (applyIsLit .default c i = true ↔ c.toNat / 2 ^ (7 - i) % 2 = 0)

/-- R51: the code is the weighted sum of its bytes, least significant first under LSB and most significant first under MSB;
so the first byte is the low byte under LSB and the high byte under MSB, and one byte is the code under both (the last is the
spec's own derivation from the two formulas). -/
def Obligations.CodeIsWeightedByteSum : Prop :=
  (∀ bytes : List Byte,
    assemble .lsb bytes = ∑ i ∈ Finset.range bytes.length, (bytes.getD i 0).toNat * 2 ^ (8 * i)) ∧
  (∀ bytes : List Byte,
    assemble .msb bytes = ∑ i ∈ Finset.range bytes.length, (bytes.getD i 0).toNat * 2 ^ (8 * (bytes.length - 1 - i))) ∧
  (∀ (b : Byte) (bytes : List Byte),
    assemble .lsb (b :: bytes) % 256 = b.toNat ∧ assemble .msb (b :: bytes) / 2 ^ (8 * bytes.length) = b.toNat) ∧
  (∀ (ord : Order) (b : Byte), assemble ord [b] = b.toNat)

/-- R52: the default reference function splits the code by `SPLIT` into two unsigned fields within their widths. -/
def Obligations.ReferenceFieldsSplitTheCode : Prop :=
  ∀ (g : Generics) (c : Cfg) (bytes : List Byte), g.supported = true → c.decRef = .default → bytes.length = g.refBytes →
    let code := assemble c.order bytes
    (g.split = .lengthLow →
      applyDecRef g c bytes = (((code % 2 ^ g.lengthBits : Nat) : Int), ((code / 2 ^ g.lengthBits : Nat) : Int))) ∧
    (g.split = .lengthHigh →
      applyDecRef g c bytes = (((code / 2 ^ g.offsetBits : Nat) : Int), ((code % 2 ^ g.offsetBits : Nat) : Int))) ∧
    0 ≤ (applyDecRef g c bytes).1 ∧ (applyDecRef g c bytes).1 ≤ (g.lengthMax : Int) ∧
    0 ≤ (applyDecRef g c bytes).2 ∧ (applyDecRef g c bytes).2 ≤ (g.offsetMax : Int)

/-- R54: the closed forms of the four layouts of the 12/4 widths. -/
def Obligations.LayoutsHaveTheClosedForms : Prop :=
  ∀ b0 b1 : Byte,
    decodeLayout .lsb .lengthLow b0 b1 =
      .refLsbLenlow (BitVec.ofNat 4 (b0.toNat % 16)) (BitVec.ofNat 12 (b1.toNat * 16 + b0.toNat / 16)) ∧
    decodeLayout .msb .lengthLow b0 b1 =
      .refMsbLenlow (BitVec.ofNat 4 (b1.toNat % 16)) (BitVec.ofNat 12 (b0.toNat * 16 + b1.toNat / 16)) ∧
    decodeLayout .lsb .lengthHigh b0 b1 =
      .refLsbLenhigh (BitVec.ofNat 4 (b1.toNat / 16)) (BitVec.ofNat 12 (b1.toNat % 16 * 256 + b0.toNat)) ∧
    decodeLayout .msb .lengthHigh b0 b1 =
      .refMsbLenhigh (BitVec.ofNat 4 (b0.toNat / 16)) (BitVec.ofNat 12 (b0.toNat % 16 * 256 + b1.toNat))

/-- R54 follows from R51 and R52: in the 12/4 widths a layout's instruction does what the generic REF of its two bytes does. -/
def Obligations.LayoutsActAsTheGenericReference : Prop :=
  ∀ (s : State) (k : Nat) (e : Inst) (b0 b1 : Byte), RunsOn s k e → s.gen.offsetBits = 12 → s.gen.lengthBits = 4 →
    e.cfg.decRef = .default →
    exec (decodeLayout e.cfg.order s.gen.split b0 b1) s = exec (.ref [b0, b1]) s

/-- Decode of encode: every well-formed token and end event, with every operand, in every context that selects it. -/
def Obligations.DecodeOfEncodeIsTheToken : Prop :=
  ∀ (c : DecodeCtx) (i : Instr) (evs rest : List SrcEvent), i.wf c.gen = true → Selects c i → encode i = some evs →
    Sys2Proof.decode c (evs ++ rest) = .ok (i, rest)

/-- R58 is the inverse of R51 and R52: the assembler's bytes of every field pair decode to that pair, in every supported
instantiation and both orders. -/
def Obligations.ReferenceAssemblerRoundTrip : Prop :=
  ∀ (g : Generics) (ord : Order) (length offset : Nat), g.supported = true → length ≤ g.lengthMax → offset ≤ g.offsetMax →
    (encodeRef g ord length offset).length = g.refBytes ∧
    defaultFields g ord (encodeRef g ord length offset) = (length, offset)

/-- R33, R55: what the decoder reads is well formed, is a prefix of the answers, and does not depend on what follows. -/
def Obligations.DecoderNeverLooksAhead : Prop :=
  ∀ (c : DecodeCtx) (evs rest : List SrcEvent) (i : Instr), Sys2Proof.decode c evs = .ok (i, rest) →
    i.wf c.gen = true ∧ isToken i = true ∧
    ∃ used, evs = used ++ rest ∧ ∀ more, Sys2Proof.decode c (used ++ more) = .ok (i, more)

/-- Words written out from R48, R49 and the example bytes `12 34` of R72 in the four layouts of R54. -/
def Obligations.SampleWordsDecode : Prop :=
  Sys2Proof.decode ⟨.ctrl, .preset, .lsb, false⟩ [.byte 0b10100101#8, .eos] = .ok (.ctrl 0xA5#8, [.eos]) ∧
  Sys2Proof.decode ⟨.lit, .preset, .lsb, false⟩ [.byte 0b01000001#8, .eos] = .ok (.lit 0x41#8, [.eos]) ∧
  Sys2Proof.decode ⟨.ref, .preset, .lsb, false⟩ [.byte 0x12#8, .byte 0x34#8] = .ok (.refLsbLenlow 2#4 0x341#12, []) ∧
  Sys2Proof.decode ⟨.ref, .preset, .msb, false⟩ [.byte 0x12#8, .byte 0x34#8] = .ok (.refMsbLenlow 4#4 0x123#12, []) ∧
  Sys2Proof.decode ⟨.ref, ⟨12, 4, .lengthHigh, none⟩, .lsb, false⟩ [.byte 0x12#8, .byte 0x34#8] =
    .ok (.refLsbLenhigh 3#4 0x412#12, []) ∧
  Sys2Proof.decode ⟨.ref, ⟨12, 4, .lengthHigh, none⟩, .msb, false⟩ [.byte 0x12#8, .byte 0x34#8] =
    .ok (.refMsbLenhigh 1#4 0x234#12, [])

/-- R14, D7: every total control function of a byte and a sub-round 0..7, and for every byte count every total reference
function of that many bytes and an order, is the value of some plain-data table. -/
def Obligations.EverySuppliedFunctionIsATable : Prop :=
  (∀ f : Byte → Fin 8 → Bool, ∃ t : CtrlTable, ∀ c i, applyIsLit (.supplied t) c i.val = f c i) ∧
  (∀ (g : Generics) (n : Nat) (f : List Byte → Order → Int × Int), ∃ t : RefTable, ∀ (c : Cfg) (bytes : List Byte),
    c.decRef = .supplied t → bytes.length = n → applyDecRef g c bytes = f bytes c.order)

/-! ## CONSTRUCT -/

/-- R6, for a `COUNT_BITS` that is not set: CONSTRUCT is refused by name, whatever its arguments, exactly when one of the four
conditions fails.  R6 refuses the instantiation; that the refusal falls at CONSTRUCT and before its own checks is the model's
choice (log 25). -/
def Obligations.ConstructRefusedExactlyWhenUnsupported : Prop :=
  ∀ (oc : Int) (ca : CtrlArg) (ra : RefArg) (ta : ThrArg) (s : State), s.gen.countBits = none →
    (exec (.construct oc ca ra ta) s = .refused .unsupportedInstantiation ↔
      ¬ (1 ≤ s.gen.offsetBits ∧ 1 ≤ s.gen.lengthBits ∧ (s.gen.offsetBits + s.gen.lengthBits) % 8 = 0 ∧
        (s.gen.offsetBits + s.gen.lengthBits) / 8 ≤ 4))

/-- R59: with legal arguments CONSTRUCT adds the decoder of its arguments, omitted ones taking the defaults, and returns it. -/
def Obligations.ConstructBuildsTheDecoder : Prop :=
  ∀ (oc : Int) (ord : Order) (ca : CtrlArg) (ra : RefArg) (ta : ThrArg) (s : State), s.gen.supported = true →
    (oc = 0 ∧ ord = .lsb ∨ oc = 1 ∧ ord = .msb) → ca ≠ .null → ra ≠ .null →
    (∀ x, ta = .value x → (s.gen.refBytes : Int) + 1 ≤ x) →
    let cfg : Cfg :=
      { order := ord
        isLit := match ca with | .fn f => .supplied f | .omitted => .default | .null => .default
        decRef := match ra with | .fn f => .supplied f | .omitted => .default | .null => .default
        threshold := match ta with | .value x => x.toNat | .omitted => s.gen.refBytes + 1 }
    exec (.construct oc ca ra ta) s =
      .next { s with decoders := s.decoders ++ [cfg], results := s.results ++ [.constructed cfg] }

/-- R60 (the order is the spec's own decision D8): when several checks fail the first of UNKNOWN_ORDER, NIL_PARAMETER,
THRESHOLD_TOO_SMALL is reported; nothing but the result is written. -/
def Obligations.ConstructReportsTheFirstError : Prop :=
  ∀ (oc : Int) (ca : CtrlArg) (ra : RefArg) (ta : ThrArg) (s : State), s.gen.supported = true →
    (oc ≠ 0 → oc ≠ 1 →
      exec (.construct oc ca ra ta) s = .next { s with results := s.results ++ [.constructError .unknownOrder] }) ∧
    ((oc = 0 ∨ oc = 1) → (ca = .null ∨ ra = .null) →
      exec (.construct oc ca ra ta) s = .next { s with results := s.results ++ [.constructError .nilParameter] }) ∧
    ((oc = 0 ∨ oc = 1) → ca ≠ .null → ra ≠ .null → (∃ x, ta = .value x ∧ x < (s.gen.refBytes : Int) + 1) →
      exec (.construct oc ca ra ta) s = .next { s with results := s.results ++ [.constructError .thresholdTooSmall] })

/-! ## Tokens -/

/-- R65, R66: CTRL counts its byte, latches it, starts at sub-round 0 and selects LIT or REF. -/
def Obligations.CtrlLatchesAndSelects : Prop :=
  ∀ (s : State) (k : Nat) (e : Inst) (c : Byte), RunsOn s k e → e.phase = .ctrl → s.gen.countOk (e.consumed + 1) = true →
    exec (.ctrl c) s = .next (s.setInst k
      { e with
        consumed := e.consumed + 1, src := e.src.drop 1, ctrl := .holds c, sub := 0
        phase := if applyIsLit e.cfg.isLit c 0 then .lit else .ref })

/-- R65, R67: EOS at a group boundary flushes in STREAM mode and ends in DONE; `consumed` does not count it. -/
def Obligations.EndCleanFinishes : Prop :=
  ∀ (s : State) (k : Nat) (e : Inst), RunsOn s k e → e.phase = .ctrl →
    exec .endClean s = .next (s.setInst k { flushSpec e with src := e.src.drop 1, phase := .done })

/-- R70: LIT counts its byte, emits it and completes the token. -/
def Obligations.LitEmitsItsByte : Prop :=
  ∀ (s : State) (k : Nat) (e : Inst) (c v : Byte), RunsOn s k e → e.phase = .lit → e.ctrl = .holds c →
    s.gen.countOk (e.consumed + 1) = true → s.gen.countOk (e.outCount + 1) = true →
    exec (.lit v) s = .next (s.setInst k
      { emitSpec s.gen v e with
        consumed := e.consumed + 1, src := e.src.drop 1, sub := e.sub + 1, phase := phaseAfter e c })

/-- R71, R74: a valid reference pulls the bytes its code still lacks, clears `refBuf` and starts its copy, for the generic REF
(REF) and for the four layouts (REF_LSB_LENLOW, REF_MSB_LENLOW, REF_LSB_LENHIGH, REF_MSB_LENHIGH).  For operands or an engine that
no step pairs with the instruction this is the model's choice (log 31). -/
def Obligations.ValidReferenceStartsItsCopy : Prop :=
  (∀ (s : State) (k : Nat) (e : Inst) (bytes : List Byte) (l o : Int), RunsOn s k e → e.phase = .ref →
    s.gen.countOk (e.consumed + (bytes.length - e.refBuf.length)) = true → applyDecRef s.gen e.cfg bytes = (l, o) →
    ValidReference s.gen e l o →
    exec (.ref bytes) s = .next (s.setInst k (copyStarted (pulledRef bytes.length e) l o))) ∧
  (∀ (s : State) (k : Nat) (e : Inst) (i : Instr) (l : BitVec 4) (o : BitVec 12), IsLayout i l o → RunsOn s k e →
    e.phase = .ref → s.gen.countOk (e.consumed + (2 - e.refBuf.length)) = true →
    ValidReference s.gen e (l.toNat : Int) (o.toNat : Int) →
    exec i s = .next (s.setInst k (copyStarted (pulledRef 2 e) (l.toNat : Int) (o.toNat : Int))))

/-- R74 (the order is the spec's own decision D13, the window bound D11): Resolve's checks in their order, on every decoded
pair: a negative length is CHUNK_LENGTH; then a negative offset, a start before the history, or in STREAM mode a distance
beyond `WINDOW`, is OFFSET; else the copy starts. For REF and, with their unsigned fields, the four layouts.  For operands or an engine that
no step pairs with the instruction this is the model's choice (log 31). -/
def Obligations.ResolveChecksInOrder : Prop :=
  (∀ (s : State) (k : Nat) (e : Inst) (bytes : List Byte) (l o : Int), RunsOn s k e → e.phase = .ref →
    s.gen.countOk (e.consumed + (bytes.length - e.refBuf.length)) = true → applyDecRef s.gen e.cfg bytes = (l, o) →
    exec (.ref bytes) s = .next (s.setInst k
      (if l < 0 then raiseSpec .chunkLength (pulledRef bytes.length e)
       else if o < 0 ∨ (e.outCount : Int) - 1 - o < 0 then raiseSpec .offset (pulledRef bytes.length e)
       else if e.mode = .stream ∧ (s.gen.window : Int) < o + 1 then raiseSpec .offset (pulledRef bytes.length e)
       else copyStarted (pulledRef bytes.length e) l o))) ∧
  (∀ (s : State) (k : Nat) (e : Inst) (i : Instr) (l : BitVec 4) (o : BitVec 12), IsLayout i l o → RunsOn s k e →
    e.phase = .ref → s.gen.countOk (e.consumed + (2 - e.refBuf.length)) = true →
    exec i s = .next (s.setInst k
      (if (e.outCount : Int) - 1 - (o.toNat : Int) < 0 then raiseSpec .offset (pulledRef 2 e)
       else if e.mode = .stream ∧ (s.gen.window : Int) < (o.toNat : Int) + 1 then raiseSpec .offset (pulledRef 2 e)
       else copyStarted (pulledRef 2 e) (l.toNat : Int) (o.toNat : Int))))

/-- R75: a COPY step emits the byte `copyDist` back in the history, in both modes, and counts down; the last one completes
the token. -/
def Obligations.CopyEmitsTheByteAtItsDistance : Prop :=
  ∀ (s : State) (k : Nat) (e : Inst) (c b : Byte) (d : Nat), RunsOn s k e → e.Inv s.gen → e.phase = .copy →
    e.ctrl = .holds c → e.copyDist = .holds d → e.hist[e.outCount - d]? = some b →
    s.gen.countOk (e.outCount + 1) = true →
    exec .copy s = .next (s.setInst k
      (if e.copyRem = 1 then
        { emitSpec s.gen b e with copyRem := 0, sub := e.sub + 1, phase := phaseAfter e c }
       else { emitSpec s.gen b e with copyRem := e.copyRem - 1 }))

/-- R70, R71, R93: EOS inside a group discards a partial code and raises UNEXPECTED_EOF; `consumed` keeps its count. -/
def Obligations.EndTruncRaisesUnexpectedEof : Prop :=
  ∀ (s : State) (k : Nat) (e : Inst), RunsOn s k e → (e.phase = .lit ∨ e.phase = .ref) →
    exec .endTrunc s = .next (s.setInst k
      { raiseSpec .unexpectedEof e with src := e.src.drop 1, refBuf := if e.phase = .ref then [] else e.refBuf })

/-- R71: a step in REF that does not complete the code collects its byte and stays. -/
def Obligations.ReferenceBytesAreCollectedOneByOne : Prop :=
  ∀ (s : State) (k : Nat) (e : Inst) (b : Byte) (rest : List SrcEvent), RunsOn s k e → e.phase = .ref →
    e.refBuf.length + 1 < s.gen.refBytes → e.src = .byte b :: rest → s.gen.countOk (e.consumed + 1) = true →
    step s = .next (s.setInst k { e with consumed := e.consumed + 1, src := rest, refBuf := e.refBuf ++ [b] })

/-- R76, R78 (the periodic form and the summary are the spec's own derivations): a valid reference token, run as REF and
then `copyLength` COPY steps, appends what the copy loop gives: byte `j` is byte `j mod dist` of the source range, overlap
or not; and the token is complete. -/
def Obligations.ReferenceTokenAppendsTheCopyLoop : Prop :=
  ∀ (s : State) (k : Nat) (e : Inst) (bytes : List Byte) (l o : Int), RunsOn s k e → e.Inv s.gen → e.phase = .ref →
    applyDecRef s.gen e.cfg bytes = (l, o) → ValidReference s.gen e l o →
    s.gen.countOk (e.consumed + (bytes.length - e.refBuf.length)) = true →
    s.gen.countOk (e.outCount + (l + (e.cfg.threshold : Int)).toNat) = true →
    let n := (l + (e.cfg.threshold : Int)).toNat
    let start := ((e.outCount : Int) - 1 - o).toNat
    let dist := (o + 1).toNat
    ∃ t u e1, exec (.ref bytes) s = .next t ∧ execTimes .copy n t = .next u ∧ u.insts[k]? = some e1 ∧
      e1.hist = copyLoop n e.hist start ∧ e1.hist.length = e.hist.length + n ∧ e1.sub = e.sub + 1 ∧ e1.phase ≠ .copy ∧
      e1.cause = .none ∧ ∀ j, j < n → e1.hist[e.outCount + j]? = e.hist[start + j % dist]?

/-- R69: under the default control function a zero control byte and eight bytes are eight literals. -/
def Obligations.ZeroControlByteIsEightLiterals : Prop :=
  ∀ (g : Generics) (e : Inst) (bytes : List Byte) (rest : List SrcEvent), e.phase = .ctrl →
    g.countOk (e.consumed + 9) = true → g.countOk (e.outCount + 8) = true → e.cfg.isLit = .default → bytes.length = 8 →
    e.src = .byte 0#8 :: (bytes.map .byte ++ rest) →
    ∃ e1, engineRun g 9 e = .next e1 ∧ e1.phase = .ctrl ∧ e1.hist = e.hist ++ bytes ∧ e1.outCount = e.outCount + 8 ∧
      e1.consumed = e.consumed + 9 ∧ e1.src = rest

/-- R57, R81, R99 (the refusals are the model's choice, log 15): a token runs only within an operation and in a phase that
selects it. -/
def Obligations.TokensRunOnlyWhenSelected : Prop :=
  ∀ (s : State) (i : Instr), isToken i = true →
    (s.op = none → exec i s = .refused .noOperation) ∧
    (∀ k e, RunsOn s k e → selectedIn i e.phase = false → exec i s = .refused .notSelected)

/-- R101, R105: a pull or an Emit that would take a counter past `2^COUNT_BITS - 1` is refused by name, in CTRL, LIT, REF, the
four layouts and COPY. -/
def Obligations.CounterBoundIsRefused : Prop :=
  ∀ (s : State) (k : Nat) (e : Inst), RunsOn s k e →
    (s.gen.countOk (e.consumed + 1) = false →
      (e.phase = .ctrl → ∀ c, exec (.ctrl c) s = .refused .countOverflow) ∧
      (e.phase = .lit → ∀ v, exec (.lit v) s = .refused .countOverflow)) ∧
    (∀ bytes, e.phase = .ref → s.gen.countOk (e.consumed + (bytes.length - e.refBuf.length)) = false →
      exec (.ref bytes) s = .refused .countOverflow) ∧
    (∀ i l o, IsLayout i l o → e.phase = .ref → s.gen.countOk (e.consumed + (2 - e.refBuf.length)) = false →
      exec i s = .refused .countOverflow) ∧
    (s.gen.countOk (e.outCount + 1) = false →
      (e.phase = .lit → ∀ v, exec (.lit v) s = .refused .countOverflow) ∧
      (e.phase = .copy → e.Inv s.gen → exec .copy s = .refused .countOverflow))

/-! ## Frames -/

/-- What CTRL, END_CLEAN, REF, the four layouts and END_TRUNC leave unchanged: everything outside their engine; its
configuration, mode, `closed` flag, history, output count and every ring index; and the registers named for each. -/
def Obligations.TokensWithoutOutputFrame : Prop :=
  ∀ (s t : State) (k : Nat) (e : Inst) (i : Instr), RunsOn s k e → exec i s = .next t →
    match i with
    | .ctrl _ =>
      SameOutside s t k ∧ ∃ e1, t.insts[k]? = some e1 ∧ SameAdapter e e1 ∧ e1.hist = e.hist ∧ e1.outCount = e.outCount ∧
        e1.ring = e.ring ∧ e1.refBuf = e.refBuf ∧ e1.copyRem = e.copyRem ∧ e1.copyDist = e.copyDist ∧ e1.cause = e.cause ∧
        e1.pending = e.pending ∧ e1.ready = e.ready
    | .endClean =>
      SameOutside s t k ∧ ∃ e1, t.insts[k]? = some e1 ∧ SameAdapter e e1 ∧ e1.hist = e.hist ∧ e1.outCount = e.outCount ∧
        e1.ring = e.ring ∧ e1.sub = e.sub ∧ e1.ctrl = e.ctrl ∧ e1.refBuf = e.refBuf ∧ e1.copyRem = e.copyRem ∧
        e1.copyDist = e.copyDist ∧ e1.consumed = e.consumed ∧ e1.cause = e.cause ∧
        (e.mode = .buffer → e1.pending = e.pending ∧ e1.ready = e.ready)
    | .endTrunc =>
      SameOutside s t k ∧ ∃ e1, t.insts[k]? = some e1 ∧ SameAdapter e e1 ∧ e1.hist = e.hist ∧ e1.outCount = e.outCount ∧
        e1.ring = e.ring ∧ e1.sub = e.sub ∧ e1.ctrl = e.ctrl ∧ e1.copyRem = e.copyRem ∧ e1.copyDist = e.copyDist ∧
        e1.consumed = e.consumed ∧ (e.phase ≠ .ref → e1.refBuf = e.refBuf) ∧
        (e.mode = .buffer → e1.pending = e.pending ∧ e1.ready = e.ready)
    | .ref _ | .refLsbLenlow _ _ | .refMsbLenlow _ _ | .refLsbLenhigh _ _ | .refMsbLenhigh _ _ =>
      SameOutside s t k ∧ ∃ e1, t.insts[k]? = some e1 ∧ SameAdapter e e1 ∧ e1.hist = e.hist ∧ e1.outCount = e.outCount ∧
        e1.ring = e.ring ∧ e1.sub = e.sub ∧ e1.ctrl = e.ctrl ∧
        (e1.phase ≠ .failed → e1.cause = e.cause ∧ e1.pending = e.pending ∧ e1.ready = e.ready) ∧
        (e1.phase = .failed → e1.copyRem = e.copyRem ∧ e1.copyDist = e.copyDist) ∧
        (e.mode = .buffer → e1.pending = e.pending ∧ e1.ready = e.ready)
    | _ => True

/-- What LIT and COPY leave unchanged: everything outside their engine; its configuration, mode and `closed` flag, `ctrl`,
`refBuf`, `copyDist` and `cause`; LIT also `copyRem`, COPY also `consumed` and the source; every byte of the history there
was; and every ring index but, in STREAM mode, the slot `outCount mod BUF_CAP` that Emit stores to. -/
def Obligations.TokensWithOutputFrame : Prop :=
  ∀ (s t : State) (k : Nat) (e : Inst) (i : Instr), RunsOn s k e → exec i s = .next t →
    ((∃ v, i = .lit v) ∨ i = .copy) →
    SameOutside s t k ∧ ∃ e1, t.insts[k]? = some e1 ∧ SameAdapter e e1 ∧ e1.ctrl = e.ctrl ∧ e1.refBuf = e.refBuf ∧
      e1.copyDist = e.copyDist ∧ e1.cause = e.cause ∧ (i ≠ .copy → e1.copyRem = e.copyRem) ∧
      (i = .copy → e1.consumed = e.consumed ∧ e1.src = e.src) ∧
      (∀ n, n < e.hist.length → e1.hist[n]? = e.hist[n]?) ∧
      (e.mode = .buffer → e1.ring = e.ring ∧ e1.pending = e.pending ∧ e1.ready = e.ready) ∧
      (∀ a, (e.mode = .stream → a ≠ e.outCount % s.gen.bufCap) → memLookup e1.ring a = memLookup e.ring a)

/-- What the host operations leave unchanged: the generics, the host's queue, the results returned before; the decoders there
were, CONSTRUCT adding at most one and the others none; the operation under way, but READ may leave one; every instance there
was, with its ring, but READ and CLOSE change the one they name; the number of instances, but DECODE and OPEN add one.  Of the
instance it names READ keeps configuration, mode, `closed` flag and every history byte, and CLOSE all but `closed` and
`ready`. -/
def Obligations.HostOperationFrame : Prop :=
  ∀ (s t : State) (i : Instr), isToken i = false → exec i s = .next t →
    t.gen = s.gen ∧ t.calls = s.calls ∧ s.results <+: t.results ∧
    s.decoders <+: t.decoders ∧ t.decoders.length ≤ s.decoders.length + 1 ∧
    ((∀ oc ca ra ta, i ≠ .construct oc ca ra ta) → t.decoders = s.decoders) ∧
    ((∀ k n, i ≠ .read k n) → t.op = s.op) ∧
    (∀ (j : Nat) (e : Inst), s.insts[j]? = some e → ¬ touches s i j → t.insts[j]? = some e) ∧
    ((∀ d x, i ≠ .decode d x) → (∀ d x, i ≠ .openStream d x) → t.insts.length = s.insts.length) ∧
    (∀ d x, i = .decode d x → ∃ e, t.insts = s.insts ++ [e]) ∧
    (∀ d x, i = .openStream d x → ∃ e, t.insts = s.insts ++ [e]) ∧
    (∀ k n, i = .read k n → ∀ e, s.insts[k]? = some e →
      ∃ e1, t.insts[k]? = some e1 ∧ SameAdapter e e1 ∧ e.hist <+: e1.hist) ∧
    (∀ k, i = .close k → ∀ e, s.insts[k]? = some e → t.insts[k]? = some { e with closed := true, ready := [] })

/-! ## Host operations -/

/-- R83 (the spec's own derivation from R82, R65, R70 and R78): DECODE completes with a new terminal BUFFER instance and
returns what the token-level decode function gives, when that function's two counts are within `COUNT_BITS` (always, when it
is unbounded). -/
def Obligations.DecodeIsTheTokenFunction : Prop :=
  ∀ (s : State) (d : Nat) (c : Cfg) (input : List Byte), s.gen.supported = true →
    s.decoders[d]? = some c → s.gen.thresholdMin ≤ c.threshold →
    s.gen.countOk (decodeFunction s.gen c input).2.2 = true → s.gen.countOk (decodeFunction s.gen c input).1.length = true →
    ∃ e, exec (.decode d input) s = .next
        { s with insts := s.insts ++ [e], results := s.results ++ [.decoded e.hist e.cause e.consumed] } ∧
      (e.hist, e.cause, e.consumed) = decodeFunction s.gen c input ∧ e.phase.terminal = true ∧ e.mode = .buffer ∧
      e.cfg = c ∧ e.outCount = e.hist.length

/-- R101, R105: DECODE is refused by name when the token-level decode function's counts would pass `2^COUNT_BITS - 1`. -/
def Obligations.DecodePastTheBoundIsRefused : Prop :=
  ∀ (s : State) (d : Nat) (c : Cfg) (input : List Byte), s.gen.supported = true →
    s.decoders[d]? = some c → s.gen.thresholdMin ≤ c.threshold →
    (s.gen.countOk (decodeFunction s.gen c input).2.2 && s.gen.countOk (decodeFunction s.gen c input).1.length) = false →
    exec (.decode d input) s = .refused .countOverflow

/-- R80 (W5): a second DECODE of the same input on the same decoder returns the same result, whatever the first one ended in. -/
def Obligations.DecodeAgainReturnsTheSame : Prop :=
  ∀ (s t u : State) (d : Nat) (input : List Byte), exec (.decode d input) s = .next t → exec (.decode d input) t = .next u →
    ∃ r e, t.results = s.results ++ [r] ∧ u.results = t.results ++ [r] ∧ t.insts = s.insts ++ [e] ∧ u.insts = t.insts ++ [e]

/-- R84, R29: OPEN adds a STREAM instance with every element at its engine-reset value and its source latched; it returns
nothing and pulls nothing. -/
def Obligations.OpenStartsAFreshAdapter : Prop :=
  ∀ (s : State) (d : Nat) (c : Cfg) (source : List SrcEvent), s.decoders[d]? = some c →
    exec (.openStream d source) s = .next
      { s with
        insts := s.insts ++
          [{ cfg := c, mode := .stream, phase := .ctrl, sub := 0, ctrl := .unwritten, refBuf := [], copyRem := 0
             copyDist := .unwritten, outCount := 0, consumed := 0, cause := .none, hist := [], ring := []
             pending := 0, ready := [], closed := false, src := source }] }

/-- R86: what READ answers without a further round, in the order of its tests: CLOSED, nothing for `N = 0`, ready bytes, END,
the stored cause. -/
def Obligations.ReadAnswersInOrder : Prop :=
  ∀ (s : State) (i n : Nat) (e : Inst), s.op = none → s.insts[i]? = some e → e.mode = .stream →
    (e.closed = true ∨ n = 0 ∨ e.ready ≠ [] ∨ e.phase = .done ∨ e.phase = .failed) →
    exec (.read i n) s = .next
      (if e.closed = true then { s with results := s.results ++ [.read i [] (.error .closed)] }
       else if n = 0 then { s with results := s.results ++ [.read i [] .data] }
       else if e.ready ≠ [] then
        { s with
          insts := s.insts.set i { e with ready := e.ready.drop n }
          results := s.results ++ [.read i (e.ready.take n) .data] }
       else if e.phase = .done then { s with results := s.results ++ [.read i [] .endOfStream] }
       else { s with results := s.results ++ [.read i [] (.error e.cause)] })

/-- R85, R86, R91: a READ on an open adapter whose source answers every pull returns within its own step: between 1 and `n`
bytes, or no byte with END or the stored cause, leaving the engine between rounds. -/
def Obligations.ReadReturnsWhenTheSourceAnswers : Prop :=
  ∀ (s : State) (i n : Nat) (e : Inst), s.Inv → s.op = none → s.gen.countBits = none → s.insts[i]? = some e →
    e.mode = .stream → e.closed = false → n ≠ 0 → answersAll e.src →
    ∃ t e1 bs kind, exec (.read i n) s = .next t ∧ t.op = none ∧ t.insts[i]? = some e1 ∧
      t.results = s.results ++ [.read i bs kind] ∧ e1.phase.boundary = true ∧ bs.length ≤ n ∧
      ((bs ≠ [] ∧ kind = .data) ∨ (bs = [] ∧ e1.ready = [] ∧ e1.phase = .done ∧ kind = .endOfStream) ∨
       (bs = [] ∧ e1.ready = [] ∧ e1.phase = .failed ∧ kind = .error e1.cause))

/-- R81, R86 (log 8): a READ under way, gone on with step by step, ends in the state that its rounds in one step give. -/
def Obligations.StepwiseReadAgreesWithItsRounds : Prop :=
  ∀ (s : State) (k : Nat) (e e1 : Inst), s.Inv → RunsOn s k e → drive s.gen readStop e.src e = .next e1 →
    ∃ m, Sys2Proof.core.run m s = .next (settle (s.setInst k e1))

/-- R74, R95: with the default reference function a STREAM engine run to its end decodes what a BUFFER engine does, and all of
it is ready for READ. -/
def Obligations.StreamDecodesAsBuffer : Prop :=
  ∀ (g : Generics) (c : Cfg) (input : List Byte) (b : Inst), g.supported = true → c.decRef = .default →
    g.thresholdMin ≤ c.threshold → decodeRun g c input = .next b →
    ∃ e, drive g (fun x => x.phase.terminal) (bufferSource input) (engineReset c .stream (bufferSource input)) = .next e ∧
      e.hist = b.hist ∧ e.phase = b.phase ∧ e.sub = b.sub ∧ e.cause = b.cause ∧ e.consumed = b.consumed ∧
      e.outCount = b.outCount ∧ e.ready = b.hist ∧ e.pending = 0

/-- R87: with no READ under way CLOSE sets `closed`, discards `ready` and returns OK in any engine phase; in the state directly
after it a second CLOSE has no further effect, and a READ returns ERROR(CLOSED) and touches no engine or source.
ClosedAdapterRejectsEveryLaterRead says the same of every later state. -/
def Obligations.CloseDiscardsAndRejectsReads : Prop :=
  ∀ (s : State) (i : Nat) (e : Inst), s.op = none → s.insts[i]? = some e → e.mode = .stream →
    ∃ t, exec (.close i) s = .next t ∧
      t = { s with
        insts := s.insts.set i { e with closed := true, ready := [] }, results := s.results ++ [.closedOk i] } ∧
      exec (.close i) t = .next { t with results := t.results ++ [.closedOk i] } ∧
      ∀ n, exec (.read i n) t = .next { t with results := t.results ++ [.read i [] (.error .closed)] }

/-- R87, R33: CLOSE, with no READ under way on its adapter (log 17), completes; and in every state the machine comes to after it,
whatever operations the host has queued, the adapter is as CLOSE left it, its engine and source untouched; another CLOSE
returns OK with no further effect; and every READ of it, once no other READ is under way, returns ERROR(CLOSED) at once. -/
def Obligations.ClosedAdapterRejectsEveryLaterRead : Prop :=
  ∀ (s : State) (i : Nat) (e : Inst), (∀ n, s.op ≠ some ⟨i, n⟩) → s.insts[i]? = some e → e.mode = .stream →
    ∃ t, exec (.close i) s = .next t ∧
      ∀ (m : Nat) (u : State), Sys2Proof.core.run m t = .next u →
        u.insts[i]? = some { e with closed := true, ready := [] } ∧
        exec (.close i) u = .next { u with results := u.results ++ [.closedOk i] } ∧
        (u.op = none → ∀ n, exec (.read i n) u = .next { u with results := u.results ++ [.read i [] (.error .closed)] })

/-- The host operations' refusals, the model's choice (log 16, 17): DECODE and OPEN without the decoder they name; READ, CLOSE and
STATUS without the instance they name; READ and CLOSE on a DECODE run; and READ, CLOSE and STATUS beside a READ under way. -/
def Obligations.HostOperationsStopByName : Prop :=
  ∀ (s : State) (j : Nat),
    (s.decoders[j]? = none → ∀ input source, exec (.decode j input) s = .refused .noDecoder ∧
      exec (.openStream j source) s = .refused .noDecoder) ∧
    (s.op = none → s.insts[j]? = none → ∀ n, exec (.read j n) s = .refused .noInstance ∧
      exec (.close j) s = .refused .noInstance ∧ exec (.status j) s = .refused .noInstance) ∧
    (∀ e, s.op = none → s.insts[j]? = some e → e.mode = .buffer → ∀ n, exec (.read j n) s = .refused .notStream ∧
      exec (.close j) s = .refused .notStream) ∧
    (∀ m, s.op = some ⟨j, m⟩ → ∀ k n, exec (.read k n) s = .refused .operationUnderWay ∧
      exec (.close j) s = .refused .operationUnderWay ∧ exec (.status j) s = .refused .operationUnderWay)

/-- R88, R28: STATUS returns the word of its fields, `consumed`, `outCount` and, in STREAM mode, the length of `ready`, and
changes no state but the results. -/
def Obligations.StatusReturnsItsFields : Prop :=
  ∀ (s : State) (i : Nat) (e : Inst), (∀ n, s.op ≠ some ⟨i, n⟩) → s.insts[i]? = some e → e.sub ≤ 8 → e.cause ≠ .closed →
    ∃ w : BitVec 16,
      exec (.status i) s = .next
        { s with
          results := s.results ++
            [.status w e.consumed e.outCount (if e.mode = .stream then some e.ready.length else none)] } ∧
      w.toNat = e.phase.code + 8 * e.sub + 128 * e.cause.code +
        (if e.mode = .stream ∧ e.closed = true then 1024 else 0) + (if e.mode = .stream then 2048 else 0)

/-- R15: the CONFIG view's four fields, and its reserved bits 0. -/
def Obligations.ConfigViewShowsTheConfiguration : Prop :=
  ∀ (g : Generics) (c : Cfg),
    (configWord g c).toNat =
      (if c.order = .msb then 1 else 0) + (if g.split = .lengthHigh then 2 else 0) +
      (if c.isLit = .default then 0 else 4) + (if c.decRef = .default then 0 else 8) ∧
    thresholdView c = c.threshold

/-! ## The step -/

/-- A step runs the decoded instruction: the host's next call with the queue shortened, or, within a READ under way, the token
that the collected bytes and the source's next element decode to, after which the READ returns if it can. -/
def Obligations.StepRunsTheDecodedInstruction : Prop :=
  (∀ (s : State) (c : HostCall) (rest : List HostCall), s.op = none → s.calls = c :: rest →
    step s = exec c.toInstr { s with calls := rest }) ∧
  (∀ (s : State) (k : Nat) (e : Inst) (i : Instr) (left : List SrcEvent), RunsOn s k e →
    Sys2Proof.decode (decodeCtx s.gen e) (fetchWindow e) = .ok (i, left) →
    step s = match exec i s with
      | .next t => .next (settle t)
      | .fault r => .fault r
      | .refused r => .refused r)

/-- R85, R86: a READ under way returns only between rounds: ready bytes, END or the stored cause; else it stays under way. -/
def Obligations.ReadUnderWayReturnsBetweenRounds : Prop :=
  ∀ (s : State) (k n : Nat) (e : Inst), s.op = some ⟨k, n⟩ → s.insts[k]? = some e →
    settle s =
      if e.phase.boundary = true ∧ e.ready ≠ [] then
        { s with
          insts := s.insts.set k { e with ready := e.ready.drop n }, op := none
          results := s.results ++ [.read k (e.ready.take n) .data] }
      else if e.phase = .done then { s with op := none, results := s.results ++ [.read k [] .endOfStream] }
      else if e.phase = .failed then { s with op := none, results := s.results ++ [.read k [] (.error e.cause)] }
      else s

/-- R32, R99, R104: with no operation the block does nothing; a step whose source has not answered changes nothing; a withheld
answer passes with every register kept; a failing source is refused by name (D16). -/
def Obligations.WaitingKeepsEveryRegister : Prop :=
  (∀ s : State, s.op = none → s.calls = [] → step s = .next s) ∧
  (∀ (s : State) (k : Nat) (e : Inst), RunsOn s k e →
    (e.phase = .ctrl ∨ e.phase = .lit ∨ (e.phase = .ref ∧ e.refBuf.length < s.gen.refBytes)) →
    (e.src = [] → step s = .next s) ∧
    (∀ rest, e.src = .later :: rest → step s = .next (s.setInst k { e with src := rest })) ∧
    (∀ rest, e.src = .failed :: rest → step s = .refused .sourceFailed))

/-! ## Rules of the whole machine -/

/-- The invariant holds after power-on, where there is no decoder and no instance (R29), in the default preset (R8). -/
def Obligations.InvariantHoldsAtReset : Prop :=
  State.reset.Inv ∧ State.reset.decoders = [] ∧ State.reset.insts = [] ∧ State.reset.op = none ∧
    State.reset.gen = ⟨12, 4, .lengthLow, none⟩

/-- R30, R39, R85: every step keeps the invariant. -/
def Obligations.StepKeepsTheInvariant : Prop :=
  ∀ s t : State, s.Inv → step s = .next t → t.Inv

/-- R35, R36, R105: no step from a state that meets the invariant ends in a model fault. -/
def Obligations.NoModelFaultIsReached : Prop := ∀ s : State, s.Inv → SafeStep s

/-- R36, R39 (the spec's own derivation, "In both modes it returns `H[outCount - d]`"): under the invariant and R36's
preconditions. -/
def Obligations.WinReadReadsTheHistory : Prop :=
  ∀ (g : Generics) (e : Inst) (d : Nat), e.Inv g → 1 ≤ d → d ≤ e.outCount → (e.mode = .stream → d ≤ g.window) →
    ∃ b, e.hist[e.outCount - d]? = some b ∧ winRead g d e = .next b

/-- R96: once an engine is terminal no step changes its phase, cause, history, counters, source, storage or working registers;
only what READ drains and CLOSE discards changes. -/
def Obligations.TerminalIsSticky : Prop :=
  ∀ (s t : State) (k : Nat) (e : Inst), step s = .next t → s.insts[k]? = some e → e.phase.terminal = true →
    ∃ e1, t.insts[k]? = some e1 ∧ e1 = { e with ready := e1.ready, closed := e1.closed } ∧ e1.ready <:+ e.ready ∧
      (e.closed = true → e1.closed = true)

/-- R14, R61: no step changes the generics, a constructed configuration or the configuration and mode an instance runs with;
and R26: nothing clears `closed`. -/
def Obligations.ConfigurationsAreImmutable : Prop :=
  ∀ s t : State, step s = .next t →
    t.gen = s.gen ∧ s.decoders <+: t.decoders ∧
    ∀ (k : Nat) (e : Inst), s.insts[k]? = some e → ∃ e1, t.insts[k]? = some e1 ∧ e1.cfg = e.cfg ∧ e1.mode = e.mode ∧
      (e.closed = true → e1.closed = true)

/-- R34, R44, R101: no step takes back a byte of a history, and neither counter ever decreases. -/
def Obligations.HistoryAndCountersOnlyGrow : Prop :=
  ∀ (s t : State) (k : Nat) (e : Inst), step s = .next t → s.insts[k]? = some e →
    ∃ e1, t.insts[k]? = some e1 ∧ e.hist <+: e1.hist ∧ e.outCount ≤ e1.outCount ∧ e.consumed ≤ e1.consumed ∧
      e1.hist.length + e.outCount = e.hist.length + e1.outCount

/-- R102: an instruction leaves every instance alone but the one it runs on or names. -/
def Obligations.InstancesAreIndependent : Prop :=
  ∀ (s t : State) (i : Instr) (j : Nat) (e : Inst), exec i s = .next t → s.insts[j]? = some e → ¬ touches s i j →
    t.insts[j]? = some e

/-- R93, R94, R95: an instruction that takes an engine into FAILED has emitted nothing, records a decode-time cause, and in
STREAM mode moves every pending byte to `ready`. -/
def Obligations.FailuresArePrecise : Prop :=
  ∀ (s t : State) (k : Nat) (e e1 : Inst) (i : Instr), RunsOn s k e → exec i s = .next t → t.insts[k]? = some e1 →
    e.phase ≠ .failed → e1.phase = .failed →
    e1.hist = e.hist ∧ e1.outCount = e.outCount ∧ e1.ring = e.ring ∧
    (e1.cause = .unexpectedEof ∨ e1.cause = .chunkLength ∨ e1.cause = .offset) ∧
    (e.mode = .buffer → e1.pending = e.pending ∧ e1.ready = e.ready) ∧
    (e.mode = .stream → e1.pending = 0 ∧ e1.ready = e.ready ++ lastBytes e.pending e.hist)

/-- R91 with the step that pulls EOS counted (log 23): an engine with the default reference function, reset on a finite input,
is terminal after at most `|input| + 1 + maxCopy * (|input| / REF_BYTES)` engine steps, `maxCopy = LENGTH_MAX + threshold`. -/
def Obligations.DecodeEndsWithinItsBound : Prop :=
  ∀ (g : Generics) (c : Cfg) (input : List Byte), g.supported = true → g.countBits = none → c.decRef = .default →
    g.thresholdMin ≤ c.threshold →
    ∃ m e, m ≤ input.length + 1 + (g.lengthMax + c.threshold) * (input.length / g.refBytes) ∧
      engineRun g m (engineReset c .buffer (bufferSource input)) = .next e ∧ e.phase.terminal = true
end

