-- ==== Sys2Proof/Laws/Memory.lean ====
section
/-!
SUPPORT. The ring: a read after a write gives the value written, a write leaves every other index alone, and every memory
operation keeps the canonical form (R35).
-/

namespace Sys2Proof.Machine

/-- Every listed index is above `a`. -/
def Memory.above (a : Nat) (m : Memory) : Prop := ∀ c ∈ m, a < c.1

theorem Memory.wf_cons (c : Host.Cell) (m : Memory) :
    Memory.wf (c :: m) = true ↔ Memory.above c.1 m ∧ Memory.wf m = true := by
  induction m generalizing c with
  | nil => simp [Memory.wf, Memory.above]
  | cons d rest ih =>
    have hd := ih d
    simp only [Memory.wf, Bool.and_eq_true, decide_eq_true_eq, Memory.above, List.mem_cons, forall_eq_or_imp] at hd ⊢
    constructor
    · rintro ⟨h, hw⟩
      exact ⟨⟨h, fun x hx => Nat.lt_trans h ((hd.1 hw).1 x hx)⟩, hw⟩
    · rintro ⟨⟨h, _⟩, hw⟩
      exact ⟨h, hw⟩

theorem memLookup_above {m : Memory} {a : Nat} (h : Memory.above a m) : memLookup m a = none := by
  induction m with
  | nil => rfl
  | cons c rest ih =>
    have hc : a < c.1 := h c (by simp)
    have hr : Memory.above a rest := fun x hx => h x (by simp [hx])
    simp [memLookup, Nat.ne_of_gt hc, ih hr]

/-- An inserted index is the new one or was listed. -/
theorem mem_memInsert {m : Memory} {a : Nat} {v : Byte} {c : Host.Cell} (h : c ∈ memInsert m a v) :
    c = (a, v) ∨ c ∈ m := by
  induction m with
  | nil => simpa [memInsert] using h
  | cons d rest ih =>
    simp only [memInsert] at h
    split at h
    · rcases List.mem_cons.1 h with h | h
      · exact .inl h
      · exact .inr h
    · split at h
      · rcases List.mem_cons.1 h with h | h
        · exact .inl h
        · exact .inr (List.mem_cons_of_mem _ h)
      · rcases List.mem_cons.1 h with h | h
        · exact .inr (by simp [h])
        · exact (ih h).imp id (List.mem_cons_of_mem _)

theorem memInsert_above {m : Memory} {a b : Nat} {v : Byte} (hab : b < a) (h : Memory.above b m) :
    Memory.above b (memInsert m a v) := by
  intro c hc
  rcases mem_memInsert hc with rfl | hc
  · exact hab
  · exact h c hc

/-- A write keeps the canonical form. -/
theorem memInsert_wf {m : Memory} (a : Nat) (v : Byte) (h : m.wf = true) : (memInsert m a v).wf = true := by
  induction m with
  | nil => rfl
  | cons d rest ih =>
    obtain ⟨hd, hr⟩ := (Memory.wf_cons d rest).1 h
    simp only [memInsert]
    split
    · rename_i hlt
      refine (Memory.wf_cons _ _).2 ⟨?_, h⟩
      intro c hc
      rcases List.mem_cons.1 hc with rfl | hc
      · exact hlt
      · exact Nat.lt_trans hlt (hd c hc)
    · split
      · rename_i heq
        subst heq
        exact (Memory.wf_cons _ _).2 ⟨hd, hr⟩
      · rename_i h1 h2
        exact (Memory.wf_cons _ _).2 ⟨memInsert_above (by omega) hd, ih hr⟩

/-- A read after a write: the value at the index written, the old contents elsewhere. -/
theorem memLookup_memInsert {m : Memory} (a b : Nat) (v : Byte) (h : m.wf = true) :
    memLookup (memInsert m a v) b = if b = a then some v else memLookup m b := by
  induction m with
  | nil => simp [memInsert, memLookup, eq_comm]
  | cons d rest ih =>
    obtain ⟨hd, hr⟩ := (Memory.wf_cons d rest).1 h
    simp only [memInsert]
    split
    · simp [memLookup, eq_comm]
    · split
      · rename_i heq
        subst heq
        by_cases hb : b = d.1 <;> simp [memLookup, hb, eq_comm]
      · rename_i hlt hne
        by_cases hb : b = d.1
        · subst hb
          simp [memLookup, Ne.symm hne]
        · simp [memLookup, Ne.symm hb, ih hr]

/-- `MemWrite` keeps the canonical form. -/
theorem memWrite_wf {g : Generics} {m : Memory} (a : Fin g.bufCap) (v : Byte) (h : m.wf = true) :
    (memWrite m a v).wf = true := memInsert_wf a.val v h

/-- `MemRead` of a written index gives its byte, and of an unwritten one the model fault (R35). -/
theorem memRead_eq {g : Generics} (m : Memory) (a : Fin g.bufCap) :
    memRead m a = match memLookup m a.val with
      | some b => .next b
      | none => .fault .windowUnwritten := rfl

/-- A `MemWrite` stays within the ring. -/
theorem memWrite_range {g : Generics} {m : Memory} (a : Fin g.bufCap) (v : Byte)
    (h : ∀ c ∈ m, c.1 < g.bufCap) : ∀ c ∈ memWrite m a v, c.1 < g.bufCap := by
  intro c hc
  rcases mem_memInsert hc with rfl | hc
  · exact a.isLt
  · exact h c hc

/-- The engine reset's ring is canonical (R29). -/
theorem engineReset_ring_wf (c : Cfg) (m : Mode) (source : List SrcEvent) :
    (engineReset c m source).ring.wf = true := rfl

/-- The machine after power-on holds no instance, so every ring in it is canonical. -/
theorem reset_rings_wf : ∀ e ∈ State.reset.insts, e.ring.wf = true := by
  intro e he
  simp [State.reset] at he

end Sys2Proof.Machine
end

