-- ==== Sys2Proof/Laws/State.lean ====
section
/-!
SUPPORT. One lemma per field per named update of an instance and of the machine (Machine/Ops.lean), so that no proof unfolds a record update.
-/

namespace Sys2Proof.Machine

/-! ### `Inst.goto` -/

@[simp] theorem Inst.goto_cfg (e : Inst) (p : Phase) : (e.goto p).cfg = e.cfg := rfl
@[simp] theorem Inst.goto_mode (e : Inst) (p : Phase) : (e.goto p).mode = e.mode := rfl
@[simp] theorem Inst.goto_phase (e : Inst) (p : Phase) : (e.goto p).phase = p := rfl
@[simp] theorem Inst.goto_sub (e : Inst) (p : Phase) : (e.goto p).sub = e.sub := rfl
@[simp] theorem Inst.goto_ctrl (e : Inst) (p : Phase) : (e.goto p).ctrl = e.ctrl := rfl
@[simp] theorem Inst.goto_refBuf (e : Inst) (p : Phase) : (e.goto p).refBuf = e.refBuf := rfl
@[simp] theorem Inst.goto_copyRem (e : Inst) (p : Phase) : (e.goto p).copyRem = e.copyRem := rfl
@[simp] theorem Inst.goto_copyDist (e : Inst) (p : Phase) : (e.goto p).copyDist = e.copyDist := rfl
@[simp] theorem Inst.goto_outCount (e : Inst) (p : Phase) : (e.goto p).outCount = e.outCount := rfl
@[simp] theorem Inst.goto_consumed (e : Inst) (p : Phase) : (e.goto p).consumed = e.consumed := rfl
@[simp] theorem Inst.goto_cause (e : Inst) (p : Phase) : (e.goto p).cause = e.cause := rfl
@[simp] theorem Inst.goto_hist (e : Inst) (p : Phase) : (e.goto p).hist = e.hist := rfl
@[simp] theorem Inst.goto_ring (e : Inst) (p : Phase) : (e.goto p).ring = e.ring := rfl
@[simp] theorem Inst.goto_pending (e : Inst) (p : Phase) : (e.goto p).pending = e.pending := rfl
@[simp] theorem Inst.goto_ready (e : Inst) (p : Phase) : (e.goto p).ready = e.ready := rfl
@[simp] theorem Inst.goto_closed (e : Inst) (p : Phase) : (e.goto p).closed = e.closed := rfl
@[simp] theorem Inst.goto_src (e : Inst) (p : Phase) : (e.goto p).src = e.src := rfl

/-! ### `Inst.latchCtrl` -/

@[simp] theorem Inst.latchCtrl_cfg (e : Inst) (c : Byte) : (e.latchCtrl c).cfg = e.cfg := rfl
@[simp] theorem Inst.latchCtrl_mode (e : Inst) (c : Byte) : (e.latchCtrl c).mode = e.mode := rfl
@[simp] theorem Inst.latchCtrl_phase (e : Inst) (c : Byte) : (e.latchCtrl c).phase = e.phase := rfl
@[simp] theorem Inst.latchCtrl_sub (e : Inst) (c : Byte) : (e.latchCtrl c).sub = 0 := rfl
@[simp] theorem Inst.latchCtrl_ctrl (e : Inst) (c : Byte) : (e.latchCtrl c).ctrl = .holds c := rfl
@[simp] theorem Inst.latchCtrl_refBuf (e : Inst) (c : Byte) : (e.latchCtrl c).refBuf = e.refBuf := rfl
@[simp] theorem Inst.latchCtrl_copyRem (e : Inst) (c : Byte) : (e.latchCtrl c).copyRem = e.copyRem := rfl
@[simp] theorem Inst.latchCtrl_copyDist (e : Inst) (c : Byte) : (e.latchCtrl c).copyDist = e.copyDist := rfl
@[simp] theorem Inst.latchCtrl_outCount (e : Inst) (c : Byte) : (e.latchCtrl c).outCount = e.outCount := rfl
@[simp] theorem Inst.latchCtrl_consumed (e : Inst) (c : Byte) : (e.latchCtrl c).consumed = e.consumed := rfl
@[simp] theorem Inst.latchCtrl_cause (e : Inst) (c : Byte) : (e.latchCtrl c).cause = e.cause := rfl
@[simp] theorem Inst.latchCtrl_hist (e : Inst) (c : Byte) : (e.latchCtrl c).hist = e.hist := rfl
@[simp] theorem Inst.latchCtrl_ring (e : Inst) (c : Byte) : (e.latchCtrl c).ring = e.ring := rfl
@[simp] theorem Inst.latchCtrl_pending (e : Inst) (c : Byte) : (e.latchCtrl c).pending = e.pending := rfl
@[simp] theorem Inst.latchCtrl_ready (e : Inst) (c : Byte) : (e.latchCtrl c).ready = e.ready := rfl
@[simp] theorem Inst.latchCtrl_closed (e : Inst) (c : Byte) : (e.latchCtrl c).closed = e.closed := rfl
@[simp] theorem Inst.latchCtrl_src (e : Inst) (c : Byte) : (e.latchCtrl c).src = e.src := rfl

/-! ### `Inst.nextSub` -/

@[simp] theorem Inst.nextSub_cfg (e : Inst) : e.nextSub.cfg = e.cfg := rfl
@[simp] theorem Inst.nextSub_mode (e : Inst) : e.nextSub.mode = e.mode := rfl
@[simp] theorem Inst.nextSub_phase (e : Inst) : e.nextSub.phase = e.phase := rfl
@[simp] theorem Inst.nextSub_sub (e : Inst) : e.nextSub.sub = e.sub + 1 := rfl
@[simp] theorem Inst.nextSub_ctrl (e : Inst) : e.nextSub.ctrl = e.ctrl := rfl
@[simp] theorem Inst.nextSub_refBuf (e : Inst) : e.nextSub.refBuf = e.refBuf := rfl
@[simp] theorem Inst.nextSub_copyRem (e : Inst) : e.nextSub.copyRem = e.copyRem := rfl
@[simp] theorem Inst.nextSub_copyDist (e : Inst) : e.nextSub.copyDist = e.copyDist := rfl
@[simp] theorem Inst.nextSub_outCount (e : Inst) : e.nextSub.outCount = e.outCount := rfl
@[simp] theorem Inst.nextSub_consumed (e : Inst) : e.nextSub.consumed = e.consumed := rfl
@[simp] theorem Inst.nextSub_cause (e : Inst) : e.nextSub.cause = e.cause := rfl
@[simp] theorem Inst.nextSub_hist (e : Inst) : e.nextSub.hist = e.hist := rfl
@[simp] theorem Inst.nextSub_ring (e : Inst) : e.nextSub.ring = e.ring := rfl
@[simp] theorem Inst.nextSub_pending (e : Inst) : e.nextSub.pending = e.pending := rfl
@[simp] theorem Inst.nextSub_ready (e : Inst) : e.nextSub.ready = e.ready := rfl
@[simp] theorem Inst.nextSub_closed (e : Inst) : e.nextSub.closed = e.closed := rfl
@[simp] theorem Inst.nextSub_src (e : Inst) : e.nextSub.src = e.src := rfl

/-! ### `Inst.setRefBuf` -/

@[simp] theorem Inst.setRefBuf_cfg (e : Inst) (bs : List Byte) : (e.setRefBuf bs).cfg = e.cfg := rfl
@[simp] theorem Inst.setRefBuf_mode (e : Inst) (bs : List Byte) : (e.setRefBuf bs).mode = e.mode := rfl
@[simp] theorem Inst.setRefBuf_phase (e : Inst) (bs : List Byte) : (e.setRefBuf bs).phase = e.phase := rfl
@[simp] theorem Inst.setRefBuf_sub (e : Inst) (bs : List Byte) : (e.setRefBuf bs).sub = e.sub := rfl
@[simp] theorem Inst.setRefBuf_ctrl (e : Inst) (bs : List Byte) : (e.setRefBuf bs).ctrl = e.ctrl := rfl
@[simp] theorem Inst.setRefBuf_refBuf (e : Inst) (bs : List Byte) : (e.setRefBuf bs).refBuf = bs := rfl
@[simp] theorem Inst.setRefBuf_copyRem (e : Inst) (bs : List Byte) : (e.setRefBuf bs).copyRem = e.copyRem := rfl
@[simp] theorem Inst.setRefBuf_copyDist (e : Inst) (bs : List Byte) : (e.setRefBuf bs).copyDist = e.copyDist := rfl
@[simp] theorem Inst.setRefBuf_outCount (e : Inst) (bs : List Byte) : (e.setRefBuf bs).outCount = e.outCount := rfl
@[simp] theorem Inst.setRefBuf_consumed (e : Inst) (bs : List Byte) : (e.setRefBuf bs).consumed = e.consumed := rfl
@[simp] theorem Inst.setRefBuf_cause (e : Inst) (bs : List Byte) : (e.setRefBuf bs).cause = e.cause := rfl
@[simp] theorem Inst.setRefBuf_hist (e : Inst) (bs : List Byte) : (e.setRefBuf bs).hist = e.hist := rfl
@[simp] theorem Inst.setRefBuf_ring (e : Inst) (bs : List Byte) : (e.setRefBuf bs).ring = e.ring := rfl
@[simp] theorem Inst.setRefBuf_pending (e : Inst) (bs : List Byte) : (e.setRefBuf bs).pending = e.pending := rfl
@[simp] theorem Inst.setRefBuf_ready (e : Inst) (bs : List Byte) : (e.setRefBuf bs).ready = e.ready := rfl
@[simp] theorem Inst.setRefBuf_closed (e : Inst) (bs : List Byte) : (e.setRefBuf bs).closed = e.closed := rfl
@[simp] theorem Inst.setRefBuf_src (e : Inst) (bs : List Byte) : (e.setRefBuf bs).src = e.src := rfl

/-! ### `Inst.startCopy` -/

@[simp] theorem Inst.startCopy_cfg (e : Inst) (d n : Nat) : (e.startCopy d n).cfg = e.cfg := rfl
@[simp] theorem Inst.startCopy_mode (e : Inst) (d n : Nat) : (e.startCopy d n).mode = e.mode := rfl
@[simp] theorem Inst.startCopy_phase (e : Inst) (d n : Nat) : (e.startCopy d n).phase = .copy := rfl
@[simp] theorem Inst.startCopy_sub (e : Inst) (d n : Nat) : (e.startCopy d n).sub = e.sub := rfl
@[simp] theorem Inst.startCopy_ctrl (e : Inst) (d n : Nat) : (e.startCopy d n).ctrl = e.ctrl := rfl
@[simp] theorem Inst.startCopy_refBuf (e : Inst) (d n : Nat) : (e.startCopy d n).refBuf = e.refBuf := rfl
@[simp] theorem Inst.startCopy_copyRem (e : Inst) (d n : Nat) : (e.startCopy d n).copyRem = n := rfl
@[simp] theorem Inst.startCopy_copyDist (e : Inst) (d n : Nat) : (e.startCopy d n).copyDist = .holds d := rfl
@[simp] theorem Inst.startCopy_outCount (e : Inst) (d n : Nat) : (e.startCopy d n).outCount = e.outCount := rfl
@[simp] theorem Inst.startCopy_consumed (e : Inst) (d n : Nat) : (e.startCopy d n).consumed = e.consumed := rfl
@[simp] theorem Inst.startCopy_cause (e : Inst) (d n : Nat) : (e.startCopy d n).cause = e.cause := rfl
@[simp] theorem Inst.startCopy_hist (e : Inst) (d n : Nat) : (e.startCopy d n).hist = e.hist := rfl
@[simp] theorem Inst.startCopy_ring (e : Inst) (d n : Nat) : (e.startCopy d n).ring = e.ring := rfl
@[simp] theorem Inst.startCopy_pending (e : Inst) (d n : Nat) : (e.startCopy d n).pending = e.pending := rfl
@[simp] theorem Inst.startCopy_ready (e : Inst) (d n : Nat) : (e.startCopy d n).ready = e.ready := rfl
@[simp] theorem Inst.startCopy_closed (e : Inst) (d n : Nat) : (e.startCopy d n).closed = e.closed := rfl
@[simp] theorem Inst.startCopy_src (e : Inst) (d n : Nat) : (e.startCopy d n).src = e.src := rfl

/-! ### `Inst.setCopyRem` -/

@[simp] theorem Inst.setCopyRem_cfg (e : Inst) (n : Nat) : (e.setCopyRem n).cfg = e.cfg := rfl
@[simp] theorem Inst.setCopyRem_mode (e : Inst) (n : Nat) : (e.setCopyRem n).mode = e.mode := rfl
@[simp] theorem Inst.setCopyRem_phase (e : Inst) (n : Nat) : (e.setCopyRem n).phase = e.phase := rfl
@[simp] theorem Inst.setCopyRem_sub (e : Inst) (n : Nat) : (e.setCopyRem n).sub = e.sub := rfl
@[simp] theorem Inst.setCopyRem_ctrl (e : Inst) (n : Nat) : (e.setCopyRem n).ctrl = e.ctrl := rfl
@[simp] theorem Inst.setCopyRem_refBuf (e : Inst) (n : Nat) : (e.setCopyRem n).refBuf = e.refBuf := rfl
@[simp] theorem Inst.setCopyRem_copyRem (e : Inst) (n : Nat) : (e.setCopyRem n).copyRem = n := rfl
@[simp] theorem Inst.setCopyRem_copyDist (e : Inst) (n : Nat) : (e.setCopyRem n).copyDist = e.copyDist := rfl
@[simp] theorem Inst.setCopyRem_outCount (e : Inst) (n : Nat) : (e.setCopyRem n).outCount = e.outCount := rfl
@[simp] theorem Inst.setCopyRem_consumed (e : Inst) (n : Nat) : (e.setCopyRem n).consumed = e.consumed := rfl
@[simp] theorem Inst.setCopyRem_cause (e : Inst) (n : Nat) : (e.setCopyRem n).cause = e.cause := rfl
@[simp] theorem Inst.setCopyRem_hist (e : Inst) (n : Nat) : (e.setCopyRem n).hist = e.hist := rfl
@[simp] theorem Inst.setCopyRem_ring (e : Inst) (n : Nat) : (e.setCopyRem n).ring = e.ring := rfl
@[simp] theorem Inst.setCopyRem_pending (e : Inst) (n : Nat) : (e.setCopyRem n).pending = e.pending := rfl
@[simp] theorem Inst.setCopyRem_ready (e : Inst) (n : Nat) : (e.setCopyRem n).ready = e.ready := rfl
@[simp] theorem Inst.setCopyRem_closed (e : Inst) (n : Nat) : (e.setCopyRem n).closed = e.closed := rfl
@[simp] theorem Inst.setCopyRem_src (e : Inst) (n : Nat) : (e.setCopyRem n).src = e.src := rfl

/-! ### `Inst.pulled` -/

@[simp] theorem Inst.pulled_cfg (e : Inst) (k : Nat) : (e.pulled k).cfg = e.cfg := rfl
@[simp] theorem Inst.pulled_mode (e : Inst) (k : Nat) : (e.pulled k).mode = e.mode := rfl
@[simp] theorem Inst.pulled_phase (e : Inst) (k : Nat) : (e.pulled k).phase = e.phase := rfl
@[simp] theorem Inst.pulled_sub (e : Inst) (k : Nat) : (e.pulled k).sub = e.sub := rfl
@[simp] theorem Inst.pulled_ctrl (e : Inst) (k : Nat) : (e.pulled k).ctrl = e.ctrl := rfl
@[simp] theorem Inst.pulled_refBuf (e : Inst) (k : Nat) : (e.pulled k).refBuf = e.refBuf := rfl
@[simp] theorem Inst.pulled_copyRem (e : Inst) (k : Nat) : (e.pulled k).copyRem = e.copyRem := rfl
@[simp] theorem Inst.pulled_copyDist (e : Inst) (k : Nat) : (e.pulled k).copyDist = e.copyDist := rfl
@[simp] theorem Inst.pulled_outCount (e : Inst) (k : Nat) : (e.pulled k).outCount = e.outCount := rfl
@[simp] theorem Inst.pulled_consumed (e : Inst) (k : Nat) : (e.pulled k).consumed = e.consumed + k := rfl
@[simp] theorem Inst.pulled_cause (e : Inst) (k : Nat) : (e.pulled k).cause = e.cause := rfl
@[simp] theorem Inst.pulled_hist (e : Inst) (k : Nat) : (e.pulled k).hist = e.hist := rfl
@[simp] theorem Inst.pulled_ring (e : Inst) (k : Nat) : (e.pulled k).ring = e.ring := rfl
@[simp] theorem Inst.pulled_pending (e : Inst) (k : Nat) : (e.pulled k).pending = e.pending := rfl
@[simp] theorem Inst.pulled_ready (e : Inst) (k : Nat) : (e.pulled k).ready = e.ready := rfl
@[simp] theorem Inst.pulled_closed (e : Inst) (k : Nat) : (e.pulled k).closed = e.closed := rfl
@[simp] theorem Inst.pulled_src (e : Inst) (k : Nat) : (e.pulled k).src = e.src.drop k := rfl

/-! ### `Inst.pastEvent` -/

@[simp] theorem Inst.pastEvent_cfg (e : Inst) : e.pastEvent.cfg = e.cfg := rfl
@[simp] theorem Inst.pastEvent_mode (e : Inst) : e.pastEvent.mode = e.mode := rfl
@[simp] theorem Inst.pastEvent_phase (e : Inst) : e.pastEvent.phase = e.phase := rfl
@[simp] theorem Inst.pastEvent_sub (e : Inst) : e.pastEvent.sub = e.sub := rfl
@[simp] theorem Inst.pastEvent_ctrl (e : Inst) : e.pastEvent.ctrl = e.ctrl := rfl
@[simp] theorem Inst.pastEvent_refBuf (e : Inst) : e.pastEvent.refBuf = e.refBuf := rfl
@[simp] theorem Inst.pastEvent_copyRem (e : Inst) : e.pastEvent.copyRem = e.copyRem := rfl
@[simp] theorem Inst.pastEvent_copyDist (e : Inst) : e.pastEvent.copyDist = e.copyDist := rfl
@[simp] theorem Inst.pastEvent_outCount (e : Inst) : e.pastEvent.outCount = e.outCount := rfl
@[simp] theorem Inst.pastEvent_consumed (e : Inst) : e.pastEvent.consumed = e.consumed := rfl
@[simp] theorem Inst.pastEvent_cause (e : Inst) : e.pastEvent.cause = e.cause := rfl
@[simp] theorem Inst.pastEvent_hist (e : Inst) : e.pastEvent.hist = e.hist := rfl
@[simp] theorem Inst.pastEvent_ring (e : Inst) : e.pastEvent.ring = e.ring := rfl
@[simp] theorem Inst.pastEvent_pending (e : Inst) : e.pastEvent.pending = e.pending := rfl
@[simp] theorem Inst.pastEvent_ready (e : Inst) : e.pastEvent.ready = e.ready := rfl
@[simp] theorem Inst.pastEvent_closed (e : Inst) : e.pastEvent.closed = e.closed := rfl
@[simp] theorem Inst.pastEvent_src (e : Inst) : e.pastEvent.src = e.src.drop 1 := rfl

/-! ### `Inst.append` -/

@[simp] theorem Inst.append_cfg (e : Inst) (v : Byte) : (e.append v).cfg = e.cfg := rfl
@[simp] theorem Inst.append_mode (e : Inst) (v : Byte) : (e.append v).mode = e.mode := rfl
@[simp] theorem Inst.append_phase (e : Inst) (v : Byte) : (e.append v).phase = e.phase := rfl
@[simp] theorem Inst.append_sub (e : Inst) (v : Byte) : (e.append v).sub = e.sub := rfl
@[simp] theorem Inst.append_ctrl (e : Inst) (v : Byte) : (e.append v).ctrl = e.ctrl := rfl
@[simp] theorem Inst.append_refBuf (e : Inst) (v : Byte) : (e.append v).refBuf = e.refBuf := rfl
@[simp] theorem Inst.append_copyRem (e : Inst) (v : Byte) : (e.append v).copyRem = e.copyRem := rfl
@[simp] theorem Inst.append_copyDist (e : Inst) (v : Byte) : (e.append v).copyDist = e.copyDist := rfl
@[simp] theorem Inst.append_outCount (e : Inst) (v : Byte) : (e.append v).outCount = e.outCount + 1 := rfl
@[simp] theorem Inst.append_consumed (e : Inst) (v : Byte) : (e.append v).consumed = e.consumed := rfl
@[simp] theorem Inst.append_cause (e : Inst) (v : Byte) : (e.append v).cause = e.cause := rfl
@[simp] theorem Inst.append_hist (e : Inst) (v : Byte) : (e.append v).hist = e.hist ++ [v] := rfl
@[simp] theorem Inst.append_ring (e : Inst) (v : Byte) : (e.append v).ring = e.ring := rfl
@[simp] theorem Inst.append_pending (e : Inst) (v : Byte) : (e.append v).pending = e.pending := rfl
@[simp] theorem Inst.append_ready (e : Inst) (v : Byte) : (e.append v).ready = e.ready := rfl
@[simp] theorem Inst.append_closed (e : Inst) (v : Byte) : (e.append v).closed = e.closed := rfl
@[simp] theorem Inst.append_src (e : Inst) (v : Byte) : (e.append v).src = e.src := rfl

/-! ### `Inst.setRing` -/

@[simp] theorem Inst.setRing_cfg (e : Inst) (m : Memory) (n : Nat) : (e.setRing m n).cfg = e.cfg := rfl
@[simp] theorem Inst.setRing_mode (e : Inst) (m : Memory) (n : Nat) : (e.setRing m n).mode = e.mode := rfl
@[simp] theorem Inst.setRing_phase (e : Inst) (m : Memory) (n : Nat) : (e.setRing m n).phase = e.phase := rfl
@[simp] theorem Inst.setRing_sub (e : Inst) (m : Memory) (n : Nat) : (e.setRing m n).sub = e.sub := rfl
@[simp] theorem Inst.setRing_ctrl (e : Inst) (m : Memory) (n : Nat) : (e.setRing m n).ctrl = e.ctrl := rfl
@[simp] theorem Inst.setRing_refBuf (e : Inst) (m : Memory) (n : Nat) : (e.setRing m n).refBuf = e.refBuf := rfl
@[simp] theorem Inst.setRing_copyRem (e : Inst) (m : Memory) (n : Nat) : (e.setRing m n).copyRem = e.copyRem := rfl
@[simp] theorem Inst.setRing_copyDist (e : Inst) (m : Memory) (n : Nat) : (e.setRing m n).copyDist = e.copyDist := rfl
@[simp] theorem Inst.setRing_outCount (e : Inst) (m : Memory) (n : Nat) : (e.setRing m n).outCount = e.outCount := rfl
@[simp] theorem Inst.setRing_consumed (e : Inst) (m : Memory) (n : Nat) : (e.setRing m n).consumed = e.consumed := rfl
@[simp] theorem Inst.setRing_cause (e : Inst) (m : Memory) (n : Nat) : (e.setRing m n).cause = e.cause := rfl
@[simp] theorem Inst.setRing_hist (e : Inst) (m : Memory) (n : Nat) : (e.setRing m n).hist = e.hist := rfl
@[simp] theorem Inst.setRing_ring (e : Inst) (m : Memory) (n : Nat) : (e.setRing m n).ring = m := rfl
@[simp] theorem Inst.setRing_pending (e : Inst) (m : Memory) (n : Nat) : (e.setRing m n).pending = n := rfl
@[simp] theorem Inst.setRing_ready (e : Inst) (m : Memory) (n : Nat) : (e.setRing m n).ready = e.ready := rfl
@[simp] theorem Inst.setRing_closed (e : Inst) (m : Memory) (n : Nat) : (e.setRing m n).closed = e.closed := rfl
@[simp] theorem Inst.setRing_src (e : Inst) (m : Memory) (n : Nat) : (e.setRing m n).src = e.src := rfl

/-! ### `Inst.flushTo` -/

@[simp] theorem Inst.flushTo_cfg (e : Inst) (bs : List Byte) : (e.flushTo bs).cfg = e.cfg := rfl
@[simp] theorem Inst.flushTo_mode (e : Inst) (bs : List Byte) : (e.flushTo bs).mode = e.mode := rfl
@[simp] theorem Inst.flushTo_phase (e : Inst) (bs : List Byte) : (e.flushTo bs).phase = e.phase := rfl
@[simp] theorem Inst.flushTo_sub (e : Inst) (bs : List Byte) : (e.flushTo bs).sub = e.sub := rfl
@[simp] theorem Inst.flushTo_ctrl (e : Inst) (bs : List Byte) : (e.flushTo bs).ctrl = e.ctrl := rfl
@[simp] theorem Inst.flushTo_refBuf (e : Inst) (bs : List Byte) : (e.flushTo bs).refBuf = e.refBuf := rfl
@[simp] theorem Inst.flushTo_copyRem (e : Inst) (bs : List Byte) : (e.flushTo bs).copyRem = e.copyRem := rfl
@[simp] theorem Inst.flushTo_copyDist (e : Inst) (bs : List Byte) : (e.flushTo bs).copyDist = e.copyDist := rfl
@[simp] theorem Inst.flushTo_outCount (e : Inst) (bs : List Byte) : (e.flushTo bs).outCount = e.outCount := rfl
@[simp] theorem Inst.flushTo_consumed (e : Inst) (bs : List Byte) : (e.flushTo bs).consumed = e.consumed := rfl
@[simp] theorem Inst.flushTo_cause (e : Inst) (bs : List Byte) : (e.flushTo bs).cause = e.cause := rfl
@[simp] theorem Inst.flushTo_hist (e : Inst) (bs : List Byte) : (e.flushTo bs).hist = e.hist := rfl
@[simp] theorem Inst.flushTo_ring (e : Inst) (bs : List Byte) : (e.flushTo bs).ring = e.ring := rfl
@[simp] theorem Inst.flushTo_pending (e : Inst) (bs : List Byte) : (e.flushTo bs).pending = 0 := rfl
@[simp] theorem Inst.flushTo_ready (e : Inst) (bs : List Byte) : (e.flushTo bs).ready = bs := rfl
@[simp] theorem Inst.flushTo_closed (e : Inst) (bs : List Byte) : (e.flushTo bs).closed = e.closed := rfl
@[simp] theorem Inst.flushTo_src (e : Inst) (bs : List Byte) : (e.flushTo bs).src = e.src := rfl

/-! ### `Inst.setReady` -/

@[simp] theorem Inst.setReady_cfg (e : Inst) (bs : List Byte) : (e.setReady bs).cfg = e.cfg := rfl
@[simp] theorem Inst.setReady_mode (e : Inst) (bs : List Byte) : (e.setReady bs).mode = e.mode := rfl
@[simp] theorem Inst.setReady_phase (e : Inst) (bs : List Byte) : (e.setReady bs).phase = e.phase := rfl
@[simp] theorem Inst.setReady_sub (e : Inst) (bs : List Byte) : (e.setReady bs).sub = e.sub := rfl
@[simp] theorem Inst.setReady_ctrl (e : Inst) (bs : List Byte) : (e.setReady bs).ctrl = e.ctrl := rfl
@[simp] theorem Inst.setReady_refBuf (e : Inst) (bs : List Byte) : (e.setReady bs).refBuf = e.refBuf := rfl
@[simp] theorem Inst.setReady_copyRem (e : Inst) (bs : List Byte) : (e.setReady bs).copyRem = e.copyRem := rfl
@[simp] theorem Inst.setReady_copyDist (e : Inst) (bs : List Byte) : (e.setReady bs).copyDist = e.copyDist := rfl
@[simp] theorem Inst.setReady_outCount (e : Inst) (bs : List Byte) : (e.setReady bs).outCount = e.outCount := rfl
@[simp] theorem Inst.setReady_consumed (e : Inst) (bs : List Byte) : (e.setReady bs).consumed = e.consumed := rfl
@[simp] theorem Inst.setReady_cause (e : Inst) (bs : List Byte) : (e.setReady bs).cause = e.cause := rfl
@[simp] theorem Inst.setReady_hist (e : Inst) (bs : List Byte) : (e.setReady bs).hist = e.hist := rfl
@[simp] theorem Inst.setReady_ring (e : Inst) (bs : List Byte) : (e.setReady bs).ring = e.ring := rfl
@[simp] theorem Inst.setReady_pending (e : Inst) (bs : List Byte) : (e.setReady bs).pending = e.pending := rfl
@[simp] theorem Inst.setReady_ready (e : Inst) (bs : List Byte) : (e.setReady bs).ready = bs := rfl
@[simp] theorem Inst.setReady_closed (e : Inst) (bs : List Byte) : (e.setReady bs).closed = e.closed := rfl
@[simp] theorem Inst.setReady_src (e : Inst) (bs : List Byte) : (e.setReady bs).src = e.src := rfl

/-! ### `Inst.failWith` -/

@[simp] theorem Inst.failWith_cfg (e : Inst) (c : Cause) : (e.failWith c).cfg = e.cfg := rfl
@[simp] theorem Inst.failWith_mode (e : Inst) (c : Cause) : (e.failWith c).mode = e.mode := rfl
@[simp] theorem Inst.failWith_phase (e : Inst) (c : Cause) : (e.failWith c).phase = .failed := rfl
@[simp] theorem Inst.failWith_sub (e : Inst) (c : Cause) : (e.failWith c).sub = e.sub := rfl
@[simp] theorem Inst.failWith_ctrl (e : Inst) (c : Cause) : (e.failWith c).ctrl = e.ctrl := rfl
@[simp] theorem Inst.failWith_refBuf (e : Inst) (c : Cause) : (e.failWith c).refBuf = e.refBuf := rfl
@[simp] theorem Inst.failWith_copyRem (e : Inst) (c : Cause) : (e.failWith c).copyRem = e.copyRem := rfl
@[simp] theorem Inst.failWith_copyDist (e : Inst) (c : Cause) : (e.failWith c).copyDist = e.copyDist := rfl
@[simp] theorem Inst.failWith_outCount (e : Inst) (c : Cause) : (e.failWith c).outCount = e.outCount := rfl
@[simp] theorem Inst.failWith_consumed (e : Inst) (c : Cause) : (e.failWith c).consumed = e.consumed := rfl
@[simp] theorem Inst.failWith_cause (e : Inst) (c : Cause) : (e.failWith c).cause = c := rfl
@[simp] theorem Inst.failWith_hist (e : Inst) (c : Cause) : (e.failWith c).hist = e.hist := rfl
@[simp] theorem Inst.failWith_ring (e : Inst) (c : Cause) : (e.failWith c).ring = e.ring := rfl
@[simp] theorem Inst.failWith_pending (e : Inst) (c : Cause) : (e.failWith c).pending = e.pending := rfl
@[simp] theorem Inst.failWith_ready (e : Inst) (c : Cause) : (e.failWith c).ready = e.ready := rfl
@[simp] theorem Inst.failWith_closed (e : Inst) (c : Cause) : (e.failWith c).closed = e.closed := rfl
@[simp] theorem Inst.failWith_src (e : Inst) (c : Cause) : (e.failWith c).src = e.src := rfl

/-! ### `Inst.shut` -/

@[simp] theorem Inst.shut_cfg (e : Inst) : e.shut.cfg = e.cfg := rfl
@[simp] theorem Inst.shut_mode (e : Inst) : e.shut.mode = e.mode := rfl
@[simp] theorem Inst.shut_phase (e : Inst) : e.shut.phase = e.phase := rfl
@[simp] theorem Inst.shut_sub (e : Inst) : e.shut.sub = e.sub := rfl
@[simp] theorem Inst.shut_ctrl (e : Inst) : e.shut.ctrl = e.ctrl := rfl
@[simp] theorem Inst.shut_refBuf (e : Inst) : e.shut.refBuf = e.refBuf := rfl
@[simp] theorem Inst.shut_copyRem (e : Inst) : e.shut.copyRem = e.copyRem := rfl
@[simp] theorem Inst.shut_copyDist (e : Inst) : e.shut.copyDist = e.copyDist := rfl
@[simp] theorem Inst.shut_outCount (e : Inst) : e.shut.outCount = e.outCount := rfl
@[simp] theorem Inst.shut_consumed (e : Inst) : e.shut.consumed = e.consumed := rfl
@[simp] theorem Inst.shut_cause (e : Inst) : e.shut.cause = e.cause := rfl
@[simp] theorem Inst.shut_hist (e : Inst) : e.shut.hist = e.hist := rfl
@[simp] theorem Inst.shut_ring (e : Inst) : e.shut.ring = e.ring := rfl
@[simp] theorem Inst.shut_pending (e : Inst) : e.shut.pending = e.pending := rfl
@[simp] theorem Inst.shut_ready (e : Inst) : e.shut.ready = [] := rfl
@[simp] theorem Inst.shut_closed (e : Inst) : e.shut.closed = true := rfl
@[simp] theorem Inst.shut_src (e : Inst) : e.shut.src = e.src := rfl

/-! ### `State.setInst` -/

@[simp] theorem State.setInst_gen (s : State) (i : Nat) (e : Inst) : (s.setInst i e).gen = s.gen := rfl
@[simp] theorem State.setInst_decoders (s : State) (i : Nat) (e : Inst) : (s.setInst i e).decoders = s.decoders := rfl
@[simp] theorem State.setInst_insts (s : State) (i : Nat) (e : Inst) : (s.setInst i e).insts = s.insts.set i e := rfl
@[simp] theorem State.setInst_op (s : State) (i : Nat) (e : Inst) : (s.setInst i e).op = s.op := rfl
@[simp] theorem State.setInst_calls (s : State) (i : Nat) (e : Inst) : (s.setInst i e).calls = s.calls := rfl
@[simp] theorem State.setInst_results (s : State) (i : Nat) (e : Inst) : (s.setInst i e).results = s.results := rfl

/-! ### `State.addInst` -/

@[simp] theorem State.addInst_gen (s : State) (e : Inst) : (s.addInst e).gen = s.gen := rfl
@[simp] theorem State.addInst_decoders (s : State) (e : Inst) : (s.addInst e).decoders = s.decoders := rfl
@[simp] theorem State.addInst_insts (s : State) (e : Inst) : (s.addInst e).insts = s.insts ++ [e] := rfl
@[simp] theorem State.addInst_op (s : State) (e : Inst) : (s.addInst e).op = s.op := rfl
@[simp] theorem State.addInst_calls (s : State) (e : Inst) : (s.addInst e).calls = s.calls := rfl
@[simp] theorem State.addInst_results (s : State) (e : Inst) : (s.addInst e).results = s.results := rfl

/-! ### `State.addDecoder` -/

@[simp] theorem State.addDecoder_gen (s : State) (c : Cfg) : (s.addDecoder c).gen = s.gen := rfl
@[simp] theorem State.addDecoder_decoders (s : State) (c : Cfg) : (s.addDecoder c).decoders = s.decoders ++ [c] := rfl
@[simp] theorem State.addDecoder_insts (s : State) (c : Cfg) : (s.addDecoder c).insts = s.insts := rfl
@[simp] theorem State.addDecoder_op (s : State) (c : Cfg) : (s.addDecoder c).op = s.op := rfl
@[simp] theorem State.addDecoder_calls (s : State) (c : Cfg) : (s.addDecoder c).calls = s.calls := rfl
@[simp] theorem State.addDecoder_results (s : State) (c : Cfg) : (s.addDecoder c).results = s.results := rfl

/-! ### `State.addResult` -/

@[simp] theorem State.addResult_gen (s : State) (r : HostResult) : (s.addResult r).gen = s.gen := rfl
@[simp] theorem State.addResult_decoders (s : State) (r : HostResult) : (s.addResult r).decoders = s.decoders := rfl
@[simp] theorem State.addResult_insts (s : State) (r : HostResult) : (s.addResult r).insts = s.insts := rfl
@[simp] theorem State.addResult_op (s : State) (r : HostResult) : (s.addResult r).op = s.op := rfl
@[simp] theorem State.addResult_calls (s : State) (r : HostResult) : (s.addResult r).calls = s.calls := rfl
@[simp] theorem State.addResult_results (s : State) (r : HostResult) : (s.addResult r).results = s.results ++ [r] := rfl

/-! ### `State.setOp` -/

@[simp] theorem State.setOp_gen (s : State) (o : Option Running) : (s.setOp o).gen = s.gen := rfl
@[simp] theorem State.setOp_decoders (s : State) (o : Option Running) : (s.setOp o).decoders = s.decoders := rfl
@[simp] theorem State.setOp_insts (s : State) (o : Option Running) : (s.setOp o).insts = s.insts := rfl
@[simp] theorem State.setOp_op (s : State) (o : Option Running) : (s.setOp o).op = o := rfl
@[simp] theorem State.setOp_calls (s : State) (o : Option Running) : (s.setOp o).calls = s.calls := rfl
@[simp] theorem State.setOp_results (s : State) (o : Option Running) : (s.setOp o).results = s.results := rfl

/-! ### `State.setCalls` -/

@[simp] theorem State.setCalls_gen (s : State) (cs : List HostCall) : (s.setCalls cs).gen = s.gen := rfl
@[simp] theorem State.setCalls_decoders (s : State) (cs : List HostCall) : (s.setCalls cs).decoders = s.decoders := rfl
@[simp] theorem State.setCalls_insts (s : State) (cs : List HostCall) : (s.setCalls cs).insts = s.insts := rfl
@[simp] theorem State.setCalls_op (s : State) (cs : List HostCall) : (s.setCalls cs).op = s.op := rfl
@[simp] theorem State.setCalls_calls (s : State) (cs : List HostCall) : (s.setCalls cs).calls = cs := rfl
@[simp] theorem State.setCalls_results (s : State) (cs : List HostCall) : (s.setCalls cs).results = s.results := rfl

/-! ### The engine reset (R29) -/

@[simp] theorem engineReset_cfg (c : Cfg) (m : Mode) (source : List SrcEvent) : (engineReset c m source).cfg = c := rfl
@[simp] theorem engineReset_mode (c : Cfg) (m : Mode) (source : List SrcEvent) : (engineReset c m source).mode = m := rfl
@[simp] theorem engineReset_phase (c : Cfg) (m : Mode) (source : List SrcEvent) : (engineReset c m source).phase = .ctrl := rfl
@[simp] theorem engineReset_sub (c : Cfg) (m : Mode) (source : List SrcEvent) : (engineReset c m source).sub = 0 := rfl
@[simp] theorem engineReset_ctrl (c : Cfg) (m : Mode) (source : List SrcEvent) : (engineReset c m source).ctrl = .unwritten := rfl
@[simp] theorem engineReset_refBuf (c : Cfg) (m : Mode) (source : List SrcEvent) : (engineReset c m source).refBuf = [] := rfl
@[simp] theorem engineReset_copyRem (c : Cfg) (m : Mode) (source : List SrcEvent) : (engineReset c m source).copyRem = 0 := rfl
@[simp] theorem engineReset_copyDist (c : Cfg) (m : Mode) (source : List SrcEvent) : (engineReset c m source).copyDist = .unwritten := rfl
@[simp] theorem engineReset_outCount (c : Cfg) (m : Mode) (source : List SrcEvent) : (engineReset c m source).outCount = 0 := rfl
@[simp] theorem engineReset_consumed (c : Cfg) (m : Mode) (source : List SrcEvent) : (engineReset c m source).consumed = 0 := rfl
@[simp] theorem engineReset_cause (c : Cfg) (m : Mode) (source : List SrcEvent) : (engineReset c m source).cause = .none := rfl
@[simp] theorem engineReset_hist (c : Cfg) (m : Mode) (source : List SrcEvent) : (engineReset c m source).hist = [] := rfl
@[simp] theorem engineReset_ring (c : Cfg) (m : Mode) (source : List SrcEvent) : (engineReset c m source).ring = [] := rfl
@[simp] theorem engineReset_pending (c : Cfg) (m : Mode) (source : List SrcEvent) : (engineReset c m source).pending = 0 := rfl
@[simp] theorem engineReset_ready (c : Cfg) (m : Mode) (source : List SrcEvent) : (engineReset c m source).ready = [] := rfl
@[simp] theorem engineReset_closed (c : Cfg) (m : Mode) (source : List SrcEvent) : (engineReset c m source).closed = false := rfl
@[simp] theorem engineReset_src (c : Cfg) (m : Mode) (source : List SrcEvent) : (engineReset c m source).src = source := rfl

end Sys2Proof.Machine
end

