-- ==== Sys2Proof/Laws/Ops.lean ====
section
/-!
SUPPORT. One lemma per shared operation that says all it can do, for proofs to cite instead of unfolding it.
-/

namespace Sys2Proof.Machine

/-! ## Sequencing of results -/

theorem andThen_next {α β : Type} {o : Res α} {f : α → Res β} {b : β} :
    andThen o f = .next b ↔ ∃ a, o = .next a ∧ f a = .next b := by
  cases o <;> simp [andThen]

@[simp] theorem andThen_of_next {α β : Type} (a : α) (f : α → Res β) : andThen (.next a) f = f a := rfl

@[simp] theorem andThen_of_fault {α β : Type} (r : Fault) (f : α → Res β) : andThen (.fault r) f = .fault r := rfl

@[simp] theorem andThen_of_refused {α β : Type} (r : Refusal) (f : α → Res β) : andThen (.refused r) f = .refused r := rfl

/-! ## Pulls and emits -/

theorem pullBytes_next {g : Generics} {k : Nat} {e e1 : Inst} :
    pullBytes g k e = .next e1 ↔ g.countOk (e.consumed + k) = true ∧ e1 = e.pulled k := by
  unfold pullBytes
  split
  · rename_i h
    exact ⟨fun he => ⟨h, (Host.Outcome.next.inj he).symm⟩, fun he => by rw [he.2]⟩
  · rename_i h
    exact ⟨fun he => (nomatch he), fun he => absurd he.1 h⟩

/-- The ring, pending and ready of an instance after `Emit(v)` (R37). -/
def emitted (g : Generics) (v : Byte) (e : Inst) : Inst :=
  match e.mode with
  | .buffer => e.append v
  | .stream => flushIfFull g ((ringEmit g v e).append v)

theorem emit_next {g : Generics} {v : Byte} {e e1 : Inst} :
    emit g v e = .next e1 ↔ g.countOk (e.outCount + 1) = true ∧ e1 = emitted g v e := by
  unfold emit emitted
  split
  · rename_i h
    cases hm : e.mode <;>
      exact ⟨fun he => ⟨h, (Host.Outcome.next.inj he).symm⟩, fun he => by rw [he.2]⟩
  · rename_i h
    exact ⟨fun he => (nomatch he), fun he => absurd he.1 h⟩

/-- `Emit` writes only history, ring, pending and ready (R37). -/
theorem emitted_same (g : Generics) (v : Byte) (e : Inst) :
    (emitted g v e).cfg = e.cfg ∧ (emitted g v e).mode = e.mode ∧ (emitted g v e).phase = e.phase ∧
    (emitted g v e).sub = e.sub ∧ (emitted g v e).ctrl = e.ctrl ∧ (emitted g v e).refBuf = e.refBuf ∧
    (emitted g v e).copyRem = e.copyRem ∧ (emitted g v e).copyDist = e.copyDist ∧
    (emitted g v e).consumed = e.consumed ∧ (emitted g v e).cause = e.cause ∧
    (emitted g v e).closed = e.closed ∧ (emitted g v e).src = e.src := by
  unfold emitted flushIfFull flush ringEmit
  cases hm : e.mode <;> simp only <;> (try split) <;> simp [hm]

@[simp] theorem emitted_hist (g : Generics) (v : Byte) (e : Inst) : (emitted g v e).hist = e.hist ++ [v] := by
  unfold emitted flushIfFull flush ringEmit
  cases hm : e.mode <;> simp only <;> (try split) <;> simp

@[simp] theorem emitted_outCount (g : Generics) (v : Byte) (e : Inst) : (emitted g v e).outCount = e.outCount + 1 := by
  unfold emitted flushIfFull flush ringEmit
  cases hm : e.mode <;> simp only <;> (try split) <;> simp

/-- `Emit` in BUFFER mode leaves the adapter alone (R37). -/
theorem emitted_buffer {g : Generics} {v : Byte} {e : Inst} (h : e.mode = .buffer) :
    (emitted g v e).ring = e.ring ∧ (emitted g v e).pending = e.pending ∧ (emitted g v e).ready = e.ready := by
  simp [emitted, h]

/-- `Emit` in STREAM mode (R37): one ring slot, and either one more byte pending or a flush. -/
theorem emitted_stream {g : Generics} {v : Byte} {e : Inst} (h : e.mode = .stream) :
    (emitted g v e).ring = memInsert e.ring (e.outCount % g.bufCap) v ∧
    ((e.pending + 1 ≠ g.bufCap ∧ (emitted g v e).pending = e.pending + 1 ∧ (emitted g v e).ready = e.ready) ∨
     (e.pending + 1 = g.bufCap ∧ (emitted g v e).pending = 0 ∧
      (emitted g v e).ready = e.ready ++ lastBytes (e.pending + 1) (e.hist ++ [v]))) := by
  unfold emitted flushIfFull flush ringEmit
  simp only [h]
  split <;> simp_all [memWrite, ringSlot]

/-- What `WinRead` answers in either mode (R36). -/
theorem winRead_next {g : Generics} {d : Nat} {e : Inst} {b : Byte} :
    winRead g d e = .next b ↔ 1 ≤ d ∧ d ≤ e.outCount ∧
      match e.mode with
      | .buffer => e.hist[e.outCount - d]? = some b
      | .stream => memLookup e.ring ((e.outCount - d) % g.bufCap) = some b := by
  unfold winRead
  split
  · rename_i hd
    cases hm : e.mode
    · simp only
      split <;> simp_all
    · simp only [memRead, ringSlot]
      split <;> simp_all
  · rename_i hd
    simp only [reduceCtorEq, false_iff]
    rintro ⟨h1, h2, _⟩
    exact hd ⟨h1, h2⟩

/-! ## Flush, Finish, raise -/

/-- What is left of an instance by the flush of Finish and raise: all but `ready` and `pending` (R38). -/
theorem flushIfStream_same (e : Inst) :
    (flushIfStream e).cfg = e.cfg ∧ (flushIfStream e).mode = e.mode ∧ (flushIfStream e).phase = e.phase ∧
    (flushIfStream e).sub = e.sub ∧ (flushIfStream e).ctrl = e.ctrl ∧ (flushIfStream e).refBuf = e.refBuf ∧
    (flushIfStream e).copyRem = e.copyRem ∧ (flushIfStream e).copyDist = e.copyDist ∧
    (flushIfStream e).outCount = e.outCount ∧ (flushIfStream e).consumed = e.consumed ∧
    (flushIfStream e).cause = e.cause ∧ (flushIfStream e).hist = e.hist ∧ (flushIfStream e).ring = e.ring ∧
    (flushIfStream e).closed = e.closed ∧ (flushIfStream e).src = e.src := by
  unfold flushIfStream flush
  cases hm : e.mode <;> simp [hm]

theorem flushIfStream_buffer {e : Inst} (h : e.mode = .buffer) : flushIfStream e = e := by
  simp [flushIfStream, h]

theorem flushIfStream_stream {e : Inst} (h : e.mode = .stream) :
    flushIfStream e = e.flushTo (e.ready ++ lastBytes e.pending e.hist) := by
  simp [flushIfStream, h, flush]

/-! ## Dispatch and Resolve -/

/-- The phase Dispatch chooses (R66). -/
def nextPhase (e : Inst) : Phase :=
  if e.sub = 8 then .ctrl else if isLiteralNow e then .lit else .ref

/-- Dispatch writes only the phase (R66). -/
theorem dispatch_eq (e : Inst) : dispatch e = e.goto (nextPhase e) := by
  unfold dispatch nextPhase
  split
  · rfl
  · split <;> rfl

theorem completeToken_eq (e : Inst) : completeToken e = e.nextSub.goto (nextPhase e.nextSub) := by
  simp [completeToken, dispatch_eq]

theorem nextPhase_live (e : Inst) : nextPhase e = .ctrl ∨ nextPhase e = .lit ∨ nextPhase e = .ref := by
  unfold nextPhase
  split
  · exact .inl rfl
  · split
    · exact .inr (.inl rfl)
    · exact .inr (.inr rfl)

/-- Resolve starts a copy or raises one of two causes, CHUNK_LENGTH first (R74, R97). -/
theorem resolve_cases (g : Generics) (length offset : Int) (e : Inst) :
    (length < 0 ∧ resolve g length offset e = raise .chunkLength e) ∨
    (0 ≤ length ∧ offsetInvalid g e offset = true ∧ resolve g length offset e = raise .offset e) ∨
    (0 ≤ length ∧ offsetInvalid g e offset = false ∧
      resolve g length offset e = e.startCopy (distance offset).toNat (copyLength e.cfg length).toNat) := by
  unfold resolve
  split
  · exact .inl ⟨‹_›, rfl⟩
  · cases h : offsetInvalid g e offset
    · exact .inr (.inr ⟨by omega, rfl, by simp⟩)
    · exact .inr (.inl ⟨by omega, rfl, by simp⟩)

/-- A valid offset's distance lies in the history, and in STREAM mode in the window (R74). -/
theorem offsetInvalid_false {g : Generics} {e : Inst} {offset : Int} :
    offsetInvalid g e offset = false ↔
      0 ≤ offset ∧ offset + 1 ≤ (e.outCount : Int) ∧ (e.mode = .stream → offset + 1 ≤ (g.window : Int)) := by
  unfold offsetInvalid copyStart
  simp only [Bool.or_eq_false_iff, Bool.and_eq_false_iff, decide_eq_false_iff_not, not_lt]
  constructor
  · rintro ⟨⟨h1, h2⟩, h3⟩
    refine ⟨h1, by omega, fun hm => ?_⟩
    rcases h3 with h3 | h3
    · exact absurd hm h3
    · exact h3
  · rintro ⟨h1, h2, h3⟩
    refine ⟨⟨h1, by omega⟩, ?_⟩
    cases hm : e.mode
    · exact .inl (by simp)
    · exact .inr (h3 hm)

/-! ## Tokens on the machine -/

/-- All a token can do when it answers a next state: its engine changes, nothing else (R99, R102). -/
theorem runToken_next {sel : Phase → Bool} {f : Generics → Inst → Res Inst} {s t : State} :
    runToken sel f s = .next t ↔ ∃ r e e1, s.op = some r ∧ s.insts[r.inst]? = some e ∧ sel e.phase = true ∧
      f s.gen e = .next e1 ∧ t = s.setInst r.inst e1 := by
  unfold runToken
  split
  · simp_all
  · rename_i r hop
    split
    · rename_i hi
      simp only [reduceCtorEq, false_iff, not_exists]
      rintro r' e e1 ⟨h1, h2, -⟩
      rw [hop] at h1
      cases h1
      rw [hi] at h2
      exact absurd h2 (by simp)
    · rename_i e hi
      split
      · rename_i hs
        rw [andThen_next]
        constructor
        · rintro ⟨e1, h1, h2⟩
          cases h2
          exact ⟨r, e, e1, hop, hi, hs, h1, rfl⟩
        · rintro ⟨r', e', e1, h1, h2, -, h4, h5⟩
          rw [hop] at h1
          cases h1
          rw [hi] at h2
          cases h2
          exact ⟨e1, h4, by rw [h5]⟩
      · rename_i hs
        simp only [reduceCtorEq, false_iff, not_exists]
        rintro r' e' e1 ⟨h1, h2, h3, -⟩
        rw [hop] at h1
        cases h1
        rw [hi] at h2
        cases h2
        exact hs h3

/-- A token answers a next state when its engine does. -/
theorem runToken_eq {sel : Phase → Bool} {f : Generics → Inst → Res Inst} {s : State} {r : Running} {e e1 : Inst}
    (hop : s.op = some r) (hi : s.insts[r.inst]? = some e) (hs : sel e.phase = true) (hf : f s.gen e = .next e1) :
    runToken sel f s = .next (s.setInst r.inst e1) := by
  simp [runToken, hop, hi, hs, hf]

/-- All that `settle` can do: nothing, or the READ under way returns (R86). -/
theorem settle_cases (s : State) :
    settle s = s ∨ ∃ r e bs k e1, s.op = some r ∧ s.insts[r.inst]? = some e ∧ e.phase.boundary = true ∧
      readNow r.n e = some (bs, k, e1) ∧
      settle s = ((s.setInst r.inst e1).setOp none).addResult (.read r.inst bs k) := by
  unfold settle
  split
  · exact .inl rfl
  · rename_i r hop
    split
    · exact .inl rfl
    · rename_i e hi
      split
      · rename_i hb
        split
        · rename_i bs k e1 hr
          exact .inr ⟨r, e, bs, k, e1, hop, hi, hb, hr, rfl⟩
        · exact .inl rfl
      · exact .inl rfl

/-- Replacing an instance leaves every other one alone (R102). -/
theorem State.setInst_other {s : State} {i j : Nat} (e : Inst) (h : i ≠ j) : (s.setInst i e).insts[j]? = s.insts[j]? := by
  simp [State.setInst, h]

/-- A READ that returns leaves every instance alone but its own (R102). -/
theorem settle_other {s : State} {i n j : Nat} (ho : s.op = some ⟨i, n⟩) (h : i ≠ j) :
    (settle s).insts[j]? = s.insts[j]? := by
  unfold settle
  rw [ho]
  simp only
  split
  · rfl
  · split
    · split
      · simp [State.setInst, State.setOp, State.addResult, h]
      · rfl
    · rfl

/-- What READ can return at once (R86): ready bytes first, then END or the stored cause. -/
theorem readNow_some {n : Nat} {e e1 : Inst} {bs : List Byte} {k : ReadKind} :
    readNow n e = some (bs, k, e1) ↔
      (e.ready ≠ [] ∧ bs = e.ready.take n ∧ k = .data ∧ e1 = e.setReady (e.ready.drop n)) ∨
      (e.ready = [] ∧ e.phase = .done ∧ bs = [] ∧ k = .endOfStream ∧ e1 = e) ∨
      (e.ready = [] ∧ e.phase = .failed ∧ bs = [] ∧ k = .error e.cause ∧ e1 = e) := by
  unfold readNow
  split
  · rename_i h
    simp only [Option.some.injEq, Prod.mk.injEq]
    constructor
    · rintro ⟨rfl, rfl, rfl⟩
      exact .inl ⟨h, rfl, rfl, rfl⟩
    · rintro (⟨-, rfl, rfl, rfl⟩ | ⟨h', -⟩ | ⟨h', -⟩)
      · exact ⟨rfl, rfl, rfl⟩
      · exact absurd h' h
      · exact absurd h' h
  · rename_i h
    have h : e.ready = [] := by simpa using h
    cases hp : e.phase <;> simp [h, eq_comm]

/-- READ can return nothing exactly when no byte is ready and the engine is not terminal (R86). -/
theorem readNow_none {n : Nat} {e : Inst} : readNow n e = none ↔ e.ready = [] ∧ e.phase.terminal = false := by
  unfold readNow
  split
  · simp_all
  · cases hp : e.phase <;> simp_all [Phase.terminal]

end Sys2Proof.Machine
end

