-- ==== Sys2Proof/Laws/Engine.lean ====
section
/-!
SUPPORT. What an engine's tokens keep: the window storage stays true to the history (R39), and every token keeps the
invariant between steps (R30).
-/

namespace Sys2Proof.Machine

/-! ## Window storage -/

/-- The part of the invariant that is about stored bytes (R24, R25, R35, R39). -/
structure Stored (g : Generics) (e : Inst) : Prop where
  count : e.outCount = e.hist.length
  ringWf : e.ring.wf = true
  ringRange : ∀ c ∈ e.ring, c.1 < g.bufCap
  window : e.mode = .stream → ∀ n, n < e.outCount → e.outCount - g.bufCap ≤ n →
    memLookup e.ring (n % g.bufCap) = e.hist[n]?
  pendingBound : e.pending < g.bufCap ∧ e.pending ≤ e.outCount
  bufferMode : e.mode = .buffer → e.ring = [] ∧ e.pending = 0 ∧ e.ready = [] ∧ e.closed = false

theorem Inst.Inv.stored {g : Generics} {e : Inst} (h : e.Inv g) : Stored g e :=
  ⟨h.count, h.ringWf, h.ringRange, h.window, h.pendingBound, h.bufferMode⟩

/-- Two positions less than `BUF_CAP` apart have different slots. -/
theorem slot_ne {cap m n : Nat} (h1 : m < n) (h2 : n < m + cap) : m % cap ≠ n % cap := by
  intro h
  have hd : cap ∣ n - m := (Nat.modEq_iff_dvd' (Nat.le_of_lt h1)).1 h
  have := Nat.le_of_dvd (by omega) hd
  omega

/-- One more `Emit` keeps the storage true (R37, R39). -/
theorem Stored.emitted {g : Generics} {e : Inst} (v : Byte) (h : Stored g e) : Stored g (emitted g v e) := by
  obtain ⟨hcfg, hmode, -, -, -, -, -, -, -, -, hcl, -⟩ := emitted_same g v e
  cases hm : e.mode with
  | buffer =>
    obtain ⟨hr, hp, hy⟩ := emitted_buffer (g := g) (v := v) hm
    obtain ⟨b1, b2, b3, b4⟩ := h.bufferMode hm
    exact
      { count := by simp [h.count]
        ringWf := by rw [hr]; exact h.ringWf
        ringRange := by rw [hr]; exact h.ringRange
        window := by intro h'; rw [hmode, hm] at h'; exact absurd h' (by simp)
        pendingBound := by
          rw [hp, emitted_outCount]
          exact ⟨h.pendingBound.1, Nat.le_succ_of_le h.pendingBound.2⟩
        bufferMode := by intro _; rw [hr, hp, hy, hcl]; exact ⟨b1, b2, b3, b4⟩ }
  | stream =>
    obtain ⟨hr, hp⟩ := emitted_stream (g := g) (v := v) hm
    have hcap := g.bufCap_pos
    exact
      { count := by simp [h.count]
        ringWf := by rw [hr]; exact memInsert_wf _ _ h.ringWf
        ringRange := by
          rw [hr]
          intro c hc
          rcases mem_memInsert hc with rfl | hc
          · exact Nat.mod_lt _ hcap
          · exact h.ringRange c hc
        window := by
          intro _ n hn hlow
          rw [emitted_outCount] at hn hlow
          rw [hr, memLookup_memInsert _ _ _ h.ringWf, emitted_hist]
          by_cases hlast : n = e.outCount
          · subst hlast
            simp [h.count]
          · have hlt : n < e.outCount := by omega
            rw [if_neg (slot_ne hlt (by omega)), h.window hm n hlt (by omega), List.getElem?_append_left]
            rw [← h.count]; exact hlt
        pendingBound := by
          have hb := h.pendingBound
          rw [emitted_outCount]
          rcases hp with ⟨hne, hp, -⟩ | ⟨-, hp, -⟩ <;> rw [hp] <;> omega
        bufferMode := by intro h'; rw [hmode, hm] at h'; exact absurd h' (by simp) }

/-- The flush of Finish and raise keeps the storage true (R38: it discards no history). -/
theorem Stored.flushIfStream {g : Generics} {e : Inst} (h : Stored g e) : Stored g (flushIfStream e) := by
  cases hm : e.mode with
  | buffer => rw [flushIfStream_buffer hm]; exact h
  | stream =>
    rw [flushIfStream_stream hm]
    exact
      { count := h.count
        ringWf := h.ringWf
        ringRange := h.ringRange
        window := h.window
        pendingBound := ⟨g.bufCap_pos, Nat.zero_le _⟩
        bufferMode := by intro h'; rw [Inst.flushTo_mode, hm] at h'; exact absurd h' (by simp) }

/-- Storage depends only on these fields. -/
theorem Stored.congr {g : Generics} {e e1 : Inst} (h : Stored g e) (hm : e1.mode = e.mode) (hh : e1.hist = e.hist)
    (ho : e1.outCount = e.outCount) (hr : e1.ring = e.ring) (hp : e1.pending = e.pending) (hy : e1.ready = e.ready)
    (hc : e1.closed = e.closed) : Stored g e1 := by
  constructor
  · rw [ho, hh]; exact h.count
  · rw [hr]; exact h.ringWf
  · rw [hr]; exact h.ringRange
  · rw [hm, ho, hr, hh]; exact h.window
  · rw [hp, ho]; exact h.pendingBound
  · rw [hm, hr, hp, hy, hc]; exact h.bufferMode

/-! ## The invariant from the storage and the sequencer -/

/-- An engine at CTRL, LIT or REF as Dispatch leaves it (R66) meets the invariant. -/
theorem Inst.Inv.of_dispatch {g : Generics} {e : Inst} (hs : Stored g e) (hsub : e.sub ≤ 8) (hrem : e.copyRem = 0)
    (href : e.refBuf = []) (hcause : e.cause = .none) (hctrl : e.ctrl ≠ .unwritten)
    (hthr : g.thresholdMin ≤ e.cfg.threshold) (hR : 1 ≤ g.refBytes)
    (hcount : g.countOk e.consumed = true ∧ g.countOk e.outCount = true) : (dispatch e).Inv g := by
  have hst : Stored g (dispatch e) := by
    rw [dispatch_eq]; exact hs.congr rfl rfl rfl rfl rfl rfl rfl
  have hphase : (dispatch e).phase = nextPhase e := by rw [dispatch_eq]; rfl
  have hrest : (dispatch e).sub = e.sub ∧ (dispatch e).copyRem = e.copyRem ∧ (dispatch e).refBuf = e.refBuf ∧
      (dispatch e).cause = e.cause ∧ (dispatch e).ctrl = e.ctrl ∧ (dispatch e).cfg = e.cfg ∧
      (dispatch e).consumed = e.consumed ∧ (dispatch e).outCount = e.outCount := by
    rw [dispatch_eq]; simp
  obtain ⟨h1, h2, h3, h4, h5, h6, h7, h8⟩ := hrest
  have hlive := nextPhase_live e
  have h8' : nextPhase e ≠ .ctrl → e.sub ≤ 7 := by
    intro hne
    unfold nextPhase at hne
    split at hne
    · exact absurd rfl hne
    · omega
  have h9 : nextPhase e = .ctrl → e.sub = 8 := by
    unfold nextPhase
    split
    · exact fun _ => ‹_›
    · split <;> simp
  exact
    { atCtrl := by intro hp; rw [h1, h2]; exact ⟨hrem, .inr (h9 (hphase ▸ hp))⟩
      inGroup := by
        intro hp
        rw [h1, h2]
        refine ⟨h8' ?_, hrem⟩
        rw [hphase] at hp
        rcases hp with hp | hp <;> rw [hp] <;> simp
      inCopy := by intro hp; rw [hphase] at hp; rw [hp] at hlive; simp at hlive
      subBound := by rw [h1]; exact hsub
      partialRef := by intro _; rw [h3, href]; exact hR
      noPartialRef := by intro _; rw [h3, href]
      causeIff := by
        rw [h4, hcause, hphase]
        refine ⟨fun _ hp => ?_, fun _ => rfl⟩
        rw [hp] at hlive; simp at hlive
      causeKind := by rw [h4]; exact .inl hcause
      ctrlWritten := by intro _; rw [h5]; exact hctrl
      count := hst.count
      threshold := by rw [h6]; exact hthr
      ringWf := hst.ringWf
      ringRange := hst.ringRange
      window := hst.window
      pendingBound := hst.pendingBound
      bufferMode := hst.bufferMode
      counters := by rw [h7, h8]; exact hcount }

/-- An engine that `raise` leaves meets the invariant (R93). -/
theorem Inst.Inv.of_raise {g : Generics} {e : Inst} (c : Cause) (hs : Stored g e) (hsub : e.sub ≤ 8)
    (href : e.refBuf = []) (hc : c = .unexpectedEof ∨ c = .chunkLength ∨ c = .offset)
    (hthr : g.thresholdMin ≤ e.cfg.threshold)
    (hcount : g.countOk e.consumed = true ∧ g.countOk e.outCount = true) : (raise c e).Inv g := by
  have hst : Stored g (raise c e) := hs.flushIfStream.congr rfl rfl rfl rfl rfl rfl rfl
  obtain ⟨f1, f2, f3, f4, f5, f6, f7, f8, f9, f10, f11, f12, f13, f14, f15⟩ := flushIfStream_same e
  have hph : (raise c e).phase = .failed := rfl
  exact
    { atCtrl := by intro hp; rw [hph] at hp; exact absurd hp (by simp)
      inGroup := by intro hp; rw [hph] at hp; simp at hp
      inCopy := by intro hp; rw [hph] at hp; exact absurd hp (by simp)
      subBound := by show (flushIfStream e).sub ≤ 8; rw [f4]; exact hsub
      partialRef := by intro hp; rw [hph] at hp; exact absurd hp (by simp)
      noPartialRef := by intro _; show (flushIfStream e).refBuf = []; rw [f6]; exact href
      causeIff := by
        show c = .none ↔ Phase.failed ≠ .failed
        rcases hc with rfl | rfl | rfl <;> simp
      causeKind := .inr hc
      ctrlWritten := by intro hp; rw [hph] at hp; simp at hp
      count := hst.count
      threshold := by show _ ≤ (flushIfStream e).cfg.threshold; rw [f1]; exact hthr
      ringWf := hst.ringWf
      ringRange := hst.ringRange
      window := hst.window
      pendingBound := hst.pendingBound
      bufferMode := hst.bufferMode
      counters := by
        show g.countOk (flushIfStream e).consumed = true ∧ g.countOk (flushIfStream e).outCount = true
        rw [f9, f10]; exact hcount }

/-- An engine that Finish leaves meets the invariant (R67). -/
theorem Inst.Inv.of_finish {g : Generics} {e : Inst} (hs : Stored g e) (hsub : e.sub ≤ 8) (href : e.refBuf = [])
    (hcause : e.cause = .none) (hthr : g.thresholdMin ≤ e.cfg.threshold)
    (hcount : g.countOk e.consumed = true ∧ g.countOk e.outCount = true) : (finish e).Inv g := by
  have hst : Stored g (finish e) := hs.flushIfStream.congr rfl rfl rfl rfl rfl rfl rfl
  obtain ⟨f1, f2, f3, f4, f5, f6, f7, f8, f9, f10, f11, f12, f13, f14, f15⟩ := flushIfStream_same e
  have hph : (finish e).phase = .done := rfl
  have hca : (finish e).cause = .none := by show (flushIfStream e).cause = .none; rw [f11]; exact hcause
  exact
    { atCtrl := by intro hp; rw [hph] at hp; exact absurd hp (by simp)
      inGroup := by intro hp; rw [hph] at hp; simp at hp
      inCopy := by intro hp; rw [hph] at hp; exact absurd hp (by simp)
      subBound := by show (flushIfStream e).sub ≤ 8; rw [f4]; exact hsub
      partialRef := by intro hp; rw [hph] at hp; exact absurd hp (by simp)
      noPartialRef := by intro _; show (flushIfStream e).refBuf = []; rw [f6]; exact href
      causeIff := by rw [hca, hph]; simp
      causeKind := .inl hca
      ctrlWritten := by intro hp; rw [hph] at hp; simp at hp
      count := hst.count
      threshold := by show _ ≤ (flushIfStream e).cfg.threshold; rw [f1]; exact hthr
      ringWf := hst.ringWf
      ringRange := hst.ringRange
      window := hst.window
      pendingBound := hst.pendingBound
      bufferMode := hst.bufferMode
      counters := by
        show g.countOk (flushIfStream e).consumed = true ∧ g.countOk (flushIfStream e).outCount = true
        rw [f9, f10]; exact hcount }

/-! ## Tokens keep the invariant -/

variable {g : Generics} {e e1 : Inst}

theorem ctrlToken_inv {c : Byte} (hi : e.Inv g) (hp : e.phase = .ctrl) (hR : 1 ≤ g.refBytes)
    (h : ctrlToken g c e = .next e1) : e1.Inv g := by
  obtain ⟨x, hx, h⟩ := andThen_next.1 h
  obtain ⟨hk, rfl⟩ := pullBytes_next.1 hx
  cases h
  have hc : e.cause = .none := hi.causeIff.2 (by rw [hp]; simp)
  exact Inst.Inv.of_dispatch (hi.stored.congr rfl rfl rfl rfl rfl rfl rfl) (Nat.zero_le _) (hi.atCtrl hp).1
    (hi.noPartialRef (by rw [hp]; simp)) hc (by simp) hi.threshold hR ⟨hk, hi.counters.2⟩

theorem endCleanToken_inv (hi : e.Inv g) (hp : e.phase = .ctrl) (h : endCleanToken e = .next e1) : e1.Inv g := by
  cases h
  exact Inst.Inv.of_finish (hi.stored.congr rfl rfl rfl rfl rfl rfl rfl) hi.subBound
    (hi.noPartialRef (by rw [hp]; simp)) (hi.causeIff.2 (by rw [hp]; simp)) hi.threshold hi.counters

theorem litToken_inv {v : Byte} (hi : e.Inv g) (hp : e.phase = .lit) (hR : 1 ≤ g.refBytes)
    (h : litToken g v e = .next e1) : e1.Inv g := by
  obtain ⟨x, hx, h⟩ := andThen_next.1 h
  obtain ⟨hk, rfl⟩ := pullBytes_next.1 hx
  obtain ⟨y, hy, h⟩ := andThen_next.1 h
  obtain ⟨hk2, rfl⟩ := emit_next.1 hy
  cases h
  obtain ⟨s1, s2, s3, s4, s5, s6, s7, s8, s9, s10, s11, s12⟩ := emitted_same g v (e.pulled 1)
  have hg := hi.inGroup (.inl hp)
  refine Inst.Inv.of_dispatch ?_ ?_ ?_ ?_ ?_ ?_ ?_ hR ?_
  · exact ((hi.stored.congr (e1 := e.pulled 1) rfl rfl rfl rfl rfl rfl rfl).emitted v).congr rfl rfl rfl rfl rfl rfl rfl
  · simp only [Inst.nextSub_sub, s4, Inst.pulled_sub]; omega
  · simp only [Inst.nextSub_copyRem, s7, Inst.pulled_copyRem]; exact hg.2
  · simp only [Inst.nextSub_refBuf, s6, Inst.pulled_refBuf]; exact hi.noPartialRef (by rw [hp]; simp)
  · simp only [Inst.nextSub_cause, s10, Inst.pulled_cause]; exact hi.causeIff.2 (by rw [hp]; simp)
  · simp only [Inst.nextSub_ctrl, s5, Inst.pulled_ctrl]; exact hi.ctrlWritten (.inl hp)
  · simp only [Inst.nextSub_cfg, s1, Inst.pulled_cfg]; exact hi.threshold
  · simp only [Inst.nextSub_consumed, s9, Inst.nextSub_outCount, emitted_outCount]
    exact ⟨hk, hk2⟩

theorem refToken_inv {k : Nat} {l o : Int} (hi : e.Inv g) (hp : e.phase = .ref)
    (h : refToken g k l o e = .next e1) : e1.Inv g := by
  obtain ⟨x, hx, h⟩ := andThen_next.1 h
  obtain ⟨hk, rfl⟩ := pullBytes_next.1 hx
  cases h
  have hg := hi.inGroup (.inr hp)
  have hst : Stored g ((e.pulled (k - e.refBuf.length)).setRefBuf []) := hi.stored.congr rfl rfl rfl rfl rfl rfl rfl
  have hsub : e.sub ≤ 8 := hi.subBound
  rcases resolve_cases g l o ((e.pulled (k - e.refBuf.length)).setRefBuf []) with ⟨-, hr⟩ | ⟨-, -, hr⟩ | ⟨hl, ho, hr⟩
  · rw [hr]; exact Inst.Inv.of_raise _ hst hsub rfl (by simp) hi.threshold ⟨hk, hi.counters.2⟩
  · rw [hr]; exact Inst.Inv.of_raise _ hst hsub rfl (by simp) hi.threshold ⟨hk, hi.counters.2⟩
  · rw [hr]
    obtain ⟨o1, o2, o3⟩ := offsetInvalid_false.1 ho
    simp only [Inst.setRefBuf_outCount, Inst.pulled_outCount, Inst.setRefBuf_mode, Inst.pulled_mode] at o2 o3
    have hst' : Stored g (((e.pulled (k - e.refBuf.length)).setRefBuf []).startCopy (distance o).toNat
        (copyLength e.cfg l).toNat) := hst.congr rfl rfl rfl rfl rfl rfl rfl
    have hthr : 1 ≤ e.cfg.threshold := Nat.le_trans (Nat.le_add_left 1 _) hi.threshold
    have hlen : 1 ≤ (copyLength e.cfg l).toNat := by unfold copyLength; omega
    have hd : (distance o).toNat ≤ e.outCount ∧ 1 ≤ (distance o).toNat := by unfold distance; omega
    exact
      { atCtrl := by intro h; exact absurd h (by simp)
        inGroup := by intro h; simp at h
        inCopy := by
          intro _
          refine ⟨hlen, hg.1, (distance o).toNat, rfl, hd.2, hd.1, fun hm => ?_⟩
          have := o3 hm
          unfold distance; omega
        subBound := hsub
        partialRef := by intro h; exact absurd h (by simp)
        noPartialRef := by intro _; rfl
        causeIff := by
          simp only [Inst.startCopy_cause, Inst.setRefBuf_cause, Inst.pulled_cause, Inst.startCopy_phase]
          exact ⟨fun _ => by simp, fun _ => hi.causeIff.2 (by rw [hp]; simp)⟩
        causeKind := hi.causeKind
        ctrlWritten := by intro _; exact hi.ctrlWritten (.inr (.inl hp))
        count := hst'.count
        threshold := hi.threshold
        ringWf := hst'.ringWf
        ringRange := hst'.ringRange
        window := hst'.window
        pendingBound := hst'.pendingBound
        bufferMode := hst'.bufferMode
        counters := ⟨hk, hi.counters.2⟩ }

theorem collectByte_inv {b : Byte} (hi : e.Inv g) (hp : e.phase = .ref) (hl : e.refBuf.length + 1 < g.refBytes)
    (h : collectByte g b e = .next e1) : e1.Inv g := by
  obtain ⟨x, hx, h⟩ := andThen_next.1 h
  obtain ⟨hk, rfl⟩ := pullBytes_next.1 hx
  cases h
  have hst : Stored g ((e.pulled 1).setRefBuf ((e.pulled 1).refBuf ++ [b])) := hi.stored.congr rfl rfl rfl rfl rfl rfl rfl
  exact
    { atCtrl := hi.atCtrl
      inGroup := hi.inGroup
      inCopy := hi.inCopy
      subBound := hi.subBound
      partialRef := by intro _; simpa using hl
      noPartialRef := by intro h; exact absurd hp h
      causeIff := hi.causeIff
      causeKind := hi.causeKind
      ctrlWritten := hi.ctrlWritten
      count := hst.count
      threshold := hi.threshold
      ringWf := hst.ringWf
      ringRange := hst.ringRange
      window := hst.window
      pendingBound := hst.pendingBound
      bufferMode := hst.bufferMode
      counters := ⟨hk, hi.counters.2⟩ }

/-- The end of a COPY step (R75). -/
theorem copyAdvance_eq (e : Inst) : copyAdvance e =
    if e.copyRem - 1 = 0 then completeToken (e.setCopyRem (e.copyRem - 1)) else e.setCopyRem (e.copyRem - 1) := rfl

theorem copyToken_inv (hi : e.Inv g) (hp : e.phase = .copy) (hR : 1 ≤ g.refBytes)
    (h : copyToken g e = .next e1) : e1.Inv g := by
  obtain ⟨b, -, h⟩ := andThen_next.1 h
  obtain ⟨y, hy, h⟩ := andThen_next.1 h
  obtain ⟨hk2, rfl⟩ := emit_next.1 hy
  cases h
  obtain ⟨s1, s2, s3, s4, s5, s6, s7, s8, s9, s10, s11, s12⟩ := emitted_same g b e
  obtain ⟨hrem, hsub, d, hd, hd1, hd2, hd3⟩ := hi.inCopy hp
  have hst : Stored g (emitted g b e) := hi.stored.emitted b
  have href : e.refBuf = [] := hi.noPartialRef (by rw [hp]; simp)
  have hcause : e.cause = .none := hi.causeIff.2 (by rw [hp]; simp)
  have hctrl : e.ctrl ≠ .unwritten := hi.ctrlWritten (.inr (.inr hp))
  rw [copyAdvance_eq]
  by_cases hz : (emitted g b e).copyRem - 1 = 0
  · rw [if_pos hz]
    refine Inst.Inv.of_dispatch ?_ ?_ ?_ ?_ ?_ ?_ ?_ hR ?_
    · exact hst.congr rfl rfl rfl rfl rfl rfl rfl
    · simp only [Inst.nextSub_sub, Inst.setCopyRem_sub, s4]; omega
    · exact hz
    · simp [s6, href]
    · simp [s10, hcause]
    · simpa [s5] using hctrl
    · simp only [Inst.nextSub_cfg, Inst.setCopyRem_cfg, s1]; exact hi.threshold
    · simp only [Inst.nextSub_consumed, Inst.setCopyRem_consumed, s9, Inst.nextSub_outCount, Inst.setCopyRem_outCount,
        emitted_outCount]
      exact ⟨hi.counters.1, hk2⟩
  · rw [if_neg hz]
    have hst' : Stored g ((emitted g b e).setCopyRem ((emitted g b e).copyRem - 1)) := hst.congr rfl rfl rfl rfl rfl rfl rfl
    have hph : (emitted g b e).phase = .copy := by rw [s3]; exact hp
    exact
      { atCtrl := by intro h; rw [Inst.setCopyRem_phase, hph] at h; exact absurd h (by simp)
        inGroup := by intro h; rw [Inst.setCopyRem_phase, hph] at h; simp at h
        inCopy := by
          intro _
          refine ⟨by rw [Inst.setCopyRem_copyRem]; omega, by rw [Inst.setCopyRem_sub, s4]; exact hsub, d, ?_, hd1, ?_, ?_⟩
          · rw [Inst.setCopyRem_copyDist, s8]; exact hd
          · rw [Inst.setCopyRem_outCount, emitted_outCount]; omega
          · rw [Inst.setCopyRem_mode, s2]; exact hd3
        subBound := by rw [Inst.setCopyRem_sub, s4]; exact hi.subBound
        partialRef := by intro h; rw [Inst.setCopyRem_phase, hph] at h; exact absurd h (by simp)
        noPartialRef := by intro _; rw [Inst.setCopyRem_refBuf, s6]; exact href
        causeIff := by rw [Inst.setCopyRem_cause, s10, Inst.setCopyRem_phase, hph]; simp [hcause]
        causeKind := by rw [Inst.setCopyRem_cause, s10]; exact hi.causeKind
        ctrlWritten := by intro _; rw [Inst.setCopyRem_ctrl, s5]; exact hctrl
        count := hst'.count
        threshold := by rw [Inst.setCopyRem_cfg, s1]; exact hi.threshold
        ringWf := hst'.ringWf
        ringRange := hst'.ringRange
        window := hst'.window
        pendingBound := hst'.pendingBound
        bufferMode := hst'.bufferMode
        counters := by
          rw [Inst.setCopyRem_consumed, s9, Inst.setCopyRem_outCount, emitted_outCount]
          exact ⟨hi.counters.1, hk2⟩ }

theorem endTruncToken_inv (hi : e.Inv g) (hp : e.phase = .lit ∨ e.phase = .ref)
    (h : endTruncToken e = .next e1) : e1.Inv g := by
  unfold endTruncToken at h
  rcases hp with hp | hp
  · simp only [hp] at h
    cases h
    exact Inst.Inv.of_raise _ (hi.stored.congr rfl rfl rfl rfl rfl rfl rfl) hi.subBound
      (hi.noPartialRef (by rw [hp]; simp)) (by simp) hi.threshold hi.counters
  · simp only [hp] at h
    cases h
    exact Inst.Inv.of_raise _ (hi.stored.congr rfl rfl rfl rfl rfl rfl rfl) hi.subBound rfl (by simp) hi.threshold hi.counters

/-- The engine reset meets the invariant (R29). -/
theorem engineReset_inv (c : Cfg) (m : Mode) (source : List SrcEvent) (hthr : g.thresholdMin ≤ c.threshold) :
    (engineReset c m source).Inv g := by
  have hc : g.countOk 0 = true := by
    unfold Generics.countOk
    split <;> simp
  exact
    { atCtrl := by intro _; simp
      inGroup := by intro h; simp at h
      inCopy := by intro h; simp at h
      subBound := by simp
      partialRef := by intro h; simp at h
      noPartialRef := by intro _; rfl
      causeIff := by simp
      causeKind := .inl rfl
      ctrlWritten := by intro h; simp at h
      count := rfl
      threshold := hthr
      ringWf := rfl
      ringRange := by intro c hc; simp at hc
      window := by intro _ n hn; simp at hn
      pendingBound := ⟨g.bufCap_pos, Nat.zero_le _⟩
      bufferMode := by intro _; simp
      counters := ⟨hc, hc⟩ }

end Sys2Proof.Machine
end

