-- ==== Sys2Proof/Laws/Fetch.lean ====
section
/-!
SUPPORT. What an engine's next step can be, by its phase (R57, R81), and that engine steps, copies and rounds keep the invariant.
-/

namespace Sys2Proof.Machine

/-- What `takeBytes` finds at the end of a known prefix of bytes: one more byte. -/
theorem takeBytes_bytes (n : Nat) (bs : List Byte) (evs : List SrcEvent) :
    takeBytes (bs.length + n) (bs.map .byte ++ evs) =
      match takeBytes n evs with
      | .ok (some cs, left) => .ok (some (bs ++ cs), left)
      | .ok (none, left) => .ok (none, left)
      | .error r => .error r := by
  induction bs with
  | nil =>
    simp only [List.length_nil, Nat.zero_add, List.map_nil, List.nil_append]
    split <;> simp_all
  | cons b bs ih =>
    have hl : (b :: bs).length + n = (bs.length + n) + 1 := by simp; omega
    rw [hl]
    simp only [List.map_cons, List.cons_append, takeBytes, ih]
    cases takeBytes n evs with
    | error r => rfl
    | ok p => obtain ⟨_ | cs, left⟩ := p <;> rfl

/-- Too few bytes are incomplete. -/
theorem takeBytes_short {n : Nat} {bs : List Byte} (h : bs.length < n) :
    takeBytes n (bs.map .byte) = .error .incomplete := by
  obtain ⟨k, rfl⟩ : ∃ k, n = bs.length + (k + 1) := ⟨n - bs.length - 1, by omega⟩
  have := takeBytes_bytes (k + 1) bs []
  simpa [takeBytes] using this

/-- Everything a fetch can give at CTRL or LIT: what stands at the head of the source (R65, R70). -/
theorem fetch_ctrl {g : Generics} {e : Inst} (hp : e.phase = .ctrl) :
    fetch g e = match e.src with
      | .byte c :: _ => .run (.ctrl c)
      | .eos :: _ => .run .endClean
      | .later :: _ => .later
      | .failed :: _ => .sourceFailed
      | [] => .waits := by
  unfold fetch Sys2Proof.decode fetchWindow decodeCtx
  simp only [hp]
  cases e.src with
  | nil => rfl
  | cons ev rest => cases ev <;> rfl

theorem fetch_lit {g : Generics} {e : Inst} (hp : e.phase = .lit) :
    fetch g e = match e.src with
      | .byte v :: _ => .run (.lit v)
      | .eos :: _ => .run .endTrunc
      | .later :: _ => .later
      | .failed :: _ => .sourceFailed
      | [] => .waits := by
  unfold fetch Sys2Proof.decode fetchWindow decodeCtx
  simp only [hp]
  cases e.src with
  | nil => rfl
  | cons ev rest => cases ev <;> rfl

theorem fetch_copy {g : Generics} {e : Inst} (hp : e.phase = .copy) : fetch g e = .run .copy := by
  unfold fetch Sys2Proof.decode decodeCtx
  simp only [hp]

theorem fetch_terminal {g : Generics} {e : Inst} (hp : e.phase.terminal = true) : fetch g e = .terminal := by
  unfold fetch Sys2Proof.decode decodeCtx
  cases h : e.phase <;> simp_all [Phase.terminal]

/-- Everything a fetch can give at REF (R71): the last byte of a code completes it, an earlier one is collected. -/
theorem fetch_ref {g : Generics} {e : Inst} (hp : e.phase = .ref) (hl : e.refBuf.length < g.refBytes) :
    fetch g e = match e.src with
      | .byte b :: _ =>
        if e.refBuf.length + 1 = g.refBytes then .run (decodeRef (decodeCtx g e) (e.refBuf ++ [b])) else .collect b
      | .eos :: _ => .run .endTrunc
      | .later :: _ => .later
      | .failed :: _ => .sourceFailed
      | [] => .waits := by
  obtain ⟨k, hk⟩ : ∃ k, g.refBytes = e.refBuf.length + (k + 1) := ⟨g.refBytes - e.refBuf.length - 1, by omega⟩
  have hctx : (decodeCtx g e).phase = .ref := hp
  have hgen : (decodeCtx g e).gen = g := rfl
  unfold fetch Sys2Proof.decode fetchWindow
  simp only [hp, hctx, hgen, hk]
  cases hs : e.src with
  | nil =>
    rw [takeBytes_bytes]
    simp [takeBytes]
  | cons ev rest =>
    rw [takeBytes_bytes]
    cases ev with
    | byte b =>
      cases k with
      | zero => simp [takeBytes]
      | succ k => simp [takeBytes]
    | eos => simp [takeBytes]
    | later => simp [takeBytes]
    | failed => simp [takeBytes]

/-- A complete reference code is a REF or one of its four layouts (R54, R71). -/
theorem engineExec_decodeRef (g : Generics) (c : DecodeCtx) (bytes : List Byte) (e : Inst) :
    ∃ k l o, engineExec g (decodeRef c bytes) e = refToken g k l o e ∧ (bytes.length = c.gen.refBytes → k = c.gen.refBytes) := by
  unfold decodeRef
  split
  · rename_i hc
    have hw : c.gen.presetWidths = true := by simp_all
    have hR : c.gen.refBytes = 2 := by
      simp only [Generics.presetWidths, Bool.and_eq_true, decide_eq_true_eq] at hw
      simp [Generics.refBytes, Generics.codeBits, hw.1, hw.2]
    split
    · rename_i b0 b1
      unfold decodeLayout
      split <;> exact ⟨2, _, _, rfl, fun _ => hR.symm⟩
    · exact ⟨bytes.length, _, _, rfl, fun h => h⟩
  · exact ⟨bytes.length, _, _, rfl, fun h => h⟩

/-- An engine step keeps the invariant (R30). -/
theorem engineStep_inv {g : Generics} {e e1 : Inst} (hi : e.Inv g) (hR : 1 ≤ g.refBytes)
    (h : engineStep g e = .next e1) : e1.Inv g := by
  have hpast : e.pastEvent.Inv g := { hi with }
  unfold engineStep at h
  cases hp : e.phase with
  | ctrl =>
    rw [fetch_ctrl hp] at h
    cases hs : e.src with
    | nil => simp only [hs] at h; cases h; exact hi
    | cons ev rest =>
      cases ev <;> simp only [hs] at h
      · exact ctrlToken_inv hi hp hR h
      · exact endCleanToken_inv hi hp h
      · cases h; exact hpast
      · cases h
  | lit =>
    rw [fetch_lit hp] at h
    cases hs : e.src with
    | nil => simp only [hs] at h; cases h; exact hi
    | cons ev rest =>
      cases ev <;> simp only [hs] at h
      · exact litToken_inv hi hp hR h
      · exact endTruncToken_inv hi (.inl hp) h
      · cases h; exact hpast
      · cases h
  | ref =>
    have hl := hi.partialRef hp
    rw [fetch_ref hp hl] at h
    cases hs : e.src with
    | nil => simp only [hs] at h; cases h; exact hi
    | cons ev rest =>
      cases ev <;> simp only [hs] at h
      · split at h
        · rename_i i heq
          split at heq
          · cases heq
            obtain ⟨k, l, o, he, -⟩ := engineExec_decodeRef g (decodeCtx g e) _ e
            rw [he] at h
            exact refToken_inv hi hp h
          · cases heq
        · rename_i b heq
          split at heq
          · cases heq
          · cases heq
            exact collectByte_inv hi hp (by omega) h
        all_goals (rename_i heq; split at heq <;> cases heq)
      · exact endTruncToken_inv hi (.inr hp) h
      · cases h; exact hpast
      · cases h
  | copy =>
    rw [fetch_copy hp] at h
    exact copyToken_inv hi hp hR h
  | done =>
    rw [fetch_terminal (by rw [hp]; rfl)] at h
    cases h; exact hi
  | failed =>
    rw [fetch_terminal (by rw [hp]; rfl)] at h
    cases h; exact hi

/-- The end of a copy step: the copy goes on with one byte less due, or the engine is at CTRL, LIT or REF. -/
theorem copyToken_due {g : Generics} {e e1 : Inst} (hp : e.phase = .copy) (h : copyToken g e = .next e1) :
    (e1.phase = .copy ∧ e1.copyRem = e.copyRem - 1 ∧ e.copyRem - 1 ≠ 0) ∨
    (e.copyRem - 1 = 0 ∧ (e1.phase = .ctrl ∨ e1.phase = .lit ∨ e1.phase = .ref)) := by
  obtain ⟨b, -, h⟩ := andThen_next.1 h
  obtain ⟨y, hy, h⟩ := andThen_next.1 h
  obtain ⟨-, rfl⟩ := emit_next.1 hy
  cases h
  obtain ⟨-, -, s3, -, -, -, s7, -⟩ := emitted_same g b e
  rw [copyAdvance_eq]
  by_cases hz : (emitted g b e).copyRem - 1 = 0
  · rw [if_pos hz]
    refine .inr ⟨by rw [← s7]; exact hz, ?_⟩
    rw [completeToken_eq]
    exact nextPhase_live _
  · rw [if_neg hz]
    refine .inl ⟨?_, ?_, ?_⟩
    · rw [Inst.setCopyRem_phase, s3]; exact hp
    · rw [Inst.setCopyRem_copyRem, s7]
    · rw [← s7]; exact hz

/-- The COPY steps of a reference keep the invariant, and leave an engine that is not in COPY (R75). -/
theorem runCopies_inv {g : Generics} {e e1 : Inst} (hi : e.Inv g) (hR : 1 ≤ g.refBytes)
    (h : runCopies g e = .next e1) : e1.Inv g ∧ e1.phase ≠ .copy := by
  suffices H : ∀ n (x : Inst), x.Inv g → (x.phase = .copy → n = x.copyRem) → (x.phase ≠ .copy → n = 0) →
      copySteps g n x = .next e1 → e1.Inv g ∧ e1.phase ≠ .copy by
    refine H _ e hi ?_ ?_ h
    · intro hp
      have := (hi.inCopy hp).1
      simp only [copiesDue, hp]; omega
    · intro hp
      cases hph : e.phase <;> simp_all [copiesDue]
  intro n
  induction n with
  | zero =>
    intro x hx h1 h2 h
    cases h
    refine ⟨hx, fun hp => ?_⟩
    have := (hx.inCopy hp).1
    have := h1 hp
    omega
  | succ n ih =>
    intro x hx h1 h2 h
    have hp : x.phase = .copy := by
      by_contra hp
      exact absurd (h2 hp) (by simp)
    obtain ⟨y, hy, h⟩ := andThen_next.1 h
    have hrem := h1 hp
    refine ih y (copyToken_inv hx hp hR hy) ?_ ?_ h
    · intro hyp
      rcases copyToken_due hp hy with ⟨-, h4, -⟩ | ⟨-, h4⟩
      · omega
      · rw [hyp] at h4; simp at h4
    · intro hyp
      rcases copyToken_due hp hy with ⟨h4, -⟩ | ⟨h4, -⟩
      · exact absurd h4 hyp
      · omega

/-- The loops of DECODE and RunRound keep the invariant (R82, R85). -/
theorem drive_inv {g : Generics} {stop : Inst → Bool} (hR : 1 ≤ g.refBytes) (evs : List SrcEvent) :
    ∀ {e e1 : Inst}, e.Inv g → drive g stop evs e = .next e1 → e1.Inv g := by
  induction evs with
  | nil => intro e e1 hi h; exact (runCopies_inv hi hR h).1
  | cons ev rest ih =>
    intro e e1 hi h
    obtain ⟨x, hx, h⟩ := andThen_next.1 h
    have hxi := (runCopies_inv hi hR hx).1
    split at h
    · cases h; exact hxi
    · obtain ⟨y, hy, h⟩ := andThen_next.1 h
      exact ih (engineStep_inv hxi hR hy) h

end Sys2Proof.Machine
end

