-- ==== Sys2Proof/Laws/PerInstr.lean ====
section
/-!
SUPPORT. Per instruction: its encoding has as many bytes as R57 says (the family EncodedBytes).
-/

namespace Sys2Proof.Laws.EncodedBytes

/-- The column "bytes" of R57; a host operation and COPY have none. -/
def tokenBytes (g : Generics) : Instr → Nat
  | .ctrl _ => 1
  | .endClean => 0
  | .lit _ => 1
  | .ref _ => g.refBytes
  | .refLsbLenlow _ _ => g.refBytes
  | .refMsbLenlow _ _ => g.refBytes
  | .refLsbLenhigh _ _ => g.refBytes
  | .refMsbLenhigh _ _ => g.refBytes
  | .copy => 0
  | .endTrunc => 0
  | .construct _ _ _ _ => 0
  | .decode _ _ => 0
  | .openStream _ _ => 0
  | .read _ _ => 0
  | .close _ => 0
  | .status _ => 0

/-- The element is an answered byte. -/
def isByte : SrcEvent → Bool
  | .byte _ => true
  | .eos => false
  | .later => false
  | .failed => false

/-- A well-formed instruction's encoding holds as many bytes as R57 says (R55). -/
def Statement (i : Instr) : Prop :=
  ∀ g evs, i.wf g = true → encode i = some evs → (evs.filter isByte).length = tokenBytes g i

theorem refBytes_of_presetWidths {g : Generics} (h : g.presetWidths = true) : g.refBytes = 2 := by
  simp only [Generics.presetWidths, Bool.and_eq_true, decide_eq_true_eq] at h
  simp [Generics.refBytes, Generics.codeBits, h.1, h.2]

theorem filter_bytes (bs : List Byte) : (bs.map SrcEvent.byte).filter isByte = bs.map SrcEvent.byte := by
  simp [List.filter_map, Function.comp_def, isByte]

theorem ctrl (c : Byte) : Statement (.ctrl c) := by intro g evs _ h; cases h; rfl

theorem endClean : Statement .endClean := by intro g evs _ h; cases h; rfl

theorem lit (v : Byte) : Statement (.lit v) := by intro g evs _ h; cases h; rfl

theorem ref (bytes : List Byte) : Statement (.ref bytes) := by
  intro g evs hw h
  cases h
  rw [filter_bytes, List.length_map]
  show bytes.length = g.refBytes
  simpa [Instr.wf] using hw

/-- The two bytes of a layout of R54. -/
theorem layout {i : Instr} {b0 b1 : Byte} {p : Generics → Bool} (he : encode i = some [.byte b0, .byte b1])
    (hw : ∀ g, i.wf g = (g.presetWidths && p g)) (ht : ∀ g, tokenBytes g i = g.refBytes) : Statement i := by
  intro g evs h1 h2
  rw [he] at h2
  cases h2
  rw [ht, refBytes_of_presetWidths (by rw [hw] at h1; exact (Bool.and_eq_true _ _ ▸ h1).1)]
  rfl

theorem refLsbLenlow (l : BitVec 4) (o : BitVec 12) : Statement (.refLsbLenlow l o) :=
  layout rfl (fun _ => rfl) (fun _ => rfl)

theorem refMsbLenlow (l : BitVec 4) (o : BitVec 12) : Statement (.refMsbLenlow l o) :=
  layout rfl (fun _ => rfl) (fun _ => rfl)

theorem refLsbLenhigh (l : BitVec 4) (o : BitVec 12) : Statement (.refLsbLenhigh l o) :=
  layout rfl (fun _ => rfl) (fun _ => rfl)

theorem refMsbLenhigh (l : BitVec 4) (o : BitVec 12) : Statement (.refMsbLenhigh l o) :=
  layout rfl (fun _ => rfl) (fun _ => rfl)

theorem copy : Statement .copy := by intro g evs _ h; cases h; rfl

theorem endTrunc : Statement .endTrunc := by intro g evs _ h; cases h; rfl

theorem construct (oc : Int) (ca : CtrlArg) (ra : RefArg) (ta : ThrArg) : Statement (.construct oc ca ra ta) := by
  intro g evs _ h; cases h

theorem decode (d : Nat) (input : List Byte) : Statement (.decode d input) := by intro g evs _ h; cases h

theorem openStream (d : Nat) (source : List SrcEvent) : Statement (.openStream d source) := by intro g evs _ h; cases h

theorem read (i n : Nat) : Statement (.read i n) := by intro g evs _ h; cases h

theorem close (i : Nat) : Statement (.close i) := by intro g evs _ h; cases h

theorem status (i : Nat) : Statement (.status i) := by intro g evs _ h; cases h

end Sys2Proof.Laws.EncodedBytes
end

