-- ==== Sys2Proof/Laws/Spec.lean ====
section
/-!
SUPPORT. The operations agree with their one-record forms in Safety.lean (R37, R38, R93), which the statements use.
-/

namespace Sys2Proof.Machine

theorem flushIfStream_eq_flushSpec (e : Inst) : flushIfStream e = flushSpec e := by
  unfold flushIfStream flushSpec
  split <;> rename_i h <;> simp [h, flush, Inst.flushTo]

theorem raise_eq_raiseSpec (c : Cause) (e : Inst) : raise c e = raiseSpec c e := by
  unfold raise raiseSpec
  rw [flushIfStream_eq_flushSpec]
  rfl

theorem emit_eq_emitSpec {g : Generics} (v : Byte) {e : Inst} (h : g.countOk (e.outCount + 1) = true) :
    emit g v e = .next (emitSpec g v e) := by
  unfold emit
  rw [if_pos h]
  cases hm : e.mode with
  | buffer => simp [emitSpec, hm, Inst.append]
  | stream =>
    simp only [flushIfFull, ringEmit, Inst.setRing, Inst.append, flush, Inst.flushTo, memWrite, ringSlot, emitSpec, hm]
    by_cases hf : e.pending + 1 = g.bufCap <;> simp [hf]

/-- The phase after a completed token, when `ctrl` holds `c`. -/
theorem completeToken_eq_phaseAfter {e : Inst} {c : Byte} (h : e.ctrl = .holds c) :
    completeToken e = { e with sub := e.sub + 1, phase := phaseAfter e c } := by
  unfold completeToken dispatch phaseAfter isLiteralNow ctrlValue Inst.nextSub
  by_cases h8 : e.sub + 1 = 8
  · simp [h8, Inst.goto]
  · by_cases hl : applyIsLit e.cfg.isLit c (e.sub + 1) = true <;> simp [h8, h, hl, Inst.goto]

/-- `startCopy` on R53's operands is the start of the copy as the statements write it. -/
theorem startCopy_eq_copyStarted (e : Inst) (length offset : Int) :
    e.startCopy (distance offset).toNat (copyLength e.cfg length).toNat = copyStarted e length offset := rfl

end Sys2Proof.Machine
end

