-- ==== Sys2Proof/Laws/Step.lean ====
section
/-!
SUPPORT. All that one step of the machine can do, and all that each host operation can do (R79 to R88).
-/

namespace Sys2Proof.Machine

/-- All that a step can do: nothing, the host's next operation, or one engine step of the READ under way (R79, R81, R99). -/
theorem step_cases {s t : State} (h : step s = .next t) :
    (s.op = none ∧ s.calls = [] ∧ t = s) ∨
    (∃ c rest, s.op = none ∧ s.calls = c :: rest ∧ exec c.toInstr (s.setCalls rest) = .next t) ∨
    (∃ r e, s.op = some r ∧ s.insts[r.inst]? = some e ∧
      ((∃ i u, fetch s.gen e = .run i ∧ exec i s = .next u ∧ t = settle u) ∨
       (∃ b e1, fetch s.gen e = .collect b ∧ collectByte s.gen b e = .next e1 ∧ t = s.setInst r.inst e1) ∨
       (fetch s.gen e = .waits ∧ t = s) ∨
       (fetch s.gen e = .later ∧ t = s.setInst r.inst e.pastEvent) ∨
       (fetch s.gen e = .terminal ∧ t = settle s))) := by
  unfold step stepWith at h
  split at h
  · rename_i hop
    unfold nextCall at h
    split at h
    · rename_i hc
      cases h
      exact .inl ⟨hop, hc, rfl⟩
    · rename_i c rest hc
      exact .inr (.inl ⟨c, rest, hop, hc, h⟩)
  · rename_i r hop
    split at h
    · cases h
    · rename_i e hi
      refine .inr (.inr ⟨r, e, hop, hi, ?_⟩)
      unfold goOn at h
      cases hf : fetch s.gen e with
      | run i =>
        simp only [hf] at h
        obtain ⟨u, hu, h⟩ := andThen_next.1 h
        cases h
        exact .inl ⟨i, u, rfl, hu, rfl⟩
      | collect b =>
        simp only [hf] at h
        obtain ⟨e1, he, h⟩ := andThen_next.1 h
        cases h
        exact .inr (.inl ⟨b, e1, rfl, he, rfl⟩)
      | waits => simp only [hf] at h; cases h; exact .inr (.inr (.inl ⟨rfl, rfl⟩))
      | later => simp only [hf] at h; cases h; exact .inr (.inr (.inr (.inl ⟨rfl, rfl⟩)))
      | sourceFailed => simp only [hf] at h; cases h
      | terminal => simp only [hf] at h; cases h; exact .inr (.inr (.inr (.inr ⟨rfl, rfl⟩)))

/-- All that CONSTRUCT can do (R59, R61). -/
theorem execConstruct_cases {oc : Int} {ca : CtrlArg} {ra : RefArg} {ta : ThrArg} {s t : State}
    (h : execConstruct oc ca ra ta s = .next t) :
    s.gen.supported = true ∧
      ((∃ c, constructCfg s.gen oc ca ra ta = .error c ∧ t = s.addResult (.constructError c)) ∨
       (∃ cfg, constructCfg s.gen oc ca ra ta = .ok cfg ∧ t = (s.addDecoder cfg).addResult (.constructed cfg))) := by
  unfold execConstruct at h
  split at h
  · rename_i hs
    refine ⟨hs, ?_⟩
    split at h
    · rename_i c hc
      cases h
      exact .inl ⟨c, hc, rfl⟩
    · rename_i cfg hc
      cases h
      exact .inr ⟨cfg, hc, rfl⟩
  · cases h

/-- A constructed configuration's threshold is legal (R59). -/
theorem constructCfg_threshold {g : Generics} {oc : Int} {ca : CtrlArg} {ra : RefArg} {ta : ThrArg} {cfg : Cfg}
    (h : constructCfg g oc ca ra ta = .ok cfg) : g.thresholdMin ≤ cfg.threshold := by
  unfold constructCfg at h
  split at h
  · cases h
  · split at h
    · cases h
    · split at h
      · cases h
      · cases h
        simp only
        omega

/-- All that DECODE can do (R82). -/
theorem execDecode_cases {d : Nat} {input : List Byte} {s t : State} (h : execDecode d input s = .next t) :
    ∃ c e, s.decoders[d]? = some c ∧ decodeRun s.gen c input = .next e ∧
      t = (s.addInst e).addResult (decodeResult e) := by
  unfold execDecode at h
  split at h
  · cases h
  · rename_i c hc
    obtain ⟨e, he, h⟩ := andThen_next.1 h
    cases h
    exact ⟨c, e, hc, he, rfl⟩

/-- All that OPEN can do (R84). -/
theorem execOpen_cases {d : Nat} {source : List SrcEvent} {s t : State} (h : execOpen d source s = .next t) :
    ∃ c, s.decoders[d]? = some c ∧ t = s.addInst (engineReset c .stream source) := by
  unfold execOpen at h
  split at h
  · cases h
  · rename_i c hc
    cases h
    exact ⟨c, hc, rfl⟩

/-- All that READ can do (R86). -/
theorem execRead_cases {i n : Nat} {s t : State} (h : execRead i n s = .next t) :
    ∃ e, s.op = none ∧ s.insts[i]? = some e ∧ e.mode = .stream ∧
      ((e.closed = true ∧ t = s.addResult (.read i [] (.error .closed))) ∨
       (e.closed = false ∧ n = 0 ∧ t = s.addResult (.read i [] .data)) ∨
       (e.closed = false ∧ n ≠ 0 ∧ ∃ bs k e1, readNow n e = some (bs, k, e1) ∧
          t = (s.setInst i e1).addResult (.read i bs k)) ∨
       (e.closed = false ∧ n ≠ 0 ∧ readNow n e = none ∧ ∃ e1, drive s.gen readStop e.src e = .next e1 ∧
          t = settle ((s.setInst i e1).setOp (some ⟨i, n⟩)))) := by
  unfold execRead at h
  split at h
  · cases h
  · rename_i hop
    split at h
    · cases h
    · rename_i e hi
      cases hm : e.mode with
      | buffer => simp only [hm] at h; cases h
      | stream =>
        simp only [hm] at h
        refine ⟨e, by simpa using hop, hi, hm, ?_⟩
        split at h
        · rename_i hc
          cases h
          exact .inl ⟨hc, rfl⟩
        · rename_i hc
          have hc : e.closed = false := by simpa using hc
          split at h
          · rename_i hn
            cases h
            exact .inr (.inl ⟨hc, hn, rfl⟩)
          · rename_i hn
            unfold readOpen at h
            split at h
            · rename_i bs k e1 hr
              cases h
              exact .inr (.inr (.inl ⟨hc, hn, bs, k, e1, hr, rfl⟩))
            · rename_i hr
              obtain ⟨e1, he, h⟩ := andThen_next.1 h
              cases h
              exact .inr (.inr (.inr ⟨hc, hn, hr, e1, he, rfl⟩))

/-- All that CLOSE can do (R87). -/
theorem execClose_cases {i : Nat} {s t : State} (h : execClose i s = .next t) :
    ∃ e, s.busy i = false ∧ s.insts[i]? = some e ∧ e.mode = .stream ∧
      t = (s.setInst i e.shut).addResult (.closedOk i) := by
  unfold execClose at h
  split at h
  · cases h
  · rename_i hb
    split at h
    · cases h
    · rename_i e hi
      cases hm : e.mode with
      | buffer => simp only [hm] at h; cases h
      | stream =>
        simp only [hm] at h
        cases h
        exact ⟨e, by simpa using hb, hi, hm, rfl⟩

/-- All that STATUS can do (R88). -/
theorem execStatus_cases {i : Nat} {s t : State} (h : execStatus i s = .next t) :
    ∃ e, s.busy i = false ∧ s.insts[i]? = some e ∧ t = s.addResult (statusResult e) := by
  unfold execStatus at h
  split at h
  · cases h
  · rename_i hb
    split at h
    · cases h
    · rename_i e hi
      cases h
      exact ⟨e, by simpa using hb, hi, rfl⟩

end Sys2Proof.Machine
end

