-- ==== Sys2Proof/Tests/Slice0.lean ====
section
/-!
SUPPORT. Small tests: ill-formed terms, words written out from the encodings, the vectors of 95_test_vectors.md, and for every
statement of the obligations with hypotheses a witness that meets them.
-/

namespace Sys2Proof.Tests

open Sys2Proof Sys2Proof.Machine

/-! ## Helpers -/

/-- The small configuration of program P4. -/
def small : Generics := ⟨4, 4, .lengthLow, none⟩

/-- CONSTRUCT(0, Omitted, Omitted, Omitted) in the small configuration. -/
def smallCfg : Cfg := { order := .lsb, isLit := .default, decRef := .default, threshold := 2 }

/-- A table that gives the pair `(l, o)` everywhere. -/
def constRef (l o : Int) : RefFn := .supplied { entries := [], other := (l, o) }

/-- The next state, where there is one. -/
def nextOf {α : Type} : Res α → Option α
  | .next a => some a
  | .fault _ => none
  | .refused _ => none

/-- The refusal, where there is one. -/
def refusalOf {α : Type} : Res α → Option Refusal
  | .next _ => none
  | .fault _ => none
  | .refused r => some r

/-- What is left of a Decode result that `decide` can compare. -/
def decoded (r : Except Reject (Instr × List SrcEvent)) : Option (Instr × List SrcEvent) :=
  match r with
  | .ok x => some x
  | .error _ => none

/-- The reason a Decode result gives. -/
def rejected (r : Except Reject (Instr × List SrcEvent)) : Option Reject :=
  match r with
  | .ok _ => none
  | .error e => some e

/-- DECODE's triple (R89) and the STATUS word after it. -/
def triple (g : Generics) (c : Cfg) (input : List Byte) : Option (List Byte × Cause × Nat × BitVec 16) :=
  (nextOf (decodeRun g c input)).map fun e => (e.hist, e.cause, e.consumed, statusWord e)

/-- One instance, with a READ of one byte under way on it. -/
def running (g : Generics) (e : Inst) : State :=
  { gen := g, decoders := [e.cfg], insts := [e], op := some ⟨0, 1⟩, calls := [], results := [] }

/-- One instance, and no operation under way. -/
def idle (g : Generics) (e : Inst) : State :=
  { gen := g, decoders := [e.cfg], insts := [e], op := none, calls := [], results := [] }

/-- Several READs, CLOSEs and STATUSes in turn. -/
def hostRun : List Instr → State → Res State
  | [], s => .next s
  | i :: rest, s => andThen (exec i s) (hostRun rest)

/-- The results of host operations on one adapter in the default preset. -/
def session (src : List SrcEvent) (ops : List Instr) : Option (List HostResult) :=
  (nextOf (hostRun (.openStream 0 src :: ops) { State.reset with decoders := [tableCfg] })).map fun s => s.results

/-- A literal is due, after the control byte 00. -/
def atLit (m : Mode) (src : List SrcEvent) : Inst :=
  { engineReset tableCfg m src with phase := .lit, ctrl := .holds 0x00#8, consumed := 1 }

/-- A reference is due, after the control byte 40 and the literal `A`, with `bs` of its bytes collected. -/
def atRef (c : Cfg) (bs : List Byte) (src : List SrcEvent) : Inst :=
  { engineReset c .stream src with
    phase := .ref, ctrl := .holds 0x40#8, sub := 1, hist := [0x41#8], outCount := 1, consumed := 2 + bs.length
    refBuf := bs, ring := [(0, 0x41#8)], pending := 1 }

/-- That reference's copy, with `n` bytes to go at distance 1. -/
def atCopy (n : Nat) (src : List SrcEvent) : Inst :=
  { atRef tableCfg [] src with phase := .copy, copyRem := n, copyDist := .holds 1, consumed := 4 }

/-- An engine that failed after the literal `A`, with `A` ready. -/
def atFailed : Inst :=
  { atRef tableCfg [] [] with phase := .failed, cause := .offset, pending := 0, ready := [0x41#8], consumed := 4 }

/-! ## Ill-formed terms -/

theorem test_wf_ref_length : (Instr.ref [0x12#8]).wf .preset = false ∧ (Instr.ref [0x12#8, 0x34#8]).wf .preset = true := by decide

theorem test_wf_layout_split :
    (Instr.refLsbLenhigh 3#4 0x412#12).wf .preset = false ∧ (Instr.refMsbLenhigh 3#4 0x412#12).wf .preset = false ∧
    (Instr.refLsbLenlow 3#4 0x412#12).wf ⟨12, 4, .lengthHigh, none⟩ = false ∧
    (Instr.refMsbLenlow 3#4 0x412#12).wf ⟨12, 4, .lengthHigh, none⟩ = false := by decide

theorem test_wf_layout_widths :
    (Instr.refLsbLenlow 3#4 0x412#12).wf small = false ∧ (Instr.refLsbLenlow 3#4 0x412#12).wf ⟨12, 12, .lengthLow, none⟩ = false := by
  decide

theorem test_wf_source :
    (Instr.openStream 0 [.failed]).wf .preset = false ∧ (Instr.openStream 0 [.eos, .byte 0#8]).wf .preset = false ∧
    (Instr.openStream 0 [.byte 0#8, .later, .eos]).wf .preset = true := by decide

theorem test_wf_ctrl_table :
    (Instr.construct 0 (.fn ⟨[((0#8, 8), true)], false⟩) .omitted .omitted).wf .preset = false ∧
    (Instr.construct 0 (.fn ⟨[((0#8, 7), true)], false⟩) .omitted .omitted).wf .preset = true := by decide

theorem test_wf_ref_table :
    (Instr.construct 0 .omitted (.fn ⟨[(([0#8], .lsb), (0, 0))], (0, 0)⟩) .omitted).wf .preset = false ∧
    (Instr.construct 0 .omitted (.fn ⟨[(([0#8], .lsb), (0, 0))], (0, 0)⟩) .omitted).wf small = true := by decide

/-! ## Decoding words written out from the encodings -/

/-- R48: c = 1010_0101. -/
theorem test_decode_ctrl :
    decoded (Sys2Proof.decode ⟨.ctrl, .preset, .lsb, false⟩ [.byte 0b10100101#8, .byte 1#8]) = some (.ctrl 0xA5#8, [.byte 1#8]) := by
  decide

/-- R57: EOS where a control byte is expected. -/
theorem test_decode_endClean : decoded (Sys2Proof.decode ⟨.ctrl, .preset, .lsb, false⟩ [.eos]) = some (.endClean, []) := by decide

/-- R49: v = 0100_0001. -/
theorem test_decode_lit :
    decoded (Sys2Proof.decode ⟨.lit, .preset, .msb, false⟩ [.byte 0b01000001#8, .eos]) = some (.lit 0x41#8, [.eos]) := by decide

/-- R54, LSB and LENGTH_LOW: b0 = O[3:0] L = 0001 0010, b1 = O[11:8] O[7:4] = 0011 0100. -/
theorem test_decode_lsb_lenlow :
    decoded (Sys2Proof.decode ⟨.ref, .preset, .lsb, false⟩ [.byte 0b00010010#8, .byte 0b00110100#8]) =
      some (.refLsbLenlow 0b0010#4 0b001101000001#12, []) := by decide

/-- R54, MSB and LENGTH_LOW: b0 = O[11:8] O[7:4], b1 = O[3:0] L. -/
theorem test_decode_msb_lenlow :
    decoded (Sys2Proof.decode ⟨.ref, .preset, .msb, false⟩ [.byte 0b00010010#8, .byte 0b00110100#8]) =
      some (.refMsbLenlow 0b0100#4 0b000100100011#12, []) := by decide

/-- R54, LSB and LENGTH_HIGH: b0 = O[7:4] O[3:0], b1 = L O[11:8]. -/
theorem test_decode_lsb_lenhigh :
    decoded (Sys2Proof.decode ⟨.ref, ⟨12, 4, .lengthHigh, none⟩, .lsb, false⟩ [.byte 0b00010010#8, .byte 0b00110100#8]) =
      some (.refLsbLenhigh 0b0011#4 0b010000010010#12, []) := by decide

/-- R54, MSB and LENGTH_HIGH: b0 = L O[11:8], b1 = O[7:4] O[3:0]. -/
theorem test_decode_msb_lenhigh :
    decoded (Sys2Proof.decode ⟨.ref, ⟨12, 4, .lengthHigh, none⟩, .msb, false⟩ [.byte 0b00010010#8, .byte 0b00110100#8]) =
      some (.refMsbLenhigh 0b0001#4 0b001000110100#12, []) := by decide

/-- V2: the pairs `0F 00` and `F0 FF` in each layout, and `5A` in the small configuration. -/
theorem test_decode_fields :
    defaultFields .preset .lsb [0x0F#8, 0x00#8] = (15, 0) ∧ defaultFields .preset .msb [0x0F#8, 0x00#8] = (0, 240) ∧
    defaultFields ⟨12, 4, .lengthHigh, none⟩ .lsb [0x0F#8, 0x00#8] = (0, 15) ∧
    defaultFields ⟨12, 4, .lengthHigh, none⟩ .msb [0x0F#8, 0x00#8] = (0, 3840) ∧
    defaultFields .preset .lsb [0xF0#8, 0xFF#8] = (0, 4095) ∧ defaultFields .preset .msb [0xF0#8, 0xFF#8] = (15, 3855) ∧
    defaultFields ⟨12, 4, .lengthHigh, none⟩ .lsb [0xF0#8, 0xFF#8] = (15, 4080) ∧
    defaultFields ⟨12, 4, .lengthHigh, none⟩ .msb [0xF0#8, 0xFF#8] = (15, 255) ∧
    defaultFields small .lsb [0x5A#8] = (10, 5) := by decide

/-- R50: the generic REF in the small configuration, one byte. -/
theorem test_decode_ref :
    decoded (Sys2Proof.decode ⟨.ref, small, .lsb, false⟩ [.byte 0x0F#8, .byte 2#8]) = some (.ref [0x0F#8], [.byte 2#8]) := by decide

/-- R75: a COPY step pulls nothing. -/
theorem test_decode_copy : decoded (Sys2Proof.decode ⟨.copy, .preset, .lsb, false⟩ [.byte 1#8]) = some (.copy, [.byte 1#8]) := by
  decide

/-- R57, R71: EOS in LIT, and after one byte of a two-byte code. -/
theorem test_decode_endTrunc :
    decoded (Sys2Proof.decode ⟨.lit, .preset, .lsb, false⟩ [.eos]) = some (.endTrunc, []) ∧
    decoded (Sys2Proof.decode ⟨.ref, .preset, .lsb, false⟩ [.byte 0#8, .eos]) = some (.endTrunc, []) := by decide

/-- Rejections by name. -/
theorem test_decode_rejects :
    rejected (Sys2Proof.decode ⟨.ref, .preset, .lsb, false⟩ [.byte 0#8]) = some .incomplete ∧
    rejected (Sys2Proof.decode ⟨.lit, .preset, .lsb, false⟩ [.later]) = some .withheld ∧
    rejected (Sys2Proof.decode ⟨.ctrl, .preset, .lsb, false⟩ [.failed]) = some .sourceFailed ∧
    rejected (Sys2Proof.decode ⟨.done, .preset, .lsb, false⟩ [.eos]) = some .terminal ∧
    rejected (Sys2Proof.decode ⟨.failed, .preset, .lsb, false⟩ [.eos]) = some .terminal := by decide

/-- R58, V6: the assembler's bytes of `REF off=1 len=2` in the four layouts. -/
theorem test_encodeRef :
    encodeRef .preset .lsb 2 1 = [0x12#8, 0x00#8] ∧ encodeRef .preset .msb 2 1 = [0x00#8, 0x12#8] ∧
    encodeRef ⟨12, 4, .lengthHigh, none⟩ .lsb 2 1 = [0x01#8, 0x20#8] ∧
    encodeRef ⟨12, 4, .lengthHigh, none⟩ .msb 2 1 = [0x20#8, 0x01#8] := by decide

/-- The host's table words: no byte, one byte, and two bytes with the first lowest. -/
theorem test_table_words :
    decodeTableWord 0 0 = some .endClean ∧ decodeTableWord 8 0xA5 = some (.ctrl 0xA5#8) ∧
    decodeTableWord 16 0x3412 = some (.refLsbLenlow 2#4 0x341#12) := by decide

/-- A placed control byte is run by the next step. -/
theorem test_placed_ctrl :
    ((nextOf (step (State.reset.withFetchWord 8 0x20))).bind fun t => t.insts[0]?).map
      (fun e => (e.phase, e.sub, e.consumed)) = some (.lit, 0, 1) := by decide

/-- A placed reference is run by the next step: at the start of the history it fails with OFFSET (R74). -/
theorem test_placed_ref :
    ((nextOf (step (State.reset.withFetchWord 16 0))).bind fun t => t.insts[0]?).map
      (fun e => (e.phase, e.cause, e.consumed)) = some (.failed, .offset, 2) := by decide

/-! ## The control function and CONSTRUCT -/

/-- V1: A5 gives REF LIT REF LIT LIT REF LIT REF. -/
theorem test_isLiteral :
    (List.range 8).map (defaultIsLiteral 0xA5#8) = [false, true, false, true, true, false, true, false] ∧
    (List.range 8).map (defaultIsLiteral 0x01#8) = [true, true, true, true, true, true, true, false] := by decide

/-- V3, and R60's order. -/
theorem test_construct :
    (nextOf (exec (.construct 1 .omitted .omitted (.value 100)) .reset)).map (fun s => s.decoders) =
      some [{ order := .msb, isLit := .default, decRef := .default, threshold := 100 }] ∧
    (nextOf (exec (.construct 5 .null .null (.value 0)) .reset)).map (fun s => s.results) = some [.constructError .unknownOrder] ∧
    (nextOf (exec (.construct 1 (.fn ⟨[], true⟩) .null (.value 0)) .reset)).map (fun s => s.results) =
      some [.constructError .nilParameter] ∧
    (nextOf (exec (.construct 0 .omitted .omitted (.value 2)) .reset)).map (fun s => s.results) =
      some [.constructError .thresholdTooSmall] := by decide

/-- V3: the refused shapes. -/
theorem test_construct_refused :
    refusalOf (exec (.construct 0 .omitted .omitted .omitted) { State.reset with gen := ⟨12, 3, .lengthLow, none⟩ }) =
      some .unsupportedInstantiation ∧
    refusalOf (exec (.construct 0 .omitted .omitted .omitted) { State.reset with gen := ⟨28, 12, .lengthLow, none⟩ }) =
      some .unsupportedInstantiation := by decide

/-! ## DECODE -/

/-- V4.1: the empty input. -/
theorem test_decode_empty : triple .preset tableCfg [] = some ([], .none, 0, 0x0004#16) := by decide

/-- V4.4: partial output kept. -/
theorem test_decode_truncated :
    triple .preset tableCfg [0x00#8, 0x41#8, 0x42#8, 0x43#8] = some ([0x41#8, 0x42#8, 0x43#8], .unexpectedEof, 4, 0x021D#16) := by
  decide

/-- V5.2: period 2, an overlapping copy. -/
theorem test_decode_overlap :
    triple .preset tableCfg [0x20#8, 0x41#8, 0x42#8, 0x12#8, 0x00#8, 0x43#8, 0x44#8, 0x45#8, 0x46#8, 0x47#8] =
      some ([0x41#8, 0x42#8, 0x41#8, 0x42#8, 0x41#8, 0x42#8, 0x41#8, 0x43#8, 0x44#8, 0x45#8, 0x46#8, 0x47#8], .none, 10,
        0x0044#16) := by decide

/-- P3: a failing reference. -/
theorem test_decode_offset :
    triple .preset tableCfg [0x40#8, 0x51#8, 0x10#8, 0x00#8] = some ([0x51#8], .offset, 4, 0x030D#16) := by decide

/-- V7.1 to V7.3: supplied reference functions. -/
theorem test_decode_supplied :
    triple .preset { tableCfg with decRef := constRef (-1) 0 } [0x40#8, 0x41#8, 0x00#8, 0x00#8] =
      some ([0x41#8], .chunkLength, 4, 0x028D#16) ∧
    triple .preset { tableCfg with decRef := constRef 0 (-1) } [0x40#8, 0x41#8, 0x00#8, 0x00#8] =
      some ([0x41#8], .offset, 4, 0x030D#16) ∧
    triple .preset { tableCfg with decRef := constRef (-1) (-1) } [0x40#8, 0x41#8, 0x00#8, 0x00#8] =
      some ([0x41#8], .chunkLength, 4, 0x028D#16) := by decide

/-- V5.4 by R83's function: the failing reference emits nothing. -/
theorem test_decodeFunction :
    decodeFunction .preset tableCfg [0x10#8, 0x41#8, 0x42#8, 0x43#8, 0x30#8, 0x00#8] = ([0x41#8, 0x42#8, 0x43#8], .offset, 6) := by
  decide

/-! ## The adapter -/

/-- V9.1, shortened to one result each: DATA, DATA, END. -/
theorem test_session_reads :
    session [.byte 0x00#8, .byte 0x41#8, .byte 0x42#8, .byte 0x43#8, .byte 0x44#8, .byte 0x45#8, .byte 0x46#8, .byte 0x47#8,
        .byte 0x48#8, .eos] [.read 0 5, .read 0 5, .read 0 5] =
      some [.read 0 [0x41#8, 0x42#8, 0x43#8, 0x44#8, 0x45#8] .data, .read 0 [0x46#8, 0x47#8, 0x48#8] .data,
        .read 0 [] .endOfStream] := by decide

/-- V9.3: the error after the bytes, every time. -/
theorem test_session_error :
    session [.byte 0x00#8, .byte 0x41#8, .eos] [.read 0 10, .read 0 10, .read 0 10] =
      some [.read 0 [0x41#8] .data, .read 0 [] (.error .unexpectedEof), .read 0 [] (.error .unexpectedEof)] := by decide

/-- W4: closed before the first READ. -/
theorem test_session_close :
    session [.byte 0x00#8] [.close 0, .read 0 4, .read 0 0, .close 0] =
      some [.closedOk 0, .read 0 [] (.error .closed), .read 0 [] (.error .closed), .closedOk 0] := by decide

/-- V9.5 and V9.7: STATUS after READ(0), and after the end of an empty source. -/
theorem test_session_status :
    session [.eos] [.read 0 0, .status 0, .read 0 1, .status 0] =
      some [.read 0 [] .data, .status 0x0800#16 0 0 (some 0), .read 0 [] .endOfStream, .status 0x0804#16 0 0 (some 0)] := by decide

/-- A READ waits while the source withholds, and returns in the step that lets it. -/
theorem test_read_waits :
    (nextOf (hostRun [.openStream 0 [.later, .eos], .read 0 1] { State.reset with decoders := [tableCfg] })).map
      (fun s => (s.op, s.results)) = some (some ⟨0, 1⟩, []) ∧
    ((nextOf (step (running .preset (engineReset tableCfg .stream [.eos])))).map fun s => (s.op, s.results)) =
      some (none, [.read 0 [] .endOfStream]) := by decide

/-! ## Invariants of the helper states -/

/-- A machine with one instance meets the invariant when its parts do. -/
theorem single_inv (g : Generics) (e : Inst) (op : Option Running) (results : List HostResult)
    (hs : g.supported = true) (he : e.Inv g) (hb : op = none → e.phase.boundary = true)
    (hop : ∀ r, op = some r → r.inst = 0 ∧ 1 ≤ r.n ∧ e.mode = .stream ∧ e.closed = false ∧ readStop e = false)
    (hd : e.mode = .stream → e.closed = false → deliveredIn 0 results ++ e.ready ++ lastBytes e.pending e.hist = e.hist)
    (hu : ∀ i, 1 ≤ i → deliveredIn i results = []) (calls : List HostCall) :
    State.Inv { gen := g, decoders := [e.cfg], insts := [e], op := op, calls := calls, results := results } where
  supported _ := hs
  thresholds := by simpa using he.threshold
  configs := by simp
  engines := by simpa using he
  between := by
    intro i x hx hne
    match i with
    | 0 =>
      obtain rfl : e = x := by simpa using hx
      cases ho : op with
      | none => exact hb ho
      | some r =>
        obtain ⟨h0, -⟩ := hop r ho
        exact absurd (by simp only [ho, ← h0]) (hne r.n)
    | i + 1 => simp at hx
  running := by
    intro r hr
    obtain ⟨h0, h1, h2, h3, h4⟩ := hop r hr
    exact ⟨h1, e, by simp [h0], h2, h3, h4⟩
  served := by
    intro i x hx hm hc
    match i with
    | 0 =>
      obtain rfl : e = x := by simpa using hx
      exact hd hm hc
    | i + 1 => simp at hx
  unread i hi := hu i (by simpa using hi)

/-- The engine about to copy meets the invariant. -/
theorem atCopy_inv : (atCopy 3 [.eos]).Inv .preset where
  atCtrl := by decide
  inGroup := by decide
  inCopy _ := ⟨by decide, by decide, 1, rfl, by decide, by decide, by decide⟩
  subBound := by decide
  partialRef := by decide
  noPartialRef := by decide
  causeIff := by decide
  causeKind := by decide
  ctrlWritten := by decide
  count := rfl
  threshold := by decide
  ringWf := by decide
  ringRange := by decide
  window := by decide
  pendingBound := by decide
  bufferMode := by decide
  counters := by decide

/-- The engine about to read a reference meets the invariant. -/
theorem atRef_inv : (atRef tableCfg [] [.byte 0#8, .byte 0#8, .eos]).Inv .preset where
  atCtrl := by decide
  inGroup := by decide
  inCopy h := by cases h
  subBound := by decide
  partialRef := by decide
  noPartialRef := by decide
  causeIff := by decide
  causeKind := by decide
  ctrlWritten := by decide
  count := rfl
  threshold := by decide
  ringWf := by decide
  ringRange := by decide
  window := by decide
  pendingBound := by decide
  bufferMode := by decide
  counters := by decide

/-- The idle machine with a fresh adapter on this source. -/
def fresh (src : List SrcEvent) : State := idle .preset (engineReset tableCfg .stream src)

/-- It meets the invariant. -/
theorem fresh_inv (src : List SrcEvent) : (fresh src).Inv :=
  single_inv .preset (engineReset tableCfg .stream src) none [] (by decide)
    (engineReset_inv _ _ _ (by decide)) (fun _ => rfl) (by intro r h; cases h) (fun _ _ => rfl) (fun _ _ => rfl) []

/-- So does the machine in a READ on it. -/
theorem running_fresh_inv (src : List SrcEvent) : (running .preset (engineReset tableCfg .stream src)).Inv :=
  single_inv .preset (engineReset tableCfg .stream src) (some ⟨0, 1⟩) [] (by decide)
    (engineReset_inv _ _ _ (by decide)) (by intro h; cases h)
    (by intro r h; cases h; exact ⟨rfl, by decide, rfl, rfl, rfl⟩) (fun _ _ => rfl) (fun _ _ => rfl) []

/-! ## Witnesses: encoding -/

theorem witness_DefaultIsLiteralReadsBitFromTop :
    (0 < 8 ∧ applyIsLit .default 0x80#8 0 = false ∧ 0x80 / 2 ^ 7 % 2 = 1) ∧
    (7 < 8 ∧ applyIsLit .default 0x80#8 7 = true ∧ 0x80 / 2 ^ 0 % 2 = 0) := by decide

theorem witness_ReferenceFieldsSplitTheCode :
    (Generics.preset.supported = true ∧ tableCfg.decRef = .default ∧ [0xF0#8, 0xFF#8].length = Generics.preset.refBytes ∧
      Generics.preset.split = .lengthLow ∧ applyDecRef .preset tableCfg [0xF0#8, 0xFF#8] = (0, 4095)) ∧
    ((⟨12, 4, .lengthHigh, none⟩ : Generics).supported = true ∧
      applyDecRef ⟨12, 4, .lengthHigh, none⟩ tableCfg [0xF0#8, 0xFF#8] = (15, 4080)) := by decide

theorem witness_LayoutsActAsTheGenericReference :
    RunsOn (running .preset (atRef tableCfg [0#8] [.byte 0#8])) 0 (atRef tableCfg [0#8] [.byte 0#8]) ∧
    (running .preset (atRef tableCfg [0#8] [.byte 0#8])).gen.offsetBits = 12 ∧
    (running .preset (atRef tableCfg [0#8] [.byte 0#8])).gen.lengthBits = 4 ∧
    (atRef tableCfg [0#8] [.byte 0#8]).cfg.decRef = .default := ⟨⟨⟨1, rfl⟩, rfl⟩, rfl, rfl, rfl⟩

theorem witness_DecodeOfEncodeIsTheToken_layout :
    (Instr.refMsbLenhigh 15#4 0xFFF#12).wf ⟨12, 4, .lengthHigh, none⟩ = true ∧
    Selects ⟨.ref, ⟨12, 4, .lengthHigh, none⟩, .msb, false⟩ (.refMsbLenhigh 15#4 0xFFF#12) ∧
    encode (.refMsbLenhigh 15#4 0xFFF#12) = some [.byte 0xFF#8, .byte 0xFF#8] := ⟨by decide, ⟨rfl, rfl, rfl⟩, by decide⟩

theorem witness_DecodeOfEncodeIsTheToken_ref :
    (Instr.ref [0x5A#8]).wf small = true ∧ Selects ⟨.ref, small, .lsb, false⟩ (.ref [0x5A#8]) ∧
    encode (.ref [0x5A#8]) = some [.byte 0x5A#8] := ⟨by decide, ⟨rfl, .inl (by decide)⟩, by decide⟩

theorem witness_DecodeOfEncodeIsTheToken_endTrunc :
    Instr.endTrunc.wf small = true ∧ Selects ⟨.ref, small, .lsb, false⟩ .endTrunc ∧ encode .endTrunc = some [.eos] :=
  ⟨rfl, .inr ⟨rfl, by decide⟩, rfl⟩

theorem witness_ReferenceAssemblerRoundTrip :
    Generics.preset.supported = true ∧ 15 ≤ Generics.preset.lengthMax ∧ 4095 ≤ Generics.preset.offsetMax := by decide

theorem witness_DecoderNeverLooksAhead :
    Sys2Proof.decode ⟨.ref, .preset, .lsb, false⟩ [.byte 0#8, .eos, .later] = .ok (.endTrunc, [.later]) ∧
    Sys2Proof.decode ⟨.copy, .preset, .lsb, false⟩ [.eos] = .ok (.copy, [.eos]) := ⟨rfl, rfl⟩

theorem witness_EverySuppliedFunctionIsATable :
    ({ tableCfg with decRef := constRef 0 4096 } : Cfg).decRef = .supplied ⟨[], (0, 4096)⟩ ∧ [0#8, 0#8].length = 2 ∧
    applyDecRef .preset { tableCfg with decRef := constRef 0 4096 } [0#8, 0#8] = (0, 4096) := by decide

/-! ## Witnesses: CONSTRUCT -/

theorem witness_ConstructRefusedExactlyWhenUnsupported :
    State.reset.gen.countBits = none ∧ refusalOf (exec (.construct 0 .omitted .omitted .omitted) .reset) = none ∧
    refusalOf (exec (.construct 0 .omitted .omitted .omitted) { State.reset with gen := ⟨0, 8, .lengthLow, none⟩ }) =
      some .unsupportedInstantiation ∧
    refusalOf (exec (.construct 0 .omitted .omitted .omitted) { State.reset with gen := ⟨8, 0, .lengthLow, none⟩ }) =
      some .unsupportedInstantiation := by decide

theorem witness_ConstructBuildsTheDecoder :
    State.reset.gen.supported = true ∧ ((1 : Int) = 0 ∧ Order.msb = .lsb ∨ (1 : Int) = 1 ∧ Order.msb = .msb) ∧
    CtrlArg.fn ⟨[], true⟩ ≠ .null ∧ RefArg.omitted ≠ .null ∧
    ∀ x, ThrArg.value 3 = .value x → (State.reset.gen.refBytes : Int) + 1 ≤ x :=
  ⟨by decide, by decide, by decide, by decide, by intro x h; cases h; decide⟩

theorem witness_ConstructReportsTheFirstError :
    State.reset.gen.supported = true ∧ ((2 : Int) ≠ 0 ∧ (2 : Int) ≠ 1) ∧ ((-1 : Int) ≠ 0 ∧ (-1 : Int) ≠ 1) ∧
    (((1 : Int) = 0 ∨ (1 : Int) = 1) ∧ (CtrlArg.omitted = .null ∨ RefArg.null = .null)) ∧
    (CtrlArg.omitted ≠ .null ∧ RefArg.omitted ≠ .null ∧
      ∃ x, ThrArg.value 2 = .value x ∧ x < (State.reset.gen.refBytes : Int) + 1) :=
  ⟨by decide, by decide, by decide, by decide, by decide, by decide, 2, rfl, by decide⟩

/-! ## Witnesses: tokens -/

theorem witness_CtrlLatchesAndSelects :
    RunsOn (fresh [.byte 0x20#8] |>.setOp (some ⟨0, 1⟩)) 0 (engineReset tableCfg .stream [.byte 0x20#8]) ∧
    (engineReset tableCfg .stream [.byte 0x20#8]).phase = .ctrl ∧ Generics.preset.countOk 1 = true := ⟨⟨⟨1, rfl⟩, rfl⟩, rfl, rfl⟩

theorem witness_EndCleanFinishes :
    RunsOn (running .preset (engineReset tableCfg .stream [.eos])) 0 (engineReset tableCfg .stream [.eos]) ∧
    (engineReset tableCfg .stream [.eos]).phase = .ctrl := ⟨⟨⟨1, rfl⟩, rfl⟩, rfl⟩

theorem witness_LitEmitsItsByte :
    RunsOn (running .preset (atLit .stream [.byte 0x41#8])) 0 (atLit .stream [.byte 0x41#8]) ∧
    (atLit .stream [.byte 0x41#8]).phase = .lit ∧ (atLit .stream [.byte 0x41#8]).ctrl = .holds 0x00#8 ∧
    Generics.preset.countOk ((atLit .stream [.byte 0x41#8]).consumed + 1) = true ∧
    Generics.preset.countOk ((atLit .stream [.byte 0x41#8]).outCount + 1) = true := ⟨⟨⟨1, rfl⟩, rfl⟩, rfl, rfl, rfl, rfl⟩

/-- The largest valid offset: `offset = outCount - 1`, so the copy starts at index 0 (R74). -/
theorem valid_at_boundary : ValidReference .preset (atRef tableCfg [] [.byte 0#8, .byte 0#8, .eos]) 0 0 :=
  ⟨by decide, by decide, by decide, by decide⟩

theorem witness_ValidReferenceStartsItsCopy :
    RunsOn (running .preset (atRef tableCfg [] [.byte 0#8, .byte 0#8, .eos])) 0 (atRef tableCfg [] [.byte 0#8, .byte 0#8, .eos]) ∧
    (atRef tableCfg [] [.byte 0#8, .byte 0#8, .eos]).phase = .ref ∧ Generics.preset.countOk (2 + (2 - 0)) = true ∧
    applyDecRef .preset (atRef tableCfg [] [.byte 0#8, .byte 0#8, .eos]).cfg [0#8, 0#8] = (0, 0) ∧
    ValidReference .preset (atRef tableCfg [] [.byte 0#8, .byte 0#8, .eos]) 0 0 ∧
    IsLayout (.refLsbLenlow 0#4 0#12) 0#4 0#12 ∧
    ValidReference .preset (atRef tableCfg [] [.byte 0#8, .byte 0#8, .eos]) ((0#4).toNat : Int) ((0#12).toNat : Int) :=
  ⟨⟨⟨1, rfl⟩, rfl⟩, rfl, rfl, by decide, valid_at_boundary, .inl rfl, valid_at_boundary⟩

/-- The phase, cause, distance and copy length that a token leaves in the only instance. -/
def outcome (o : Res State) : Option (Phase × Cause × Latch Nat × Nat) :=
  (nextOf o).bind fun s => s.insts[0]?.map fun e => (e.phase, e.cause, e.copyDist, e.copyRem)

/-- A reference function with one value for every code, after the literal `A`. -/
def atSupplied (l o : Int) (count : Nat) : Inst :=
  { atRef { tableCfg with decRef := constRef l o } [0#8] [.byte 0#8] with outCount := count }

/-- R74's failures at their boundaries: length -1; offset -1; offset = outCount; in STREAM mode a distance of `WINDOW + 1`. -/
theorem witness_ResolveChecksInOrder_failing :
    outcome (exec (.ref [0#8, 0#8]) (running .preset (atSupplied (-1) (-1) 1))) = some (.failed, .chunkLength, .unwritten, 0) ∧
    outcome (exec (.ref [0#8, 0#8]) (running .preset (atSupplied 0 (-1) 1))) = some (.failed, .offset, .unwritten, 0) ∧
    outcome (exec (.refLsbLenlow 0#4 1#12) (running .preset (atRef tableCfg [0x10#8] [.byte 0#8]))) =
      some (.failed, .offset, .unwritten, 0) ∧
    outcome (exec (.ref [0#8, 0#8]) (running .preset (atSupplied 0 4096 4097))) = some (.failed, .offset, .unwritten, 0) :=
  ⟨by decide, by decide, by decide, by decide⟩

/-- R74's copies at their boundaries: in STREAM mode a distance of `WINDOW`; offset = outCount - 1. -/
theorem witness_ResolveChecksInOrder_valid :
    outcome (exec (.ref [0#8, 0#8]) (running .preset (atSupplied 0 4095 4097))) = some (.copy, .none, .holds 4096, 3) ∧
    outcome (exec (.refLsbLenlow 0#4 0#12) (running .preset (atRef tableCfg [0#8] [.byte 0#8]))) =
      some (.copy, .none, .holds 1, 3) := by decide

/-- The hypotheses of the general form and of the layouts. -/
theorem witness_ResolveChecksInOrder :
    RunsOn (running .preset (atSupplied (-1) (-1) 1)) 0 (atSupplied (-1) (-1) 1) ∧ (atSupplied (-1) (-1) 1).phase = .ref ∧
    Generics.preset.countOk (3 + (2 - 1)) = true ∧
    applyDecRef .preset (atSupplied (-1) (-1) 1).cfg [0#8, 0#8] = (-1, -1) ∧
    IsLayout (.refLsbLenlow 0#4 1#12) 0#4 1#12 := ⟨⟨⟨1, rfl⟩, rfl⟩, rfl, rfl, rfl, .inl rfl⟩

/-- The hypotheses for the last step of a copy, and for one that is not the last. -/
theorem witness_CopyEmitsTheByteAtItsDistance :
    RunsOn (running .preset (atCopy 3 [.eos])) 0 (atCopy 3 [.eos]) ∧ (atCopy 3 [.eos]).Inv .preset ∧
    (atCopy 3 [.eos]).phase = .copy ∧ (atCopy 3 [.eos]).ctrl = .holds 0x40#8 ∧ (atCopy 3 [.eos]).copyDist = .holds 1 ∧
    (atCopy 3 [.eos]).hist[1 - 1]? = some 0x41#8 ∧ Generics.preset.countOk 2 = true :=
  ⟨⟨⟨1, rfl⟩, rfl⟩, atCopy_inv, rfl, rfl, rfl, rfl, rfl⟩

/-- The last byte of a copy completes the token, the one before does not (R75). -/
theorem test_copy_ends :
    (nextOf (exec .copy (running .preset (atCopy 1 [.eos])))).map
      (fun s => s.insts.map fun e => (e.phase, e.sub, e.hist)) = some [(.lit, 2, [0x41#8, 0x41#8])] ∧
    (nextOf (exec .copy (running .preset (atCopy 2 [.eos])))).map
      (fun s => s.insts.map fun e => (e.phase, e.sub, e.copyRem)) = some [(.copy, 1, 1)] := by decide

theorem witness_EndTruncRaisesUnexpectedEof :
    (RunsOn (running .preset (atLit .stream [.eos])) 0 (atLit .stream [.eos]) ∧ (atLit .stream [.eos]).phase = .lit) ∧
    (RunsOn (running .preset (atRef tableCfg [0#8] [.eos])) 0 (atRef tableCfg [0#8] [.eos]) ∧
      (atRef tableCfg [0#8] [.eos]).phase = .ref) := ⟨⟨⟨⟨1, rfl⟩, rfl⟩, rfl⟩, ⟨⟨1, rfl⟩, rfl⟩, rfl⟩

/-- V5.10: a partial code is discarded and counted, and the pending byte is flushed (R71, R95). -/
theorem test_endTrunc :
    (nextOf (exec .endTrunc (running .preset (atRef tableCfg [0#8] [.eos])))).map
      (fun s => s.insts.map fun e => (e.phase, e.cause, e.refBuf, e.consumed)) =
      some [(.failed, .unexpectedEof, [], 3)] ∧
    (nextOf (exec .endTrunc (running .preset (atRef tableCfg [0#8] [.eos])))).map
      (fun s => s.insts.map fun e => (e.ready, e.pending)) = some [([0x41#8], 0)] := by decide

theorem witness_ReferenceBytesAreCollectedOneByOne :
    RunsOn (running .preset (atRef tableCfg [] [.byte 0x12#8])) 0 (atRef tableCfg [] [.byte 0x12#8]) ∧
    (atRef tableCfg [] [.byte 0x12#8]).phase = .ref ∧
    (atRef tableCfg [] [.byte 0x12#8]).refBuf.length + 1 < Generics.preset.refBytes ∧
    (atRef tableCfg [] [.byte 0x12#8]).src = [.byte 0x12#8] ∧ Generics.preset.countOk 3 = true :=
  ⟨⟨⟨1, rfl⟩, rfl⟩, rfl, by decide, rfl, rfl⟩

theorem witness_ReferenceTokenAppendsTheCopyLoop :
    RunsOn (running .preset (atRef tableCfg [] [.byte 0#8, .byte 0#8, .eos])) 0 (atRef tableCfg [] [.byte 0#8, .byte 0#8, .eos]) ∧
    (atRef tableCfg [] [.byte 0#8, .byte 0#8, .eos]).Inv .preset ∧
    (atRef tableCfg [] [.byte 0#8, .byte 0#8, .eos]).phase = .ref ∧
    applyDecRef .preset tableCfg [0#8, 0#8] = (0, 0) ∧
    ValidReference .preset (atRef tableCfg [] [.byte 0#8, .byte 0#8, .eos]) 0 0 ∧
    Generics.preset.countOk (2 + (2 - 0)) = true ∧ Generics.preset.countOk (1 + 3) = true :=
  ⟨⟨⟨1, rfl⟩, rfl⟩, atRef_inv, rfl, by decide, valid_at_boundary, rfl, rfl⟩

theorem witness_ZeroControlByteIsEightLiterals :
    (engineReset tableCfg .stream (.byte 0#8 :: ((List.replicate 8 0x41#8).map .byte ++ [.eos]))).phase = .ctrl ∧
    small.countOk 9 = true ∧ small.countOk 8 = true ∧ tableCfg.isLit = .default ∧ (List.replicate 8 0x41#8).length = 8 := by
  decide

theorem witness_TokensRunOnlyWhenSelected :
    isToken (.lit 0x41#8) = true ∧ (fresh []).op = none ∧
    RunsOn (running .preset (engineReset tableCfg .stream [])) 0 (engineReset tableCfg .stream []) ∧
    selectedIn (.lit 0x41#8) (engineReset tableCfg .stream []).phase = false := ⟨rfl, rfl, ⟨⟨1, rfl⟩, rfl⟩, rfl⟩

/-- `COUNT_BITS = 1`: the counters stop at 1. -/
theorem witness_CounterBoundIsRefused :
    (RunsOn (running ⟨12, 4, .lengthLow, some 1⟩ (atLit .buffer [])) 0 (atLit .buffer []) ∧
      (⟨12, 4, .lengthLow, some 1⟩ : Generics).countOk ((atLit .buffer []).consumed + 1) = false ∧
      (atLit .buffer []).phase = .lit) ∧
    (⟨12, 4, .lengthLow, some 1⟩ : Generics).countOk ((atRef tableCfg [] []).consumed + (2 - 0)) = false ∧
    (⟨12, 4, .lengthLow, some 1⟩ : Generics).countOk ((atCopy 3 []).outCount + 1) = false ∧
    IsLayout (.refMsbLenlow 0#4 0#12) 0#4 0#12 :=
  ⟨⟨⟨⟨1, rfl⟩, rfl⟩, rfl, rfl⟩, rfl, rfl, .inr (.inl rfl)⟩

/-- An engine in COPY that meets the invariant with both counters at the bound of `COUNT_BITS = 2`. -/
theorem witness_CounterBoundIsRefused_copy :
    refusalOf (exec .copy (running ⟨12, 4, .lengthLow, some 1⟩ { atCopy 3 [] with consumed := 1 })) = some .countOverflow ∧
    ({ atCopy 3 [] with consumed := 1 } : Inst).Inv ⟨12, 4, .lengthLow, some 1⟩ :=
  ⟨by decide,
    { atCtrl := by decide, inGroup := by decide
      inCopy := fun _ => ⟨by decide, by decide, 1, rfl, by decide, by decide, by decide⟩
      subBound := by decide, partialRef := by decide, noPartialRef := by decide, causeIff := by decide
      causeKind := by decide, ctrlWritten := by decide, count := rfl, threshold := by decide, ringWf := by decide
      ringRange := by decide, window := by decide, pendingBound := by decide, bufferMode := by decide
      counters := by decide }⟩

/-! ## Witnesses: frames -/

theorem witness_TokensWithoutOutputFrame :
    RunsOn (running .preset (engineReset tableCfg .stream [.eos])) 0 (engineReset tableCfg .stream [.eos]) ∧
    (∃ t, exec (.ctrl 0x20#8) (running .preset (engineReset tableCfg .stream [.eos])) = .next t) ∧
    (∃ t, exec .endClean (running .preset (engineReset tableCfg .stream [.eos])) = .next t) ∧
    (∃ t, exec .endTrunc (running .preset (atLit .stream [.eos])) = .next t) ∧
    (∃ t, exec (.ref [0#8, 0#8]) (running .preset (atRef tableCfg [] [.byte 0#8, .byte 0#8])) = .next t) ∧
    (∃ t, exec (.refMsbLenhigh 0#4 0#12) (running .preset (atRef tableCfg [] [.byte 0#8, .byte 0#8])) = .next t) :=
  ⟨⟨⟨1, rfl⟩, rfl⟩, ⟨_, rfl⟩, ⟨_, rfl⟩, ⟨_, rfl⟩, ⟨_, rfl⟩, _, rfl⟩

theorem witness_TokensWithOutputFrame :
    RunsOn (running .preset (atLit .stream [.byte 0x41#8])) 0 (atLit .stream [.byte 0x41#8]) ∧
    (∃ t, exec (.lit 0x41#8) (running .preset (atLit .stream [.byte 0x41#8])) = .next t) ∧
    (∃ t, exec .copy (running .preset (atCopy 3 [.eos])) = .next t) := ⟨⟨⟨1, rfl⟩, rfl⟩, ⟨_, rfl⟩, _, rfl⟩

theorem witness_HostOperationFrame :
    (isToken (.read 0 1) = false ∧ ∃ t, exec (.read 0 1) (fresh [.eos]) = .next t) ∧
    (isToken (.close 0) = false ∧ ∃ t, exec (.close 0) (fresh [.eos]) = .next t) ∧
    (isToken (.status 0) = false ∧ ∃ t, exec (.status 0) (fresh [.eos]) = .next t) ∧
    (isToken (.decode 0 []) = false ∧ ∃ t, exec (.decode 0 []) (fresh [.eos]) = .next t) ∧
    (isToken (.openStream 0 []) = false ∧ ∃ t, exec (.openStream 0 []) (fresh [.eos]) = .next t) ∧
    (isToken (.construct 2 .omitted .omitted .omitted) = false ∧
      ∃ t, exec (.construct 2 .omitted .omitted .omitted) (fresh [.eos]) = .next t) :=
  ⟨⟨rfl, _, rfl⟩, ⟨rfl, _, rfl⟩, ⟨rfl, _, rfl⟩, ⟨rfl, _, rfl⟩, ⟨rfl, _, rfl⟩, rfl, _, rfl⟩

/-- HostOperationFrame's instances that a host operation does not name: a second adapter, beside a READ and a CLOSE of the first. -/
theorem witness_HostOperationFrame_others :
    ((fresh [.eos]).addInst atFailed).insts[1]? = some atFailed ∧
    ¬ touches ((fresh [.eos]).addInst atFailed) (.read 0 1) 1 ∧ ¬ touches ((fresh [.eos]).addInst atFailed) (.status 1) 1 ∧
    (∃ t, exec (.read 0 1) ((fresh [.eos]).addInst atFailed) = .next t) ∧
    (∃ t, exec (.close 0) ((fresh [.eos]).addInst atFailed) = .next t) :=
  ⟨rfl, by simp [touches], by simp [touches], ⟨_, rfl⟩, _, rfl⟩

/-! ## Witnesses: host operations -/

theorem witness_DecodeIsTheTokenFunction :
    (fresh []).gen.supported = true ∧ (fresh []).decoders[0]? = some tableCfg ∧
    (fresh []).gen.thresholdMin ≤ tableCfg.threshold ∧
    (fresh []).gen.countOk (decodeFunction .preset tableCfg [0x40#8, 0x41#8, 0x00#8]).2.2 = true ∧
    (fresh []).gen.countOk (decodeFunction .preset tableCfg [0x40#8, 0x41#8, 0x00#8]).1.length = true := by decide

theorem witness_DecodePastTheBoundIsRefused :
    (⟨12, 4, .lengthLow, some 1⟩ : Generics).supported = true ∧
    (idle ⟨12, 4, .lengthLow, some 1⟩ (engineReset tableCfg .stream [])).decoders[0]? = some tableCfg ∧
    (⟨12, 4, .lengthLow, some 1⟩ : Generics).thresholdMin ≤ tableCfg.threshold ∧
    ((⟨12, 4, .lengthLow, some 1⟩ : Generics).countOk
        (decodeFunction ⟨12, 4, .lengthLow, some 1⟩ tableCfg [0x00#8, 0x41#8]).2.2 &&
      (⟨12, 4, .lengthLow, some 1⟩ : Generics).countOk
        (decodeFunction ⟨12, 4, .lengthLow, some 1⟩ tableCfg [0x00#8, 0x41#8]).1.length) = false := by decide

/-- W5's input, twice. -/
theorem witness_DecodeAgainReturnsTheSame :
    ∃ t u, exec (.decode 0 [0x20#8, 0x41#8, 0x42#8, 0x00#8, 0x00#8]) (fresh []) = .next t ∧
      exec (.decode 0 [0x20#8, 0x41#8, 0x42#8, 0x00#8, 0x00#8]) t = .next u := ⟨_, _, rfl, rfl⟩

theorem witness_OpenStartsAFreshAdapter : (fresh []).decoders[0]? = some tableCfg := rfl

/-- One adapter for each of READ's five answers. -/
theorem witness_ReadAnswersInOrder :
    (∀ e, e = { atFailed with closed := true } ∨ e = engineReset tableCfg .stream [] ∨ e = atFailed ∨
        e = { atFailed with ready := [], phase := .done, cause := .none } ∨ e = { atFailed with ready := [] } →
      (idle .preset e).op = none ∧ (idle .preset e).insts[0]? = some e ∧ e.mode = .stream) ∧
    { atFailed with closed := true }.closed = true ∧ atFailed.ready ≠ [] ∧ atFailed.phase = .failed := by
  refine ⟨?_, by decide, by decide, by decide⟩
  rintro e (rfl | rfl | rfl | rfl | rfl) <;> exact ⟨rfl, rfl, rfl⟩

theorem witness_ReadReturnsWhenTheSourceAnswers :
    (fresh [.byte 0x00#8, .byte 0x41#8, .eos]).Inv ∧ (fresh [.byte 0x00#8, .byte 0x41#8, .eos]).op = none ∧
    (fresh [.byte 0x00#8, .byte 0x41#8, .eos]).gen.countBits = none ∧
    (fresh [.byte 0x00#8, .byte 0x41#8, .eos]).insts[0]? =
      some (engineReset tableCfg .stream [.byte 0x00#8, .byte 0x41#8, .eos]) ∧
    (engineReset tableCfg .stream [.byte 0x00#8, .byte 0x41#8, .eos]).mode = .stream ∧
    (engineReset tableCfg .stream [.byte 0x00#8, .byte 0x41#8, .eos]).closed = false ∧
    answersAll [.byte 0x00#8, .byte 0x41#8, .eos] :=
  ⟨fresh_inv _, rfl, rfl, rfl, rfl, rfl, [0x00#8, 0x41#8], [], rfl⟩

theorem witness_StepwiseReadAgreesWithItsRounds :
    (running .preset (engineReset tableCfg .stream [.byte 0x00#8, .byte 0x41#8, .eos])).Inv ∧
    RunsOn (running .preset (engineReset tableCfg .stream [.byte 0x00#8, .byte 0x41#8, .eos])) 0
      (engineReset tableCfg .stream [.byte 0x00#8, .byte 0x41#8, .eos]) ∧
    ∃ e1, drive .preset readStop [.byte 0x00#8, .byte 0x41#8, .eos]
      (engineReset tableCfg .stream [.byte 0x00#8, .byte 0x41#8, .eos]) = .next e1 :=
  ⟨running_fresh_inv _, ⟨⟨1, rfl⟩, rfl⟩, _, rfl⟩

theorem witness_StreamDecodesAsBuffer :
    Generics.preset.supported = true ∧ tableCfg.decRef = .default ∧ Generics.preset.thresholdMin ≤ tableCfg.threshold ∧
    ∃ b, decodeRun .preset tableCfg [0x40#8, 0x41#8, 0x00#8, 0x00#8] = .next b := ⟨by decide, rfl, by decide, _, rfl⟩

theorem witness_CloseDiscardsAndRejectsReads :
    (idle .preset atFailed).op = none ∧ (idle .preset atFailed).insts[0]? = some atFailed ∧ atFailed.mode = .stream :=
  ⟨rfl, rfl, rfl⟩

/-- A closed adapter with a READ of it queued: the READ is answered by the next step, and the adapter is as CLOSE left it. -/
theorem witness_ClosedAdapterRejectsEveryLaterRead :
    (∀ n, (idle .preset atFailed |>.setCalls [.read 0 4]).op ≠ some ⟨0, n⟩) ∧
    (idle .preset atFailed |>.setCalls [.read 0 4]).insts[0]? = some atFailed ∧ atFailed.mode = .stream ∧
    ∃ t u, exec (.close 0) (idle .preset atFailed |>.setCalls [.read 0 4]) = .next t ∧ Sys2Proof.core.run 1 t = .next u ∧
      u.op = none ∧ u.results = [.closedOk 0, .read 0 [] (.error .closed)] :=
  ⟨by intro n; simp [idle, State.setCalls], rfl, rfl, _, _, rfl, rfl, rfl, rfl⟩

theorem witness_HostOperationsStopByName :
    (State.reset.decoders[0]? = none ∧ State.reset.op = none ∧ State.reset.insts[0]? = none) ∧
    ((idle .preset (atLit .buffer [])).op = none ∧ (idle .preset (atLit .buffer [])).insts[0]? = some (atLit .buffer []) ∧
      (atLit .buffer []).mode = .buffer) ∧
    (running .preset (atCopy 3 [])).op = some ⟨0, 1⟩ := ⟨⟨rfl, rfl, rfl⟩, ⟨rfl, rfl, rfl⟩, rfl⟩

theorem witness_StatusReturnsItsFields :
    (∀ n, (idle .preset atFailed).op ≠ some ⟨0, n⟩) ∧ (idle .preset atFailed).insts[0]? = some atFailed ∧
    atFailed.sub ≤ 8 ∧ atFailed.cause ≠ .closed :=
  ⟨by intro n; simp [idle], rfl, by decide, by decide⟩

/-! ## Witnesses: the step and the whole machine -/

theorem witness_StepRunsTheDecodedInstruction :
    ((fresh [] |>.setCalls [.status 0]).op = none ∧ (fresh [] |>.setCalls [.status 0]).calls = [.status 0]) ∧
    (RunsOn (running .preset (atRef tableCfg [0x12#8] [.byte 0x34#8])) 0 (atRef tableCfg [0x12#8] [.byte 0x34#8]) ∧
      Sys2Proof.decode (decodeCtx .preset (atRef tableCfg [0x12#8] [.byte 0x34#8]))
        (fetchWindow (atRef tableCfg [0x12#8] [.byte 0x34#8])) = .ok (.refLsbLenlow 2#4 0x341#12, [])) :=
  ⟨⟨rfl, rfl⟩, ⟨⟨1, rfl⟩, rfl⟩, by rfl⟩

theorem witness_ReadUnderWayReturnsBetweenRounds :
    ((running .preset atFailed).op = some ⟨0, 1⟩ ∧ (running .preset atFailed).insts[0]? = some atFailed ∧
      atFailed.phase.boundary = true ∧ atFailed.ready ≠ []) ∧
    (running .preset (atCopy 3 [])).insts[0]? = some (atCopy 3 []) ∧ (atCopy 3 []).phase.boundary = false := by decide

theorem witness_WaitingKeepsEveryRegister :
    ((fresh []).op = none ∧ (fresh []).calls = []) ∧
    (RunsOn (running .preset (atRef tableCfg [0#8] [])) 0 (atRef tableCfg [0#8] []) ∧
      (atRef tableCfg [0#8] []).phase = .ref ∧ (atRef tableCfg [0#8] []).refBuf.length < Generics.preset.refBytes ∧
      (atRef tableCfg [0#8] []).src = []) ∧
    (RunsOn (running .preset (atLit .stream [.later])) 0 (atLit .stream [.later]) ∧ (atLit .stream [.later]).phase = .lit) ∧
    (RunsOn (running .preset (engineReset tableCfg .stream [.failed])) 0 (engineReset tableCfg .stream [.failed]) ∧
      (engineReset tableCfg .stream [.failed]).phase = .ctrl) :=
  ⟨⟨rfl, rfl⟩, ⟨⟨⟨1, rfl⟩, rfl⟩, rfl, by decide, rfl⟩, ⟨⟨⟨1, rfl⟩, rfl⟩, rfl⟩, ⟨⟨1, rfl⟩, rfl⟩, rfl⟩

theorem witness_StepKeepsTheInvariant :
    (running .preset (engineReset tableCfg .stream [.byte 0x20#8, .eos])).Inv ∧
    ∃ t, step (running .preset (engineReset tableCfg .stream [.byte 0x20#8, .eos])) = .next t := ⟨running_fresh_inv _, _, rfl⟩

theorem witness_NoModelFaultIsReached : (running .preset (engineReset tableCfg .stream [.byte 0x20#8, .eos])).Inv :=
  running_fresh_inv _

/-- The distances 1 and outCount, which is 1. -/
theorem witness_WinReadReadsTheHistory :
    (atCopy 3 [.eos]).Inv .preset ∧ 1 ≤ 1 ∧ 1 ≤ (atCopy 3 [.eos]).outCount ∧
    ((atCopy 3 [.eos]).mode = .stream → 1 ≤ Generics.preset.window) := ⟨atCopy_inv, by decide, by decide, by decide⟩

theorem witness_TerminalIsSticky :
    (∃ t, step (running .preset atFailed) = .next t) ∧ (running .preset atFailed).insts[0]? = some atFailed ∧
    atFailed.phase.terminal = true := ⟨⟨_, rfl⟩, rfl, rfl⟩

theorem witness_ConfigurationsAreImmutable :
    ∃ t, step (fresh [.eos] |>.setCalls [.construct 0 .omitted .omitted .omitted]) = .next t := ⟨_, rfl⟩

theorem witness_HistoryAndCountersOnlyGrow :
    (∃ t, step (running .preset (atLit .stream [.byte 0x41#8])) = .next t) ∧
    (running .preset (atLit .stream [.byte 0x41#8])).insts[0]? = some (atLit .stream [.byte 0x41#8]) := ⟨⟨_, rfl⟩, rfl⟩

/-- Two adapters: a token on the first, and a CLOSE of the first, beside the second. -/
theorem witness_InstancesAreIndependent :
    (∃ t, exec (.lit 0x41#8) ((running .preset (atLit .stream [.byte 0x41#8])).addInst atFailed) = .next t) ∧
    ((running .preset (atLit .stream [.byte 0x41#8])).addInst atFailed).insts[1]? = some atFailed ∧
    ¬ touches ((running .preset (atLit .stream [.byte 0x41#8])).addInst atFailed) (.lit 0x41#8) 1 ∧
    (∃ t, exec (.close 0) ((fresh []).addInst atFailed) = .next t) ∧
    ¬ touches ((fresh []).addInst atFailed) (.close 0) 1 :=
  ⟨⟨_, rfl⟩, rfl, by simp [touches, running, State.addInst], ⟨_, rfl⟩, by simp [touches]⟩

theorem witness_FailuresArePrecise :
    RunsOn (running .preset (atRef tableCfg [] [.byte 0x10#8, .byte 0#8])) 0 (atRef tableCfg [] [.byte 0x10#8, .byte 0#8]) ∧
    ∃ t e1, exec (.refLsbLenlow 0#4 1#12) (running .preset (atRef tableCfg [] [.byte 0x10#8, .byte 0#8])) = .next t ∧
      t.insts[0]? = some e1 ∧ (atRef tableCfg [] [.byte 0x10#8, .byte 0#8]).phase ≠ .failed ∧ e1.phase = .failed :=
  ⟨⟨⟨1, rfl⟩, rfl⟩, _, _, rfl, rfl, by decide, by decide⟩

theorem witness_DecodeEndsWithinItsBound :
    small.supported = true ∧ small.countBits = none ∧ smallCfg.decRef = .default ∧ small.thresholdMin ≤ smallCfg.threshold := by
  decide

end Sys2Proof.Tests
end

/-! ## R6: the supported instantiations, and CONSTRUCT's refusal of every other -/
section

namespace Sys2Proof

/-- R6's four conditions are the whole of `supported` where `COUNT_BITS` is not set. -/
theorem Generics.supported_iff_of_countBits_none {g : Generics} (hc : g.countBits = none) :
    g.supported = true ↔
      1 ≤ g.offsetBits ∧ 1 ≤ g.lengthBits ∧ g.codeBits % 8 = 0 ∧ g.codeBits / 8 ≤ 4 := by
  simp [Generics.supported, Generics.countBitsLegal, hc, and_assoc]

end Sys2Proof

namespace Sys2Proof.Machine

theorem exec_construct (oc : Int) (ca : CtrlArg) (ra : RefArg) (ta : ThrArg) (s : State) :
    exec (.construct oc ca ra ta) s = execConstruct oc ca ra ta s := rfl

/-- The refusal comes before R59's and R60's checks: on a supported instantiation both outcomes of those checks are a next
state, so the arguments play no part (log 25). -/
theorem execConstruct_refused_iff {oc : Int} {ca : CtrlArg} {ra : RefArg} {ta : ThrArg} {s : State} :
    execConstruct oc ca ra ta s = .refused .unsupportedInstantiation ↔ ¬ s.gen.supported = true := by
  by_cases hs : s.gen.supported = true
  · cases hcfg : constructCfg s.gen oc ca ra ta with
    | error c => simp [execConstruct, hs, hcfg]
    | ok cfg => simp [execConstruct, hs, hcfg]
  · simp [execConstruct, hs]

/-- Settles O11: the refusal turns on `supported` alone, and unbounded counters leave of `supported` just R6's conditions. -/
theorem constructRefusedExactlyWhenUnsupported : Obligations.ConstructRefusedExactlyWhenUnsupported := by
  intro oc ca ra ta s hc
  rw [exec_construct, execConstruct_refused_iff]
  exact not_congr (Generics.supported_iff_of_countBits_none hc)

end Sys2Proof.Machine
end

/-! ## What each token does to its engine, and what every engine step keeps (R26, R34, R38) -/
section

namespace Sys2Proof.Machine

/-! ### Each token's next engine -/

section Tokens
variable {g : Generics} {e e1 : Inst}

theorem ctrlToken_next {c : Byte} : ctrlToken g c e = .next e1 ↔
    g.countOk (e.consumed + 1) = true ∧ e1 = dispatch ((e.pulled 1).latchCtrl c) := by
  simp [ctrlToken, andThen_next, pullBytes_next, and_assoc, eq_comm (b := e1)]

theorem litToken_next {v : Byte} : litToken g v e = .next e1 ↔
    g.countOk (e.consumed + 1) = true ∧ g.countOk (e.outCount + 1) = true ∧
      e1 = completeToken (emitted g v (e.pulled 1)) := by
  simp [litToken, andThen_next, pullBytes_next, emit_next, and_assoc, eq_comm (b := e1)]

theorem refToken_next {k : Nat} {l o : Int} : refToken g k l o e = .next e1 ↔
    g.countOk (e.consumed + (k - e.refBuf.length)) = true ∧
      e1 = resolve g l o ((e.pulled (k - e.refBuf.length)).setRefBuf []) := by
  simp [refToken, andThen_next, pullBytes_next, and_assoc, eq_comm (b := e1)]

theorem collectByte_next {b : Byte} : collectByte g b e = .next e1 ↔
    g.countOk (e.consumed + 1) = true ∧ e1 = (e.pulled 1).setRefBuf (e.refBuf ++ [b]) := by
  simp [collectByte, andThen_next, pullBytes_next, and_assoc, eq_comm (b := e1)]

theorem copyToken_next : copyToken g e = .next e1 ↔
    ∃ b, winRead g (distValue e) e = .next b ∧ g.countOk (e.outCount + 1) = true ∧
      e1 = copyAdvance (emitted g b e) := by
  simp [copyToken, andThen_next, emit_next, and_assoc, eq_comm (b := e1)]

/-- The engine at which END_TRUNC raises its cause: past EOS, and in REF without the bytes collected so far (R71). -/
def truncated (e : Inst) : Inst := if e.phase = .ref then e.pastEvent.setRefBuf [] else e.pastEvent

theorem endTruncToken_eq (e : Inst) : endTruncToken e = .next (raise .unexpectedEof (truncated e)) := by
  cases hp : e.phase <;> simp [endTruncToken, truncated, hp]

theorem truncated_of_ref {e : Inst} (hp : e.phase = .ref) : truncated e = e.pastEvent.setRefBuf [] := if_pos hp

theorem truncated_of_ne_ref {e : Inst} (hp : e.phase ≠ .ref) : truncated e = e.pastEvent := if_neg hp

/-- A copy step goes on, or completes its token (R75). -/
theorem copyAdvance_cases (e : Inst) :
    copyAdvance e = e.setCopyRem (e.copyRem - 1) ∨ copyAdvance e = completeToken (e.setCopyRem (e.copyRem - 1)) := by
  rw [copyAdvance_eq]
  split
  · exact .inr rfl
  · exact .inl rfl

/-- Resolve raises a cause or starts a copy (R74). -/
theorem resolve_raises_or_starts (g : Generics) (l o : Int) (e : Inst) :
    (∃ c, resolve g l o e = raise c e) ∨ ∃ d n, resolve g l o e = e.startCopy d n := by
  rcases resolve_cases g l o e with ⟨-, h⟩ | ⟨-, -, h⟩ | ⟨-, -, h⟩
  · exact .inl ⟨_, h⟩
  · exact .inl ⟨_, h⟩
  · exact .inr ⟨_, _, h⟩

end Tokens

/-! ### The account of an engine's output (R30): what it has not delivered yet -/

/-- The bytes an adapter still has to deliver: `ready`, then the pending ones (R30, R38). -/
def undelivered (e : Inst) : List Byte := e.ready ++ lastBytes e.pending e.hist

theorem lastBytes_zero (l : List Byte) : lastBytes 0 l = [] := by simp [lastBytes]

theorem lastBytes_append_one (k : Nat) (l : List Byte) (v : Byte) :
    lastBytes (k + 1) (l ++ [v]) = lastBytes k l ++ [v] := by
  unfold lastBytes
  rw [List.length_append, List.length_singleton, Nat.add_sub_add_right,
    List.drop_append_of_le_length (Nat.sub_le _ _)]

/-- A flush moves bytes, and delivers and loses none (R38). -/
theorem undelivered_flushIfStream (e : Inst) : undelivered (flushIfStream e) = undelivered e := by
  cases hm : e.mode with
  | buffer => rw [flushIfStream_buffer hm]
  | stream => simp [flushIfStream_stream hm, undelivered, lastBytes_zero]

/-- In STREAM mode an emitted byte is the last one still to be delivered, whether or not it fills the buffer (R37). -/
theorem undelivered_emitted {g : Generics} {e : Inst} (v : Byte) (hm : e.mode = .stream) :
    undelivered (emitted g v e) = undelivered e ++ [v] := by
  obtain ⟨-, ⟨-, hp, hy⟩ | ⟨-, hp, hy⟩⟩ := emitted_stream (g := g) (v := v) hm
  · simp [undelivered, hp, hy, lastBytes_append_one]
  · simp [undelivered, hp, hy, lastBytes_append_one, lastBytes_zero]

/-- `e1` is `e` after some of its steps: the adapter's fixed fields are kept, and in STREAM mode the bytes by which the history
has grown are the bytes by which the undelivered ones have. -/
structure Inst.Extends (e e1 : Inst) : Prop where
  adapter : SameAdapter e e1
  output : ∃ bs, e1.hist = e.hist ++ bs ∧ (e.mode = .stream → undelivered e1 = undelivered e ++ bs)

namespace Inst.Extends

theorem of_same {e e1 : Inst} (ha : SameAdapter e e1) (hh : e1.hist = e.hist) (hp : e1.pending = e.pending)
    (hy : e1.ready = e.ready) : e.Extends e1 :=
  ⟨ha, [], by simp [hh], fun _ => by simp [undelivered, hh, hp, hy]⟩

theorem refl (e : Inst) : e.Extends e := of_same ⟨rfl, rfl, rfl⟩ rfl rfl rfl

theorem trans {e e1 e2 : Inst} (h : e.Extends e1) (h' : e1.Extends e2) : e.Extends e2 := by
  obtain ⟨⟨hc, hm, hd⟩, bs, hh, hu⟩ := h
  obtain ⟨⟨hc', hm', hd'⟩, bs', hh', hu'⟩ := h'
  refine ⟨⟨hc'.trans hc, hm'.trans hm, hd'.trans hd⟩, bs ++ bs', by rw [hh', hh, List.append_assoc], fun h => ?_⟩
  rw [hu' (hm.trans h), hu h, List.append_assoc]

theorem flushIfStream (e : Inst) : e.Extends (flushIfStream e) where
  adapter := by simp [SameAdapter, flushIfStream_same]
  output := ⟨[], by simp [flushIfStream_same], fun _ => by simp [undelivered_flushIfStream]⟩

theorem emitted (g : Generics) (v : Byte) (e : Inst) : e.Extends (emitted g v e) where
  adapter := by simp [SameAdapter, emitted_same]
  output := ⟨[v], by simp, undelivered_emitted v⟩

theorem completeToken (e : Inst) : e.Extends (completeToken e) := by
  rw [completeToken_eq]
  exact of_same ⟨rfl, rfl, rfl⟩ rfl rfl rfl

theorem raise (c : Cause) (e : Inst) : e.Extends (raise c e) :=
  (flushIfStream e).trans (of_same ⟨rfl, rfl, rfl⟩ rfl rfl rfl)

theorem resolve (g : Generics) (l o : Int) (e : Inst) : e.Extends (resolve g l o e) := by
  rcases resolve_raises_or_starts g l o e with ⟨c, h⟩ | ⟨d, n, h⟩ <;> rw [h]
  · exact raise c e
  · exact of_same ⟨rfl, rfl, rfl⟩ rfl rfl rfl

theorem copyAdvance (e : Inst) : e.Extends (copyAdvance e) := by
  have hrem : e.Extends (e.setCopyRem (e.copyRem - 1)) := of_same ⟨rfl, rfl, rfl⟩ rfl rfl rfl
  rcases copyAdvance_cases e with h | h <;> rw [h]
  · exact hrem
  · exact hrem.trans (completeToken _)

end Inst.Extends

section EngineSteps
variable {g : Generics} {e e1 : Inst}

theorem refToken_extends {k : Nat} {l o : Int} (h : refToken g k l o e = .next e1) : e.Extends e1 := by
  obtain ⟨-, rfl⟩ := refToken_next.1 h
  exact .trans (.of_same (e1 := (e.pulled _).setRefBuf []) ⟨rfl, rfl, rfl⟩ rfl rfl rfl) (.resolve g l o _)

theorem collectByte_extends {b : Byte} (h : collectByte g b e = .next e1) : e.Extends e1 := by
  obtain ⟨-, rfl⟩ := collectByte_next.1 h
  exact .of_same ⟨rfl, rfl, rfl⟩ rfl rfl rfl

theorem copyToken_extends (h : copyToken g e = .next e1) : e.Extends e1 := by
  obtain ⟨b, -, -, rfl⟩ := copyToken_next.1 h
  exact .trans (.emitted g b e) (.copyAdvance _)

theorem truncated_extends (e : Inst) : e.Extends (truncated e) := by
  unfold truncated
  split <;> exact .of_same ⟨rfl, rfl, rfl⟩ rfl rfl rfl

/-- Every token extends its engine. -/
theorem engineExec_extends {i : Instr} (h : engineExec g i e = .next e1) : e.Extends e1 := by
  cases i with
  | ctrl c =>
    obtain ⟨-, rfl⟩ := ctrlToken_next.1 h
    rw [dispatch_eq]
    exact .of_same ⟨rfl, rfl, rfl⟩ rfl rfl rfl
  | endClean =>
    cases h
    exact .trans (.of_same (e1 := e.pastEvent) ⟨rfl, rfl, rfl⟩ rfl rfl rfl)
      (.trans (.flushIfStream _) (.of_same ⟨rfl, rfl, rfl⟩ rfl rfl rfl))
  | lit v =>
    obtain ⟨-, -, rfl⟩ := litToken_next.1 h
    exact .trans (.of_same (e1 := e.pulled 1) ⟨rfl, rfl, rfl⟩ rfl rfl rfl) (.trans (.emitted g v _) (.completeToken _))
  | ref | refLsbLenlow | refMsbLenlow | refLsbLenhigh | refMsbLenhigh => exact refToken_extends h
  | copy => exact copyToken_extends h
  | endTrunc =>
    rw [engineExec, endTruncToken_eq] at h
    cases h
    exact .trans (truncated_extends e) (.raise _ _)
  | construct | decode | openStream | read | close | status => cases h

/-- So does every engine step (R81). -/
theorem engineStep_extends (h : engineStep g e = .next e1) : e.Extends e1 := by
  unfold engineStep at h
  split at h
  · exact engineExec_extends h
  · exact collectByte_extends h
  · cases h; exact .refl e
  · cases h; exact .of_same ⟨rfl, rfl, rfl⟩ rfl rfl rfl
  · cases h
  · cases h; exact .refl e

/-- What a COPY step keeps, a reference's whole copy keeps (R75). -/
theorem runCopies_keeps {P : Inst → Prop} (hcopy : ∀ x y, P x → copyToken g x = .next y → P y) (hP : P e)
    (h : runCopies g e = .next e1) : P e1 := by
  suffices H : ∀ k x, P x → copySteps g k x = .next e1 → P e1 from H _ e hP h
  intro k
  induction k with
  | zero => intro x hx h; cases h; exact hx
  | succ k ih =>
    intro x hx h
    obtain ⟨y, hy, h⟩ := andThen_next.1 h
    exact ih y (hcopy x y hx hy) h

theorem runCopies_extends (h : runCopies g e = .next e1) : e.Extends e1 :=
  runCopies_keeps (P := e.Extends) (fun _ _ hx hy => hx.trans (copyToken_extends hy)) (.refl e) h

/-- One turn of the loops of DECODE and RunRound: the copies due, then the end of the loop or one engine step (R82, R85). -/
theorem drive_cons_next {stop : Inst → Bool} {ev : SrcEvent} {rest : List SrcEvent} :
    drive g stop (ev :: rest) e = .next e1 ↔ ∃ x, runCopies g e = .next x ∧
      (((stop x = true ∨ ev = .later) ∧ e1 = x) ∨
       (stop x = false ∧ ev ≠ .later ∧ ∃ y, engineStep g x = .next y ∧ drive g stop rest y = .next e1)) := by
  rw [drive, andThen_next]
  refine exists_congr fun x => and_congr_right fun _ => ?_
  by_cases hend : stop x = true ∨ ev = .later
  · have hgo : ¬ (stop x = false ∧ ev ≠ .later) := by rcases hend with h | h <;> simp [h]
    rw [if_pos (by simpa using hend)]
    simp only [hend, true_and, ← and_assoc, hgo, false_and, or_false, Host.Outcome.next.injEq, eq_comm (b := e1)]
  · obtain ⟨hs, hev⟩ : stop x = false ∧ ev ≠ .later := by simpa using hend
    rw [if_neg (by simpa using hend), andThen_next]
    simp [hs, hev]

/-- The loops of DECODE and RunRound extend their engine (R82, R85). -/
theorem drive_extends {stop : Inst → Bool} (evs : List SrcEvent) :
    ∀ {e e1 : Inst}, drive g stop evs e = .next e1 → e.Extends e1 := by
  induction evs with
  | nil => intro e e1 h; exact runCopies_extends h
  | cons ev rest ih =>
    intro e e1 h
    obtain ⟨x, hx, ⟨-, rfl⟩ | ⟨-, -, y, hy, h⟩⟩ := drive_cons_next.1 h
    · exact runCopies_extends hx
    · exact (runCopies_extends hx).trans ((engineStep_extends hy).trans (ih h))

end EngineSteps

end Sys2Proof.Machine
end

/-! ## A token on the machine, and the machine's step within a READ under way (R79, R81, R99) -/
section

namespace Sys2Proof.Machine

/-- A token is its engine's, run where a READ is under way and the phase selects it (R57, R99). -/
theorem exec_eq_runToken {i : Instr} (hi : isToken i = true) (s : State) :
    exec i s = runToken (selectedIn i) (fun g => engineExec g i) s := by
  cases i with
  | ctrl | endClean | lit | ref | refLsbLenlow | refMsbLenlow | refLsbLenhigh | refMsbLenhigh | copy | endTrunc => rfl
  | construct | decode | openStream | read | close | status => cases hi

/-- The engine that a token run under a READ finds and leaves. -/
theorem exec_token_next {s t : State} {r : Running} {e : Inst} {i : Instr} (hop : s.op = some r)
    (he : s.insts[r.inst]? = some e) (hi : isToken i = true) (h : exec i s = .next t) :
    selectedIn i e.phase = true ∧ ∃ e1, engineExec s.gen i e = .next e1 ∧ t = s.setInst r.inst e1 := by
  rw [exec_eq_runToken hi] at h
  obtain ⟨r', e', e1, hop', he', hsel, hx, rfl⟩ := runToken_next.1 h
  obtain rfl : r = r' := Option.some.inj (hop.symm.trans hop')
  obtain rfl : e = e' := Option.some.inj (he.symm.trans he')
  exact ⟨hsel, e1, hx, rfl⟩

theorem decodeRef_isToken (c : DecodeCtx) (bytes : List Byte) : isToken (decodeRef c bytes) = true := by
  unfold decodeRef
  split
  · split
    · unfold decodeLayout
      split <;> rfl
    · rfl
  · rfl

/-- The decoder gives tokens and end events only; a host operation has no encoding (R57, R79). -/
theorem decode_isToken {c : DecodeCtx} {evs rest : List SrcEvent} {i : Instr}
    (h : Sys2Proof.decode c evs = .ok (i, rest)) : isToken i = true := by
  unfold Sys2Proof.decode at h
  split at h
  · split at h <;> cases h <;> rfl
  · split at h <;> cases h <;> rfl
  · split at h <;> cases h
    · exact decodeRef_isToken _ _
    · rfl
  · cases h; rfl
  · cases h
  · cases h

theorem fetch_isToken {g : Generics} {e : Inst} {i : Instr} (h : fetch g e = .run i) : isToken i = true := by
  unfold fetch at h
  split at h
  · rename_i hd
    cases h
    exact decode_isToken hd
  · split at h <;> cases h
  · cases h
  · cases h
  · cases h

theorem setInst_eq_self {s : State} {k : Nat} {e : Inst} (he : s.insts[k]? = some e) : s.setInst k e = s := by
  obtain ⟨hk, rfl⟩ := List.getElem?_eq_some_iff.1 he
  simp [State.setInst]

/-- Within a READ under way a step of the machine is a step of its engine (R81), after which the READ returns if it can (R86);
a step that only collects a byte or waits cannot change whether it can. -/
theorem step_running {s t : State} {r : Running} {e : Inst} (hop : s.op = some r) (he : s.insts[r.inst]? = some e)
    (h : step s = .next t) :
    ∃ e1, engineStep s.gen e = .next e1 ∧
      (t = settle (s.setInst r.inst e1) ∨ (t = s.setInst r.inst e1 ∧ readStop e1 = readStop e)) := by
  rcases step_cases h with ⟨hn, -⟩ | ⟨c, rest, hn, -⟩ | ⟨r', e', hop', he', hgo⟩
  · rw [hop] at hn; cases hn
  · rw [hop] at hn; cases hn
  obtain rfl : r = r' := Option.some.inj (hop.symm.trans hop')
  obtain rfl : e = e' := Option.some.inj (he.symm.trans he')
  unfold engineStep
  rcases hgo with ⟨i, u, hf, hu, rfl⟩ | ⟨b, e1, hf, hb, rfl⟩ | ⟨hf, rfl⟩ | ⟨hf, rfl⟩ | ⟨hf, rfl⟩ <;> simp only [hf]
  · obtain ⟨-, e1, hx, rfl⟩ := exec_token_next hop he (fetch_isToken hf) hu
    exact ⟨e1, hx, .inl rfl⟩
  · refine ⟨e1, hb, .inr ⟨rfl, ?_⟩⟩
    obtain ⟨-, rfl⟩ := collectByte_next.1 hb
    rfl
  · exact ⟨e, rfl, .inr ⟨(setInst_eq_self he).symm, rfl⟩⟩
  · exact ⟨e.pastEvent, rfl, .inr ⟨rfl, rfl⟩⟩
  · exact ⟨e, rfl, .inl (by rw [setInst_eq_self he])⟩

/-- What `readNow` gives leaves an engine as it was but for the bytes it takes from the front of `ready` (R86). -/
theorem readNow_takes {n : Nat} {e e1 : Inst} {bs : List Byte} {k : ReadKind} (h : readNow n e = some (bs, k, e1)) :
    ∃ rest, e.ready = bs ++ rest ∧ e1 = e.setReady rest := by
  rcases readNow_some.1 h with ⟨-, rfl, -, rfl⟩ | ⟨hr, -, rfl, -, rfl⟩ | ⟨hr, -, rfl, -, rfl⟩
  · exact ⟨_, (List.take_append_drop n e.ready).symm, rfl⟩
  · exact ⟨[], hr, by rw [← hr]; rfl⟩
  · exact ⟨[], hr, by rw [← hr]; rfl⟩

/-! ### Configurations, modes and `closed` (R14, R26, R61) -/

/-- Every configuration and mode of `s` is there in `t`, and every adapter that was closed is closed. -/
structure State.Keeps (s t : State) : Prop where
  gen : t.gen = s.gen
  decoders : s.decoders <+: t.decoders
  insts : ∀ (k : Nat) (e : Inst), s.insts[k]? = some e → ∃ e1, t.insts[k]? = some e1 ∧ e1.cfg = e.cfg ∧ e1.mode = e.mode ∧
    (e.closed = true → e1.closed = true)

namespace State.Keeps

theorem of_grown {s t : State} (hg : t.gen = s.gen) (hd : s.decoders <+: t.decoders) (hi : s.insts <+: t.insts) :
    s.Keeps t := by
  refine ⟨hg, hd, fun k e he => ⟨e, ?_, rfl, rfl, id⟩⟩
  obtain ⟨hk, rfl⟩ := List.getElem?_eq_some_iff.1 he
  exact List.prefix_iff_getElem?.1 hi k hk

theorem of_same {s t : State} (hg : t.gen = s.gen) (hd : t.decoders = s.decoders) (hi : t.insts = s.insts) : s.Keeps t :=
  of_grown hg (by rw [hd]) (by rw [hi])

theorem refl (s : State) : s.Keeps s := of_same rfl rfl rfl

theorem trans {s t u : State} (h : s.Keeps t) (h' : t.Keeps u) : s.Keeps u := by
  refine ⟨h'.gen.trans h.gen, h.decoders.trans h'.decoders, fun k e he => ?_⟩
  obtain ⟨e1, he1, hc, hm, hcl⟩ := h.insts k e he
  obtain ⟨e2, he2, hc', hm', hcl'⟩ := h'.insts k e1 he1
  exact ⟨e2, he2, hc'.trans hc, hm'.trans hm, hcl' ∘ hcl⟩

theorem setInst {s : State} {i : Nat} {e e1 : Inst} (he : s.insts[i]? = some e) (hc : e1.cfg = e.cfg)
    (hm : e1.mode = e.mode) (hcl : e.closed = true → e1.closed = true) : s.Keeps (s.setInst i e1) := by
  refine ⟨rfl, List.prefix_rfl, fun k x hx => ?_⟩
  by_cases hik : i = k
  · subst hik
    obtain rfl : e = x := Option.some.inj (he.symm.trans hx)
    obtain ⟨hi, -⟩ := List.getElem?_eq_some_iff.1 he
    exact ⟨e1, List.getElem?_set_self hi, hc, hm, hcl⟩
  · exact ⟨x, (State.setInst_other e1 hik).trans hx, rfl, rfl, id⟩

/-- An engine that has only run on keeps the configurations (R14). -/
theorem of_extends {s : State} {i : Nat} {e e1 : Inst} (he : s.insts[i]? = some e) (hx : e.Extends e1) :
    s.Keeps (s.setInst i e1) := by
  obtain ⟨hc, hm, hcl⟩ := hx.adapter
  exact setInst he hc hm (fun h => hcl.trans h)

theorem readNow {s : State} {i n : Nat} {e e1 : Inst} {bs : List Byte} {k : ReadKind} (he : s.insts[i]? = some e)
    (h : readNow n e = some (bs, k, e1)) : s.Keeps (s.setInst i e1) := by
  obtain ⟨rest, -, rfl⟩ := readNow_takes h
  exact setInst he rfl rfl id

theorem settle (s : State) : s.Keeps (settle s) := by
  rcases settle_cases s with h | ⟨r, e, bs, k, e1, -, he, -, hr, h⟩ <;> rw [h]
  · exact refl s
  · exact (readNow he hr).trans (of_same rfl rfl rfl)

theorem execRead {s t : State} {i n : Nat} (h : execRead i n s = .next t) : s.Keeps t := by
  obtain ⟨e, -, he, -, ⟨-, rfl⟩ | ⟨-, -, rfl⟩ | ⟨-, -, bs, k, e1, hr, rfl⟩ | ⟨-, -, -, e1, hd, rfl⟩⟩ := execRead_cases h
  · exact of_same rfl rfl rfl
  · exact of_same rfl rfl rfl
  · exact (readNow he hr).trans (of_same rfl rfl rfl)
  · have hop : (s.setInst i e1).Keeps ((s.setInst i e1).setOp (some ⟨i, n⟩)) := of_same rfl rfl rfl
    exact (of_extends he (drive_extends _ hd)).trans (hop.trans (settle _))

/-- Every host operation keeps the configurations (R61). -/
theorem exec_call {s t : State} {c : HostCall} (h : exec c.toInstr s = .next t) : s.Keeps t := by
  cases c with
  | construct oc ca ra ta =>
    obtain ⟨-, ⟨c, -, rfl⟩ | ⟨cfg, -, rfl⟩⟩ := execConstruct_cases h
    · exact of_same rfl rfl rfl
    · exact of_grown rfl (List.prefix_append _ _) List.prefix_rfl
  | decode d input =>
    obtain ⟨c, e, -, -, rfl⟩ := execDecode_cases h
    exact of_grown rfl List.prefix_rfl (List.prefix_append _ _)
  | openStream d source =>
    obtain ⟨c, -, rfl⟩ := execOpen_cases h
    exact of_grown rfl List.prefix_rfl (List.prefix_append _ _)
  | read i n => exact execRead h
  | close i =>
    obtain ⟨e, -, he, -, rfl⟩ := execClose_cases h
    exact (setInst (e1 := e.shut) he rfl rfl (fun _ => rfl)).trans (of_same rfl rfl rfl)
  | status i =>
    obtain ⟨e, -, -, rfl⟩ := execStatus_cases h
    exact of_same rfl rfl rfl

theorem step {s t : State} (h : step s = .next t) : s.Keeps t := by
  rcases step_cases h with ⟨-, -, rfl⟩ | ⟨c, rest, -, -, hx⟩ | ⟨r, e, hop, he, -⟩
  · exact refl _
  · have hcalls : s.Keeps (s.setCalls rest) := of_same rfl rfl rfl
    exact hcalls.trans (exec_call hx)
  · obtain ⟨e1, hx, rfl | ⟨rfl, -⟩⟩ := step_running hop he h
    · exact (of_extends he (engineStep_extends hx)).trans (settle _)
    · exact of_extends he (engineStep_extends hx)

end State.Keeps

/-- Settles O49: an engine never writes its configuration, mode or `closed`, and of the host operations CONSTRUCT only adds a
configuration and CLOSE only sets `closed`. -/
theorem configurationsAreImmutable : Obligations.ConfigurationsAreImmutable := by
  intro s t h
  obtain ⟨hg, hd, hi⟩ := State.Keeps.step h
  exact ⟨hg, hd, hi⟩

end Sys2Proof.Machine
end

/-! ## DECODE ends in a terminal phase (R82): each turn of its loop pulls one byte, and EOS ends it -/
section

namespace Sys2Proof.Machine

theorem Phase.boundary_of_terminal {p : Phase} (h : p.terminal = true) : p.boundary = true := by
  cases p <;> simp_all [Phase.terminal, Phase.boundary]

@[simp] theorem dispatch_src (e : Inst) : (dispatch e).src = e.src := by rw [dispatch_eq]; rfl

@[simp] theorem completeToken_src (e : Inst) : (completeToken e).src = e.src := by rw [completeToken_eq]; rfl

@[simp] theorem emitted_src (g : Generics) (v : Byte) (e : Inst) : (emitted g v e).src = e.src := by
  simp [emitted_same]

@[simp] theorem flushIfStream_src (e : Inst) : (flushIfStream e).src = e.src := by simp [flushIfStream_same]

theorem resolve_src (g : Generics) (l o : Int) (e : Inst) : (resolve g l o e).src = e.src := by
  rcases resolve_raises_or_starts g l o e with ⟨c, h⟩ | ⟨d, n, h⟩ <;> simp [h, raise]

section
variable {g : Generics} {e e1 : Inst}

/-- A copy pulls nothing (R75). -/
theorem copyToken_src (h : copyToken g e = .next e1) : e1.src = e.src := by
  obtain ⟨b, -, -, rfl⟩ := copyToken_next.1 h
  rcases copyAdvance_cases (emitted g b e) with hc | hc <;> simp [hc]

theorem runCopies_src (h : runCopies g e = .next e1) : e1.src = e.src :=
  runCopies_keeps (P := fun x => x.src = e.src) (fun _ _ hx hy => (copyToken_src hy).trans hx) rfl h

theorem runCopies_terminal (ht : e.phase.terminal = true) : runCopies g e = .next e := by
  have hdue : copiesDue e = 0 := by cases hp : e.phase <;> simp_all [copiesDue, Phase.terminal]
  simp [runCopies, hdue, copySteps]

/-- An engine step that meets a byte pulls that byte and no more (R33, R81). -/
theorem engineStep_byte {b : Byte} {rest : List SrcEvent} (hi : e.Inv g) (hc : e.phase ≠ .copy)
    (ht : e.phase.terminal = false) (hs : e.src = .byte b :: rest) (h : engineStep g e = .next e1) : e1.src = rest := by
  have hdrop : e.src.drop 1 = rest := by rw [hs]; rfl
  unfold engineStep at h
  cases hp : e.phase with
  | ctrl =>
    simp only [fetch_ctrl hp, hs] at h
    obtain ⟨-, rfl⟩ := ctrlToken_next.1 h
    simpa using hdrop
  | lit =>
    simp only [fetch_lit hp, hs] at h
    obtain ⟨-, -, rfl⟩ := litToken_next.1 h
    simpa using hdrop
  | ref =>
    have hl := hi.partialRef hp
    simp only [fetch_ref hp hl, hs] at h
    by_cases hlast : e.refBuf.length + 1 = g.refBytes
    · simp only [if_pos hlast] at h
      obtain ⟨k, l, o, he, hk⟩ := engineExec_decodeRef g (decodeCtx g e) (e.refBuf ++ [b]) e
      obtain rfl : k = g.refBytes := hk (by simpa [decodeCtx] using hlast)
      obtain ⟨-, rfl⟩ := refToken_next.1 (he.symm.trans h)
      have hone : g.refBytes - e.refBuf.length = 1 := by omega
      simpa [resolve_src, hone] using hdrop
    · simp only [if_neg hlast] at h
      obtain ⟨-, rfl⟩ := collectByte_next.1 h
      simpa using hdrop
  | copy => exact absurd hp hc
  | done => rw [hp] at ht; cases ht
  | failed => rw [hp] at ht; cases ht

/-- An engine step that meets EOS ends the stream: cleanly at CTRL, with a failure within a group (R65, R70, R71). -/
theorem engineStep_eos {rest : List SrcEvent} (hi : e.Inv g) (hc : e.phase ≠ .copy) (hs : e.src = .eos :: rest)
    (h : engineStep g e = .next e1) : e1.phase.terminal = true := by
  unfold engineStep at h
  cases hp : e.phase with
  | ctrl => simp only [fetch_ctrl hp, hs] at h; cases h; rfl
  | lit => simp only [fetch_lit hp, hs, engineExec, endTruncToken_eq] at h; cases h; rfl
  | ref => simp only [fetch_ref hp (hi.partialRef hp), hs, engineExec, endTruncToken_eq] at h; cases h; rfl
  | copy => exact absurd hp hc
  | done => rw [fetch_terminal (by rw [hp]; rfl)] at h; cases h; rw [hp]; rfl
  | failed => rw [fetch_terminal (by rw [hp]; rfl)] at h; cases h; rw [hp]; rfl

end

/-- DECODE's loop on an engine whose source is its list leaves it terminal. -/
theorem drive_terminal {g : Generics} (hR : 1 ≤ g.refBytes) (input : List Byte) : ∀ {e e1 : Inst}, e.Inv g →
    e.src = bufferSource input → drive g (fun x => x.phase.terminal) (bufferSource input) e = .next e1 →
    e1.phase.terminal = true := by
  induction input with
  | nil =>
    intro e e1 hi hs h
    obtain ⟨x, hx, ⟨hstop, rfl⟩ | ⟨-, -, y, hy, h⟩⟩ := drive_cons_next.1 h
    · simpa using hstop
    · obtain ⟨hxi, hxc⟩ := runCopies_inv hi hR hx
      have hyt := engineStep_eos hxi hxc ((runCopies_src hx).trans hs) hy
      cases (runCopies_terminal hyt).symm.trans h
      exact hyt
  | cons b bs ih =>
    intro e e1 hi hs h
    obtain ⟨x, hx, ⟨hstop, rfl⟩ | ⟨hgo, -, y, hy, h⟩⟩ := drive_cons_next.1 h
    · simpa using hstop
    · obtain ⟨hxi, hxc⟩ := runCopies_inv hi hR hx
      exact ih (engineStep_inv hxi hR hy) (engineStep_byte hxi hxc hgo ((runCopies_src hx).trans hs) hy) h

/-- DECODE's engine at its end: terminal, in the invariant, in BUFFER mode with the decoder's configuration (R82). -/
theorem decodeRun_spec {g : Generics} {c : Cfg} {input : List Byte} {e : Inst} (hR : 1 ≤ g.refBytes)
    (hthr : g.thresholdMin ≤ c.threshold) (h : decodeRun g c input = .next e) :
    e.Inv g ∧ e.phase.terminal = true ∧ e.cfg = c ∧ e.mode = .buffer := by
  have hi := engineReset_inv (g := g) c .buffer (bufferSource input) hthr
  obtain ⟨hcfg, hm, -⟩ := (drive_extends _ h).adapter
  exact ⟨drive_inv hR _ hi h, drive_terminal hR input hi rfl h, hcfg, hm⟩

end Sys2Proof.Machine
end

/-! ## Every step keeps the invariant (R30, R39, R85) -/
section

namespace Sys2Proof

/-- A supported instantiation's code has at least one byte (R6, R7). -/
theorem Generics.refBytes_pos {g : Generics} (h : g.supported = true) : 1 ≤ g.refBytes := by
  simp only [Generics.supported, Bool.and_eq_true, decide_eq_true_eq] at h
  obtain ⟨⟨⟨⟨ho, hl⟩, h8⟩, -⟩, -⟩ := h
  unfold Generics.codeBits at h8
  unfold Generics.refBytes Generics.codeBits
  omega

end Sys2Proof

namespace Sys2Proof.Machine

/-! ### What has been delivered -/

theorem deliveredIn_append (i : Nat) (rs rs' : List HostResult) :
    deliveredIn i (rs ++ rs') = deliveredIn i rs ++ deliveredIn i rs' := by
  induction rs with
  | nil => rfl
  | cons r rs ih =>
    cases r with
    | read j bs k =>
      by_cases hj : j = i <;> simp [deliveredIn, hj, ih]
    | constructed | constructError | decoded | closedOk | status => exact ih

@[simp] theorem deliveredIn_read_same (i : Nat) (bs : List Byte) (k : ReadKind) : deliveredIn i [.read i bs k] = bs := by
  simp [deliveredIn]

theorem deliveredIn_read_other {i j : Nat} (h : j ≠ i) (bs : List Byte) (k : ReadKind) :
    deliveredIn j [.read i bs k] = [] := by
  simp [deliveredIn, h.symm]

theorem deliveredIn_read_nil (i j : Nat) (k : ReadKind) : deliveredIn j [.read i [] k] = [] := by
  simp [deliveredIn]

/-! ### An engine's invariant under what READ and CLOSE do to it -/

theorem Inst.Inv.readNow {g : Generics} {n : Nat} {e e1 : Inst} {bs : List Byte} {k : ReadKind} (hi : e.Inv g)
    (h : readNow n e = some (bs, k, e1)) : e1.Inv g := by
  obtain ⟨rest, hr, rfl⟩ := readNow_takes h
  refine { hi with bufferMode := fun hm => ?_ }
  obtain ⟨hring, hp, hy, hc⟩ := hi.bufferMode hm
  rw [hy] at hr
  exact ⟨hring, hp, (List.append_eq_nil_iff.1 hr.symm).2, hc⟩

theorem Inst.Inv.shut {g : Generics} {e : Inst} (hi : e.Inv g) (hm : e.mode = .stream) : e.shut.Inv g :=
  { hi with bufferMode := fun hb => by cases hm.symm.trans hb }

/-- What READ takes from `ready` it returns (R86). -/
theorem readNow_undelivered {n : Nat} {e e1 : Inst} {bs : List Byte} {k : ReadKind} (h : readNow n e = some (bs, k, e1)) :
    bs ++ undelivered e1 = undelivered e := by
  obtain ⟨rest, hr, rfl⟩ := readNow_takes h
  simp [undelivered, hr]

/-- Between rounds READ runs no further round exactly when it can return (R85, R86). -/
theorem readStop_iff {e : Inst} (n : Nat) : readStop e = true ↔ e.phase.boundary = true ∧ readNow n e ≠ none := by
  simp only [readStop, ne_eq, readNow_none, Bool.and_eq_true, Bool.or_eq_true, Bool.not_eq_true', List.isEmpty_eq_false_iff]
  cases e.phase.terminal <;> simp

/-- All that `settle` can do with a READ under way: it stays under way while a round is due, and else returns (R86). -/
theorem settle_running {s : State} {r : Running} {e : Inst} (hop : s.op = some r) (he : s.insts[r.inst]? = some e) :
    (readStop e = false ∧ settle s = s) ∨
    (readStop e = true ∧ ∃ bs k e1, readNow r.n e = some (bs, k, e1) ∧
      settle s = ((s.setInst r.inst e1).setOp none).addResult (.read r.inst bs k)) := by
  cases hstop : readStop e with
  | true =>
    obtain ⟨hb, hr⟩ := (readStop_iff r.n).1 hstop
    obtain ⟨⟨bs, k, e1⟩, hr⟩ := Option.ne_none_iff_exists'.1 hr
    exact .inr ⟨rfl, bs, k, e1, hr, by simp [settle, hop, he, hb, hr]⟩
  | false =>
    refine .inl ⟨rfl, ?_⟩
    cases hb : e.phase.boundary with
    | false => simp [settle, hop, he, hb]
    | true =>
      have hr : readNow r.n e = none := by
        by_contra hr
        cases hstop.symm.trans ((readStop_iff r.n).2 ⟨hb, hr⟩)
      simp [settle, hop, he, hr]

/-! ### One rule per way a step changes the machine -/

/-- The READ under way once `insts[i]` is `e1`: none, or one on `i` that has to go on (R85, R86). -/
def OpFits (i : Nat) (e1 : Inst) (o : Option Running) : Prop :=
  (o = none ∧ e1.phase.boundary = true) ∨
  ∃ n, o = some ⟨i, n⟩ ∧ 1 ≤ n ∧ e1.mode = .stream ∧ e1.closed = false ∧ readStop e1 = false

namespace State.Inv

theorem refBytes_pos {s : State} {c : Cfg} (h : s.Inv) (hc : c ∈ s.decoders) : 1 ≤ s.gen.refBytes :=
  Generics.refBytes_pos (h.supported (List.ne_nil_of_mem hc))

/-- R30's equation: what was returned and what is still to be delivered make up the history. -/
theorem accounted {s : State} {i : Nat} {e : Inst} (h : s.Inv) (he : s.insts[i]? = some e) (hm : e.mode = .stream)
    (hc : e.closed = false) : deliveredIn i s.results ++ undelivered e = e.hist := by
  simpa [undelivered] using h.served i e he hm hc

theorem setCalls {s : State} (h : s.Inv) (cs : List HostCall) : (s.setCalls cs).Inv := { h with }

/-- A result that returns no byte of an adapter. -/
theorem addResult {s : State} {r : HostResult} (h : s.Inv) (hr : ∀ i, deliveredIn i [r] = []) : (s.addResult r).Inv := by
  have hsame : ∀ i, deliveredIn i (s.addResult r).results = deliveredIn i s.results := fun i => by
    simp [deliveredIn_append, hr i]
  exact
    { h with
      served := fun i e he hm hc => by rw [hsame]; exact h.served i e he hm hc
      unread := fun i hi => by rw [hsame]; exact h.unread i hi }

theorem addDecoder {s : State} {c : Cfg} (h : s.Inv) (hs : s.gen.supported = true)
    (hthr : s.gen.thresholdMin ≤ c.threshold) : (s.addDecoder c).Inv :=
  { h with
    supported := fun _ => hs
    thresholds := fun c' hc' => by
      rcases List.mem_append.1 hc' with hold | hnew
      · exact h.thresholds c' hold
      · rw [List.mem_singleton.1 hnew]; exact hthr
    configs := fun e he => List.mem_append_left _ (h.configs e he) }

/-- An engine of the lengthened list is an old one or the new one. -/
theorem addInst_cases {s : State} {e x : Inst} {j : Nat} (hx : (s.addInst e).insts[j]? = some x) :
    s.insts[j]? = some x ∨ (j = s.insts.length ∧ x = e) := by
  rcases Nat.lt_trichotomy j s.insts.length with hlt | rfl | hgt
  · exact .inl ((List.getElem?_append_left hlt).symm.trans hx)
  · exact .inr ⟨rfl, Option.some.inj (hx.symm.trans List.getElem?_concat_length)⟩
  · rw [List.getElem?_eq_none (by simp [State.addInst]; omega)] at hx
    cases hx

/-- DECODE and OPEN: a new engine of a constructed decoder, between rounds, nothing of whose history has been returned. -/
theorem addInst {s : State} {e : Inst} (h : s.Inv) (hcfg : e.cfg ∈ s.decoders) (hinv : e.Inv s.gen)
    (hb : e.phase.boundary = true) (hfresh : e.mode = .stream → e.closed = false → undelivered e = e.hist) :
    (s.addInst e).Inv where
  supported := h.supported
  thresholds := h.thresholds
  configs x hx := by
    rcases List.mem_append.1 hx with hold | hnew
    · exact h.configs x hold
    · rw [List.mem_singleton.1 hnew]; exact hcfg
  engines x hx := by
    rcases List.mem_append.1 hx with hold | hnew
    · exact h.engines x hold
    · rw [List.mem_singleton.1 hnew]; exact hinv
  between j x hx hn := by
    rcases addInst_cases hx with hold | ⟨-, rfl⟩
    · exact h.between j x hold hn
    · exact hb
  running r hr := by
    obtain ⟨hn, x, hx, hm, hc, hstop⟩ := h.running r hr
    obtain ⟨hlt, -⟩ := List.getElem?_eq_some_iff.1 hx
    exact ⟨hn, x, (List.getElem?_append_left hlt).trans hx, hm, hc, hstop⟩
  served j x hx hm hc := by
    rcases addInst_cases hx with hold | ⟨rfl, rfl⟩
    · exact h.served j x hold hm hc
    · simpa [h.unread _ (Nat.le_refl _), undelivered] using hfresh hm hc
  unread j hj := h.unread j (by simp [State.addInst] at hj; omega)

/-- READ and CLOSE: `insts[i]` becomes `e1`, the READ under way, if any, was and is on `i`, and what is returned is
returned from `i`. -/
theorem replace {s : State} {i : Nat} {e e1 : Inst} {o : Option Running} {rs : List HostResult} (h : s.Inv)
    (he : s.insts[i]? = some e) (hown : ∀ r, s.op = some r → r.inst = i) (hcfg : e1.cfg = e.cfg) (hinv : e1.Inv s.gen)
    (hop : OpFits i e1 o) (hrs : ∀ j, j ≠ i → deliveredIn j rs = [])
    (hserved : e1.mode = .stream → e1.closed = false → deliveredIn i (s.results ++ rs) ++ undelivered e1 = e1.hist) :
    State.Inv { s with insts := s.insts.set i e1, op := o, results := s.results ++ rs } := by
  obtain ⟨hi, -⟩ := List.getElem?_eq_some_iff.1 he
  have hself : (s.insts.set i e1)[i]? = some e1 := List.getElem?_set_self hi
  have hother : ∀ j, j ≠ i → (s.insts.set i e1)[j]? = s.insts[j]? := fun j hj => List.getElem?_set_ne hj.symm
  have hresults : ∀ j, j ≠ i → deliveredIn j (s.results ++ rs) = deliveredIn j s.results := fun j hj => by
    rw [deliveredIn_append, hrs j hj, List.append_nil]
  refine ⟨h.supported, h.thresholds, fun x hx => ?_, fun x hx => ?_, fun j x hx hn => ?_, fun r hr => ?_,
    fun j x hx hm hc => ?_, fun j hj => ?_⟩
  · rcases List.mem_or_eq_of_mem_set hx with hold | rfl
    · exact h.configs x hold
    · rw [hcfg]; exact h.configs e (List.mem_of_getElem? he)
  · rcases List.mem_or_eq_of_mem_set hx with hold | rfl
    · exact h.engines x hold
    · exact hinv
  · by_cases hj : j = i
    · subst hj
      obtain rfl : e1 = x := Option.some.inj (hself.symm.trans hx)
      rcases hop with ⟨-, hb⟩ | ⟨n, ho, -⟩
      · exact hb
      · exact absurd ho (hn n)
    · exact h.between j x ((hother j hj).symm.trans hx) fun n ho => hj (hown _ ho)
  · rcases hop with ⟨ho, -⟩ | ⟨n, ho, hn, hm, hc, hstop⟩
    · cases ho.symm.trans hr
    · obtain rfl : ⟨i, n⟩ = r := Option.some.inj (ho.symm.trans hr)
      exact ⟨hn, e1, hself, hm, hc, hstop⟩
  · by_cases hj : j = i
    · subst hj
      obtain rfl : e1 = x := Option.some.inj (hself.symm.trans hx)
      simpa [undelivered] using hserved hm hc
    · show deliveredIn j (s.results ++ rs) ++ _ ++ _ = _
      rw [hresults j hj]
      exact h.served j x ((hother j hj).symm.trans hx) hm hc
  · have hj : s.insts.length ≤ j := by simpa using hj
    exact (hresults j (by omega)).trans (h.unread j hj)

/-! ### READ -/

section Read
variable {s : State} {i n : Nat} {e e1 : Inst}

/-- The account of an open adapter whose engine has run on (R30). -/
theorem accounted_extends (h : s.Inv) (he : s.insts[i]? = some e) (hm : e.mode = .stream) (hc : e.closed = false)
    (hx : e.Extends e1) : deliveredIn i s.results ++ undelivered e1 = e1.hist := by
  obtain ⟨bs, hh, hu⟩ := hx.output
  rw [hu hm, hh, ← List.append_assoc, h.accounted he hm hc]

/-- A READ returns (R86). -/
theorem returns {bs : List Byte} {k : ReadKind} {e2 : Inst} (h : s.Inv) (he : s.insts[i]? = some e)
    (hown : ∀ r, s.op = some r → r.inst = i) (hm : e.mode = .stream) (hc : e.closed = false) (hx : e.Extends e1)
    (hinv : e1.Inv s.gen) (hb : e1.phase.boundary = true) (hr : readNow n e1 = some (bs, k, e2)) :
    State.Inv { s with insts := s.insts.set i e2, op := none, results := s.results ++ [.read i bs k] } := by
  obtain ⟨rest, -, hset⟩ := readNow_takes hr
  obtain ⟨hcfg, -, -⟩ := hx.adapter
  refine h.replace he hown (by rw [hset]; exact hcfg) (hinv.readNow hr) (.inl ⟨rfl, by rw [hset]; exact hb⟩)
    (fun j hj => deliveredIn_read_other hj bs k) fun _ _ => ?_
  rw [deliveredIn_append, deliveredIn_read_same, List.append_assoc, readNow_undelivered hr,
    h.accounted_extends he hm hc hx, hset]
  rfl

/-- A READ whose engine has run on returns if it can, and else stays under way (R85, R86). -/
theorem settles (h : s.Inv) (he : s.insts[i]? = some e) (hown : ∀ r, s.op = some r → r.inst = i) (hn : 1 ≤ n)
    (hm : e.mode = .stream) (hc : e.closed = false) (hx : e.Extends e1) (hinv : e1.Inv s.gen) :
    (settle ((s.setInst i e1).setOp (some ⟨i, n⟩))).Inv := by
  obtain ⟨hi, -⟩ := List.getElem?_eq_some_iff.1 he
  obtain ⟨hcfg, hm1, hc1⟩ := hx.adapter
  rcases settle_running (s := (s.setInst i e1).setOp (some ⟨i, n⟩)) rfl (List.getElem?_set_self hi) with
    ⟨hstop, ht⟩ | ⟨hstop, bs, k, e2, hr, ht⟩ <;> rw [ht]
  · have hstay := h.replace (rs := []) he hown hcfg hinv
      (.inr ⟨n, rfl, hn, hm1.trans hm, hc1.trans hc, hstop⟩) (fun _ _ => rfl) fun _ _ => by
        rw [List.append_nil]; exact h.accounted_extends he hm hc hx
    rw [List.append_nil] at hstay
    exact hstay
  · have hret := h.returns he hown hm hc hx hinv ((readStop_iff n).1 hstop).1 hr
    rw [← List.set_set e1] at hret
    exact hret

theorem execRead {t : State} (h : s.Inv) (hx : execRead i n s = .next t) : t.Inv := by
  obtain ⟨e, hop, he, hm, hcase⟩ := execRead_cases hx
  have hmem := List.mem_of_getElem? he
  have hinv := h.engines e hmem
  have hown : ∀ r, s.op = some r → r.inst = i := fun r hr => by rw [hop] at hr; cases hr
  rcases hcase with ⟨-, rfl⟩ | ⟨-, -, rfl⟩ | ⟨hc, -, bs, k, e1, hr, rfl⟩ | ⟨hc, hn, -, e1, hd, rfl⟩
  · exact h.addResult fun j => deliveredIn_read_nil i j _
  · exact h.addResult fun j => deliveredIn_read_nil i j _
  · have hb := h.between i e he fun n ho => by rw [hop] at ho; cases ho
    have hret := h.returns he hown hm hc (.refl e) hinv hb hr
    rw [← hop] at hret
    exact hret
  · exact h.settles he hown (Nat.pos_of_ne_zero hn) hm hc (drive_extends _ hd)
      (drive_inv (h.refBytes_pos (h.configs e hmem)) _ hinv hd)

end Read

/-! ### The other host operations -/

theorem execConstruct {s t : State} {oc : Int} {ca : CtrlArg} {ra : RefArg} {ta : ThrArg} (h : s.Inv)
    (hx : execConstruct oc ca ra ta s = .next t) : t.Inv := by
  obtain ⟨hs, ⟨c, -, rfl⟩ | ⟨cfg, hcfg, rfl⟩⟩ := execConstruct_cases hx
  · exact h.addResult fun _ => rfl
  · exact (h.addDecoder hs (constructCfg_threshold hcfg)).addResult fun _ => rfl

theorem execDecode {s t : State} {d : Nat} {input : List Byte} (h : s.Inv) (hx : execDecode d input s = .next t) :
    t.Inv := by
  obtain ⟨c, e, hd, hrun, rfl⟩ := execDecode_cases hx
  have hc := List.mem_of_getElem? hd
  obtain ⟨hinv, hterm, hcfg, hm⟩ := decodeRun_spec (h.refBytes_pos hc) (h.thresholds c hc) hrun
  refine (h.addInst (by rw [hcfg]; exact hc) hinv (Phase.boundary_of_terminal hterm) fun hs => ?_).addResult fun _ => rfl
  cases hm.symm.trans hs

theorem execOpen {s t : State} {d : Nat} {source : List SrcEvent} (h : s.Inv) (hx : execOpen d source s = .next t) :
    t.Inv := by
  obtain ⟨c, hd, rfl⟩ := execOpen_cases hx
  have hc := List.mem_of_getElem? hd
  exact h.addInst hc (engineReset_inv c .stream source (h.thresholds c hc)) rfl fun _ _ => rfl

/-- CLOSE: nothing is served from the adapter any more, and no READ is under way. -/
theorem execClose {s t : State} {i : Nat} (h : s.Inv) (hop : s.op = none) (hx : execClose i s = .next t) : t.Inv := by
  obtain ⟨e, -, he, hm, rfl⟩ := execClose_cases hx
  have hb := h.between i e he fun n ho => by rw [hop] at ho; cases ho
  have hshut := h.replace (e1 := e.shut) (o := none) (rs := [.closedOk i]) he (fun r hr => by rw [hop] at hr; cases hr) rfl
    ((h.engines e (List.mem_of_getElem? he)).shut hm) (.inl ⟨rfl, hb⟩) (fun _ _ => rfl) fun _ hc => by cases hc
  rw [← hop] at hshut
  exact hshut

theorem execStatus {s t : State} {i : Nat} (h : s.Inv) (hx : execStatus i s = .next t) : t.Inv := by
  obtain ⟨e, -, -, rfl⟩ := execStatus_cases hx
  exact h.addResult fun _ => rfl

theorem exec_call {s t : State} {c : HostCall} (h : s.Inv) (hop : s.op = none) (hx : exec c.toInstr s = .next t) :
    t.Inv := by
  cases c with
  | construct oc ca ra ta => exact h.execConstruct hx
  | decode d input => exact h.execDecode hx
  | openStream d source => exact h.execOpen hx
  | read i n => exact h.execRead hx
  | close i => exact h.execClose hop hx
  | status i => exact h.execStatus hx

/-- An engine step within a READ under way, with the return that may follow (R81, R86). -/
theorem step_running {s t : State} {r : Running} {e : Inst} (h : s.Inv) (hop : s.op = some r)
    (he : s.insts[r.inst]? = some e) (hx : step s = .next t) : t.Inv := by
  have hmem := List.mem_of_getElem? he
  have hown : ∀ r', s.op = some r' → r'.inst = r.inst := fun r' hr => by rw [Option.some.inj (hop.symm.trans hr)]
  obtain ⟨hn, e', he', hm, hc, hstop⟩ := h.running r hop
  obtain rfl : e = e' := Option.some.inj (he.symm.trans he')
  obtain ⟨hi, -⟩ := List.getElem?_eq_some_iff.1 he
  obtain ⟨e1, hstep, ht⟩ := Machine.step_running hop he hx
  have hsettle := h.settles he hown hn hm hc (engineStep_extends hstep)
    (engineStep_inv (h.engines e hmem) (h.refBytes_pos (h.configs e hmem)) hstep)
  have hsame : (s.setInst r.inst e1).setOp (some r) = s.setInst r.inst e1 := by simp [State.setOp, State.setInst, hop]
  rw [hsame] at hsettle
  rcases ht with rfl | ⟨rfl, hstay⟩
  · exact hsettle
  · rcases settle_running (s := s.setInst r.inst e1) hop (List.getElem?_set_self hi) with ⟨-, hset⟩ | ⟨hgo, -⟩
    · rwa [hset] at hsettle
    · cases hstop.symm.trans (hstay.symm.trans hgo)

/-- One step of the machine (R79, R81, R99). -/
theorem step {s t : State} (h : s.Inv) (hx : step s = .next t) : t.Inv := by
  rcases step_cases hx with ⟨-, -, rfl⟩ | ⟨c, rest, hop, -, hcall⟩ | ⟨r, e, hop, he, -⟩
  · exact h
  · exact (h.setCalls rest).exec_call hop hcall
  · exact h.step_running hop he hx

end State.Inv

/-- Settles O45, by the ways a step can change the machine: the engine's own invariant is kept by every token, DECODE ends
terminal, and a READ stays under way only where a round is due. -/
theorem stepKeepsTheInvariant : Obligations.StepKeepsTheInvariant := by
  intro s t h hstep
  exact h.step hstep

/-- Settles O44: with no decoder, no engine and no READ under way nothing is left to show. -/
theorem invariantHoldsAtReset : Obligations.InvariantHoldsAtReset := by
  refine ⟨⟨fun h => absurd rfl h, ?_, ?_, ?_, ?_, ?_, ?_, fun _ _ => rfl⟩, rfl, rfl, rfl, rfl⟩ <;> simp [State.reset]

end Sys2Proof.Machine
end

/-! ## Frame of the tokens without output (R18 to R23, R26) -/
section

namespace Sys2Proof.Machine

theorem sameOutside_setInst (s : State) (k : Nat) (e1 : Inst) : SameOutside s (s.setInst k e1) k :=
  ⟨rfl, rfl, rfl, rfl, rfl, List.length_set, fun _ hj => State.setInst_other e1 hj.symm⟩

/-- A token changes the engine it runs on and nothing outside it (R99, R102). -/
theorem RunsOn.exec_token {s t : State} {k : Nat} {e : Inst} {i : Instr} (hr : RunsOn s k e) (hi : isToken i = true)
    (h : exec i s = .next t) :
    SameOutside s t k ∧ ∃ e1, t.insts[k]? = some e1 ∧ engineExec s.gen i e = .next e1 := by
  obtain ⟨⟨n, hop⟩, he⟩ := hr
  obtain ⟨-, e1, hx, rfl⟩ := exec_token_next hop he hi h
  obtain ⟨hk, -⟩ := List.getElem?_eq_some_iff.1 he
  exact ⟨sameOutside_setInst s k e1, e1, List.getElem?_set_self hk, hx⟩

/-- `raise` writes the phase and the cause, and in STREAM mode `pending` and `ready` (R93). -/
theorem raise_same (c : Cause) (e : Inst) :
    SameAdapter e (raise c e) ∧ (raise c e).hist = e.hist ∧ (raise c e).outCount = e.outCount ∧
    (raise c e).ring = e.ring ∧ (raise c e).sub = e.sub ∧ (raise c e).ctrl = e.ctrl ∧ (raise c e).refBuf = e.refBuf ∧
    (raise c e).copyRem = e.copyRem ∧ (raise c e).copyDist = e.copyDist ∧ (raise c e).consumed = e.consumed ∧
    (e.mode = .buffer → (raise c e).pending = e.pending ∧ (raise c e).ready = e.ready) := by
  simp +contextual [raise, SameAdapter, flushIfStream_same, flushIfStream_buffer]

/-- `Finish` writes the phase, and in STREAM mode `pending` and `ready` (R67). -/
theorem finish_same (e : Inst) :
    SameAdapter e (finish e) ∧ (finish e).hist = e.hist ∧ (finish e).outCount = e.outCount ∧ (finish e).ring = e.ring ∧
    (finish e).sub = e.sub ∧ (finish e).ctrl = e.ctrl ∧ (finish e).refBuf = e.refBuf ∧ (finish e).copyRem = e.copyRem ∧
    (finish e).copyDist = e.copyDist ∧ (finish e).consumed = e.consumed ∧ (finish e).cause = e.cause ∧
    (e.mode = .buffer → (finish e).pending = e.pending ∧ (finish e).ready = e.ready) := by
  simp +contextual [finish, SameAdapter, flushIfStream_same, flushIfStream_buffer]

/-- A failing reference leaves the copy registers, a valid one the cause and the adapter (R71, R74). -/
theorem refToken_frame {g : Generics} {k : Nat} {l o : Int} {e e1 : Inst} (h : refToken g k l o e = .next e1) :
    SameAdapter e e1 ∧ e1.hist = e.hist ∧ e1.outCount = e.outCount ∧ e1.ring = e.ring ∧ e1.sub = e.sub ∧
    e1.ctrl = e.ctrl ∧ (e1.phase ≠ .failed → e1.cause = e.cause ∧ e1.pending = e.pending ∧ e1.ready = e.ready) ∧
    (e1.phase = .failed → e1.copyRem = e.copyRem ∧ e1.copyDist = e.copyDist) ∧
    (e.mode = .buffer → e1.pending = e.pending ∧ e1.ready = e.ready) := by
  obtain ⟨-, rfl⟩ := refToken_next.1 h
  rcases resolve_raises_or_starts g l o ((e.pulled (k - e.refBuf.length)).setRefBuf []) with ⟨c, hr⟩ | ⟨d, n, hr⟩ <;>
    rw [hr]
  · obtain ⟨ha, hh, ho, hring, hs, hc, -, hrem, hd, -, hb⟩ := raise_same c _
    exact ⟨ha, hh, ho, hring, hs, hc, fun hp => absurd rfl hp, fun _ => ⟨hrem, hd⟩, hb⟩
  · simp [SameAdapter]

/-- Settles O26: each token's next engine is its own registers' update followed by Dispatch, Finish, `raise` or Resolve, whose
frames are known. -/
theorem tokensWithoutOutputFrame : Obligations.TokensWithoutOutputFrame := by
  intro s t k e i hr h
  cases i with
  | ctrl c =>
    obtain ⟨hout, e1, he1, hx⟩ := hr.exec_token rfl h
    obtain ⟨-, rfl⟩ := ctrlToken_next.1 hx
    exact ⟨hout, _, he1, by simp [dispatch_eq, SameAdapter]⟩
  | endClean =>
    obtain ⟨hout, e1, he1, hx⟩ := hr.exec_token rfl h
    cases hx
    exact ⟨hout, _, he1, finish_same e.pastEvent⟩
  | endTrunc =>
    obtain ⟨hout, e1, he1, hx⟩ := hr.exec_token rfl h
    rw [engineExec, endTruncToken_eq] at hx
    cases hx
    obtain ⟨ha, hh, ho, hring, hs, hc, href, hrem, hd, hcons, hb⟩ := raise_same .unexpectedEof (truncated e)
    refine ⟨hout, _, he1, ?_⟩
    by_cases hp : e.phase = .ref
    · rw [truncated_of_ref hp] at *
      exact ⟨ha, hh, ho, hring, hs, hc, hrem, hd, hcons, fun hne => absurd hp hne, hb⟩
    · rw [truncated_of_ne_ref hp] at *
      exact ⟨ha, hh, ho, hring, hs, hc, hrem, hd, hcons, fun _ => href, hb⟩
  | ref | refLsbLenlow | refMsbLenlow | refLsbLenhigh | refMsbLenhigh =>
    obtain ⟨hout, e1, he1, hx⟩ := hr.exec_token rfl h
    exact ⟨hout, e1, he1, refToken_frame hx⟩
  | lit | copy | construct | decode | openStream | read | close | status => trivial

end Sys2Proof.Machine
end

/-! ## Supplied functions as tables, and the CONFIG view (R14, R15) -/
section

namespace Sys2Proof.Machine

/-! ### Tables of functions with a finite domain (D7) -/

/-- On a finite domain a function is what a list of its values looks up. -/
theorem exists_lookup_eq {α β : Type} [BEq α] [LawfulBEq α] {domain : Set α} (h : domain.Finite) (f : α → β) :
    ∃ entries : List (α × β), ∀ a ∈ domain, entries.lookup a = some (f a) :=
  ⟨h.toFinset.toList.map fun a => (a, f a), fun a ha => List.lookup_graph f (by simpa using ha)⟩

/-- A supplied control function is asked of sub-rounds 0..7 only (R14). -/
theorem exists_ctrlTable (f : Byte → Fin 8 → Bool) : ∃ t : CtrlTable, ∀ c i, CtrlTable.apply t c i.val = f c i := by
  have hfin : ((Set.univ : Set Byte) ×ˢ Set.Iio 8).Finite := Set.finite_univ.prod (Set.finite_Iio 8)
  obtain ⟨entries, hlookup⟩ := exists_lookup_eq hfin fun a => f a.1 (Fin.ofNat 8 a.2)
  refine ⟨⟨entries, false⟩, fun c i => ?_⟩
  have hval : entries.lookup (c, i.val) = some (f c i) := by
    simpa using hlookup (c, i.val) ⟨Set.mem_univ c, i.isLt⟩
  simp [CtrlTable.apply, hval]

/-- A supplied reference function is asked of `n` bytes and one of the two orders only (R14). -/
theorem exists_refTable (n : Nat) (f : List Byte → Order → Int × Int) :
    ∃ t : RefTable, ∀ bytes ord, bytes.length = n → RefTable.apply t bytes ord = f bytes ord := by
  have hfin : ({bytes : List Byte | bytes.length = n} ×ˢ ({.lsb, .msb} : Set Order)).Finite :=
    (List.finite_length_eq Byte n).prod (Set.toFinite _)
  obtain ⟨entries, hlookup⟩ := exists_lookup_eq hfin fun a => f a.1 a.2
  refine ⟨⟨entries, (0, 0)⟩, fun bytes ord hlen => ?_⟩
  have hord : ord ∈ ({.lsb, .msb} : Set Order) := by cases ord <;> simp
  simp [RefTable.apply, hlookup (bytes, ord) ⟨hlen, hord⟩]

/-- Settles O10: the two domains are finite, and each table lists its function's values on the domain. -/
theorem everySuppliedFunctionIsATable : Obligations.EverySuppliedFunctionIsATable := by
  refine ⟨exists_ctrlTable, fun g n f => ?_⟩
  obtain ⟨t, ht⟩ := exists_refTable n f
  refine ⟨t, fun c bytes hc hlen => ?_⟩
  simpa [applyDecRef, hc] using ht bytes c.order hlen

/-! ### The CONFIG view -/

theorem toNat_append_bit {n a : Nat} (x : BitVec n) (ha : a < 2) :
    (x ++ BitVec.ofNat 1 a).toNat = 2 * x.toNat + a := by
  have ha' : (BitVec.ofNat 1 a).toNat = a := Nat.mod_eq_of_lt (by simpa using ha)
  rw [BitVec.toNat_append, ha', ← Nat.shiftLeft_add_eq_or_of_lt (by simpa using ha), Nat.shiftLeft_eq]
  omega

theorem flagBit_lt (b : Bool) : flagBit b < 2 := by cases b <;> decide

theorem orderCode_lt (ord : Order) : orderCode ord < 2 := by cases ord <;> decide

theorem splitCode_lt (sp : Split) : splitCode sp < 2 := by cases sp <;> decide

/-- The CONFIG view as the sum of its fields (R15). -/
theorem configWord_toNat (g : Generics) (c : Cfg) :
    (configWord g c).toNat = orderCode c.order + 2 * splitCode g.split + 4 * flagBit (CtrlFn.isSupplied c.isLit) +
      8 * flagBit (RefFn.isSupplied c.decRef) := by
  have hzero : (BitVec.ofNat 12 0).toNat = 0 := rfl
  rw [configWord, toNat_append_bit _ (orderCode_lt _), toNat_append_bit _ (splitCode_lt _),
    toNat_append_bit _ (flagBit_lt _), toNat_append_bit _ (flagBit_lt _), hzero]
  omega

/-- Settles O40: each field is one bit, set exactly in the named case. -/
theorem configViewShowsTheConfiguration : Obligations.ConfigViewShowsTheConfiguration := by
  intro g c
  refine ⟨?_, rfl⟩
  have hord : orderCode c.order = if c.order = .msb then 1 else 0 := by cases c.order <;> rfl
  have hsplit : splitCode g.split = if g.split = .lengthHigh then 1 else 0 := by cases g.split <;> rfl
  have hctrl : flagBit (CtrlFn.isSupplied c.isLit) = if c.isLit = .default then 0 else 1 := by cases c.isLit <;> rfl
  have href : flagBit (RefFn.isSupplied c.decRef) = if c.decRef = .default then 0 else 1 := by cases c.decRef <;> rfl
  rw [configWord_toNat, hord, hsplit, hctrl, href]
  simp only [mul_ite, mul_one, mul_zero]

end Sys2Proof.Machine
end

/-! ## What the decoder reads (R33, R55): the bytes the phase asks for, up to EOS -/
section

namespace Sys2Proof

/-- What `takeBytes` reads: the first answers, which give the same whatever follows them, and all `n` bytes unless it meets EOS. -/
theorem takeBytes_reads {n : Nat} : ∀ {evs left : List SrcEvent} {o : Option (List Byte)}, takeBytes n evs = .ok (o, left) →
    (∀ bs, o = some bs → bs.length = n) ∧
    ∃ used, evs = used ++ left ∧ ∀ more, takeBytes n (used ++ more) = .ok (o, more) := by
  induction n with
  | zero =>
    intro evs left o h
    cases h
    exact ⟨fun bs hbs => by cases hbs; rfl, [], rfl, fun _ => rfl⟩
  | succ n ih =>
    intro evs left o h
    cases evs with
    | nil => cases h
    | cons ev rest =>
      cases ev with
      | byte b =>
        cases hrest : takeBytes n rest with
        | error r => simp [takeBytes, hrest] at h
        | ok p =>
          obtain ⟨o', left'⟩ := p
          obtain ⟨hlen, used, rfl, hmore⟩ := ih hrest
          cases o' with
          | none =>
            simp only [takeBytes, hrest] at h
            cases h
            exact ⟨nofun, .byte b :: used, rfl, fun more => by simp [takeBytes, hmore]⟩
          | some bs =>
            simp only [takeBytes, hrest] at h
            cases h
            exact ⟨fun _ hbs => by cases hbs; simp [hlen bs rfl], .byte b :: used, rfl,
              fun more => by simp [takeBytes, hmore]⟩
      | eos =>
        cases h
        exact ⟨nofun, [.eos], rfl, fun _ => rfl⟩
      | later => cases h
      | failed => cases h

/-- How many bytes a token of the phase has (R57). -/
def DecodeCtx.pulls (c : DecodeCtx) : Nat :=
  match c.phase with
  | .ref => c.gen.refBytes
  | .ctrl | .lit => 1
  | .copy | .done | .failed => 0

/-- The token of the phase for the bytes taken, or for EOS among them (R57). -/
def DecodeCtx.token (c : DecodeCtx) : Option (List Byte) → Instr :=
  match c.phase with
  | .ctrl => fun
    | some [b] => .ctrl b
    | _ => .endClean
  | .lit => fun
    | some [b] => .lit b
    | _ => .endTrunc
  | .ref => fun
    | some bs => decodeRef c bs
    | none => .endTrunc
  | .copy | .done | .failed => fun _ => .copy

/-- The decoder takes the bytes its phase asks for and makes them the phase's token; a terminal phase selects none (R57, R96). -/
theorem decode_ok_iff {c : DecodeCtx} {evs left : List SrcEvent} {i : Instr} :
    Sys2Proof.decode c evs = .ok (i, left) ↔
      c.phase.terminal = false ∧ ∃ o, takeBytes c.pulls evs = .ok (o, left) ∧ i = c.token o := by
  unfold Sys2Proof.decode DecodeCtx.pulls DecodeCtx.token
  cases hp : c.phase with
  | ctrl | lit =>
    cases takeBytes 1 evs with
    | error r => simp
    | ok p =>
      obtain ⟨_ | _ | ⟨b, _ | ⟨b', bs⟩⟩, left'⟩ := p <;>
        simp [Machine.Phase.terminal, eq_comm (b := i), and_comm]
  | ref =>
    cases takeBytes c.gen.refBytes evs with
    | error r => simp
    | ok p =>
      obtain ⟨_ | bs, left'⟩ := p <;> simp [Machine.Phase.terminal, eq_comm (b := i), and_comm]
  | copy => simp [Machine.Phase.terminal, takeBytes, and_comm, eq_comm (b := i)]
  | done | failed => simp [Machine.Phase.terminal]

/-- A complete code decodes to a reference that is well formed where it was read: a layout in the 12/4 widths and its own
`SPLIT`, a generic REF with `REF_BYTES` bytes (R50, R54). -/
theorem decodeRef_wf {c : DecodeCtx} {bytes : List Byte} (h : bytes.length = c.gen.refBytes) :
    (decodeRef c bytes).wf c.gen = true := by
  have hgeneric : (Instr.ref bytes).wf c.gen = true := by simpa [Instr.wf] using h
  unfold decodeRef
  split
  · rename_i hlayouts
    obtain ⟨hwidths, -⟩ := (Bool.and_eq_true _ _).mp hlayouts
    split
    · cases hord : c.order <;> cases hsplit : c.gen.split <;> simp [decodeLayout, Instr.wf, hwidths, hsplit]
    · exact hgeneric
  · exact hgeneric

/-- The token of a phase for as many bytes as it asks for is well formed. -/
theorem DecodeCtx.token_wf (c : DecodeCtx) {o : Option (List Byte)} (h : ∀ bs, o = some bs → bs.length = c.pulls) :
    (c.token o).wf c.gen = true := by
  unfold DecodeCtx.pulls at h
  unfold DecodeCtx.token
  cases hp : c.phase with
  | ctrl | lit => dsimp only; split <;> rfl
  | ref =>
    rw [hp] at h
    cases o with
    | none => rfl
    | some bs => exact decodeRef_wf (h bs rfl)
  | copy | done | failed => rfl

end Sys2Proof

namespace Sys2Proof.Machine

theorem selectedIn_decodeRef (c : DecodeCtx) (bytes : List Byte) (p : Phase) :
    selectedIn (decodeRef c bytes) p = (p == .ref) := by
  unfold decodeRef
  split
  · split
    · unfold decodeLayout
      split <;> rfl
    · rfl
  · rfl

/-- What the decoder reads is a token that the phase selects (R57). -/
theorem decode_selectedIn {c : DecodeCtx} {evs rest : List SrcEvent} {i : Instr}
    (h : Sys2Proof.decode c evs = .ok (i, rest)) : selectedIn i c.phase = true := by
  obtain ⟨hlive, o, -, rfl⟩ := decode_ok_iff.1 h
  unfold DecodeCtx.token
  cases hp : c.phase with
  | ctrl | lit => dsimp only; split <;> rfl
  | ref =>
    cases o with
    | none => rfl
    | some bs => exact selectedIn_decodeRef c bs .ref
  | copy => rfl
  | done | failed => rw [hp] at hlive; cases hlive

theorem fetch_selectedIn {g : Generics} {e : Inst} {i : Instr} (h : fetch g e = .run i) :
    selectedIn i e.phase = true := by
  unfold fetch at h
  split at h
  · rename_i hd
    cases h
    exact decode_selectedIn hd
  · split at h <;> cases h
  · cases h
  · cases h
  · cases h

/-- Settles O8: the decoder is `takeBytes` on the phase's byte count, which looks at no answer behind those it reads. -/
theorem decoderNeverLooksAhead : Obligations.DecoderNeverLooksAhead := by
  intro c evs rest i h
  obtain ⟨hlive, o, hread, rfl⟩ := decode_ok_iff.1 h
  obtain ⟨hlen, used, hprefix, hmore⟩ := takeBytes_reads hread
  exact ⟨c.token_wf hlen, decode_isToken h, used, hprefix, fun more => decode_ok_iff.2 ⟨hlive, o, hmore more, rfl⟩⟩

end Sys2Proof.Machine
end

/-! ## The window (R35, R36, R39): what `WinRead` answers, and what a `MemWrite` leaves alone -/
section

namespace Sys2Proof.Machine

/-- In both modes `WinRead(d)` gives `H[outCount - d]`: in BUFFER mode by reading it, in STREAM mode because the ring still holds
the last `BUF_CAP` bytes of the history, twice the window. -/
theorem Inst.Inv.winRead {g : Generics} {e : Inst} {d : Nat} (hi : e.Inv g) (hd : 1 ≤ d) (hout : d ≤ e.outCount)
    (hwin : e.mode = .stream → d ≤ g.window) :
    ∃ b, e.hist[e.outCount - d]? = some b ∧ winRead g d e = .next b := by
  have hlt : e.outCount - d < e.hist.length := by rw [← hi.count]; omega
  have hget : e.hist[e.outCount - d]? = some e.hist[e.outCount - d] := List.getElem?_eq_getElem hlt
  refine ⟨_, hget, winRead_next.2 ⟨hd, hout, ?_⟩⟩
  cases hm : e.mode with
  | buffer => exact hget
  | stream =>
    have hcap : d ≤ g.bufCap := (hwin hm).trans (Nat.le_mul_of_pos_left _ Nat.two_pos)
    exact (hi.window hm _ (by omega) (by omega)).trans hget

/-- Settles O47, by the window clause of the invariant. -/
theorem winReadReadsTheHistory : Obligations.WinReadReadsTheHistory :=
  fun _ _ _ hi hd hout hwin => hi.winRead hd hout hwin

/-- A write leaves every other index alone, in a ring of any form. -/
theorem memLookup_memInsert_other {m : Memory} {a b : Nat} (v : Byte) (h : b ≠ a) :
    memLookup (memInsert m a v) b = memLookup m b := by
  induction m with
  | nil => simp [memInsert, memLookup, h.symm]
  | cons c rest ih =>
    simp only [memInsert]
    split
    · simp [memLookup, h.symm]
    · split
      · rename_i heq
        simp [memLookup, ← heq, h.symm]
      · simp [memLookup, ih]

end Sys2Proof.Machine
end

/-! ## No model fault (R35, R36, R105): only a COPY step reads the window, and the invariant keeps its distance in the history -/
section

namespace Sys2Proof.Machine

/-! ### A reference's copy is a run of engine steps (R75, R81) -/

/-- A COPY step is one of those due. -/
theorem copiesDue_of_copyToken {g : Generics} {e e1 : Inst} (hp : e.phase = .copy) (h : copyToken g e = .next e1) :
    copiesDue e = copiesDue e1 + 1 := by
  rcases copyToken_due hp h with ⟨hp1, hrem, hne⟩ | ⟨hrem, hp1⟩
  · simp only [copiesDue, hp, hp1]
    omega
  · have hnone : copiesDue e1 = 0 := by rcases hp1 with hp1 | hp1 | hp1 <;> simp [copiesDue, hp1]
    rw [hnone]
    simp only [copiesDue, hp]
    omega

theorem engineStep_copy {g : Generics} {e : Inst} (hp : e.phase = .copy) : engineStep g e = copyToken g e := by
  simp [engineStep, fetch_copy hp, engineExec]

theorem runCopies_eq_engineRun (g : Generics) (e : Inst) : runCopies g e = engineRun g (copiesDue e) e := by
  suffices H : ∀ k x, k = copiesDue x → copySteps g k x = engineRun g k x from H _ e rfl
  intro k
  induction k with
  | zero => intro x _; rfl
  | succ k ih =>
    intro x hk
    have hp : x.phase = .copy := by
      by_contra hp
      cases hph : x.phase <;> simp_all [copiesDue]
    rw [copySteps, engineRun, engineStep_copy hp]
    cases hy : copyToken g x with
    | next y => exact ih y (Nat.succ.inj (hk.trans (copiesDue_of_copyToken hp hy)))
    | fault r => rfl
    | refused r => rfl

/-! ### Results without a fault -/

/-- The result is a next state or a refusal. -/
def NoFault {α : Type} (o : Res α) : Prop := ∀ r, o ≠ .fault r

@[simp] theorem noFault_next {α : Type} (a : α) : NoFault (.next a : Res α) := nofun

@[simp] theorem noFault_refused {α : Type} (r : Refusal) : NoFault (.refused r : Res α) := nofun

theorem noFault_andThen {α β : Type} {o : Res α} {f : α → Res β} (ho : NoFault o) (hf : ∀ a, o = .next a → NoFault (f a)) :
    NoFault (andThen o f) := by
  cases o with
  | next a => exact hf a rfl
  | fault r => exact absurd rfl (ho r)
  | refused r => exact noFault_refused r

/-! ### On an engine -/

section
variable {g : Generics} {e : Inst}

theorem pullBytes_noFault (g : Generics) (k : Nat) (e : Inst) : NoFault (pullBytes g k e) := by
  unfold pullBytes
  split <;> simp

theorem emit_noFault (g : Generics) (v : Byte) (e : Inst) : NoFault (emit g v e) := by
  by_cases h : g.countOk (e.outCount + 1) = true
  · rw [emit_eq_emitSpec v h]
    exact noFault_next _
  · simp [emit, h]

theorem refToken_noFault (g : Generics) (k : Nat) (l o : Int) (e : Inst) : NoFault (refToken g k l o e) :=
  noFault_andThen (pullBytes_noFault _ _ _) fun _ _ => noFault_next _

/-- The invariant holds the distance of a copy within the history and the window, which is `WinRead`'s precondition (R30, R36). -/
theorem Inst.Inv.copyToken_noFault (hi : e.Inv g) (hp : e.phase = .copy) : NoFault (copyToken g e) := by
  obtain ⟨-, -, d, hdist, hd, hout, hwin⟩ := hi.inCopy hp
  obtain ⟨b, -, hread⟩ := hi.winRead hd hout hwin
  have hval : distValue e = d := by simp [distValue, hdist]
  rw [copyToken, hval, hread, andThen_of_next]
  exact noFault_andThen (emit_noFault _ _ _) fun _ _ => noFault_next _

/-- A token run in a phase that selects it. -/
theorem Inst.Inv.engineExec_noFault {i : Instr} (hi : e.Inv g) (hsel : selectedIn i e.phase = true) :
    NoFault (engineExec g i e) := by
  cases i with
  | ctrl c => exact noFault_andThen (pullBytes_noFault _ _ _) fun _ _ => noFault_next _
  | endClean => exact noFault_next _
  | lit v =>
    exact noFault_andThen (pullBytes_noFault _ _ _) fun _ _ =>
      noFault_andThen (emit_noFault _ _ _) fun _ _ => noFault_next _
  | ref | refLsbLenlow | refMsbLenlow | refLsbLenhigh | refMsbLenhigh => exact refToken_noFault _ _ _ _ _
  | copy => exact hi.copyToken_noFault (by simpa [selectedIn] using hsel)
  | endTrunc =>
    rw [engineExec, endTruncToken_eq]
    exact noFault_next _
  | construct | decode | openStream | read | close | status => exact noFault_refused _

theorem Inst.Inv.engineStep_noFault (hi : e.Inv g) : NoFault (engineStep g e) := by
  unfold engineStep
  split
  · rename_i hf
    exact hi.engineExec_noFault (fetch_selectedIn hf)
  · exact noFault_andThen (pullBytes_noFault _ _ _) fun _ _ => noFault_next _
  · exact noFault_next _
  · exact noFault_next _
  · exact noFault_refused _
  · exact noFault_next _

theorem engineRun_noFault (hR : 1 ≤ g.refBytes) (k : Nat) : ∀ {e : Inst}, e.Inv g → NoFault (engineRun g k e) := by
  induction k with
  | zero => intro e _; exact noFault_next e
  | succ k ih =>
    intro e hi
    exact noFault_andThen hi.engineStep_noFault fun x hx => ih (engineStep_inv hi hR hx)

theorem Inst.Inv.runCopies_noFault (hi : e.Inv g) (hR : 1 ≤ g.refBytes) : NoFault (runCopies g e) := by
  rw [runCopies_eq_engineRun]
  exact engineRun_noFault hR _ hi

/-- The loops of DECODE and RunRound (R82, R85). -/
theorem drive_noFault {stop : Inst → Bool} (hR : 1 ≤ g.refBytes) (evs : List SrcEvent) :
    ∀ {e : Inst}, e.Inv g → NoFault (drive g stop evs e) := by
  induction evs with
  | nil => intro e hi; exact hi.runCopies_noFault hR
  | cons ev rest ih =>
    intro e hi
    refine noFault_andThen (hi.runCopies_noFault hR) fun x hx => ?_
    have hxi := (runCopies_inv hi hR hx).1
    split
    · exact noFault_next x
    · exact noFault_andThen hxi.engineStep_noFault fun y hy => ih (engineStep_inv hxi hR hy)

end

/-! ### On the machine -/

/-! CONSTRUCT, OPEN, CLOSE and STATUS run no engine: on every branch they answer a next state or a refusal. -/

theorem execConstruct_noFault (oc : Int) (ca : CtrlArg) (ra : RefArg) (ta : ThrArg) (s : State) :
    NoFault (execConstruct oc ca ra ta s) := by
  unfold execConstruct
  (repeat' split) <;> simp

theorem execOpen_noFault (d : Nat) (source : List SrcEvent) (s : State) : NoFault (execOpen d source s) := by
  unfold execOpen
  split <;> simp

theorem execClose_noFault (i : Nat) (s : State) : NoFault (execClose i s) := by
  unfold execClose
  (repeat' split) <;> simp

theorem execStatus_noFault (i : Nat) (s : State) : NoFault (execStatus i s) := by
  unfold execStatus
  (repeat' split) <;> simp

namespace State.Inv
variable {s : State}

/-- Every engine of the machine meets its invariant, in an instantiation whose codes have bytes. -/
theorem engine {i : Nat} {e : Inst} (h : s.Inv) (he : s.insts[i]? = some e) : e.Inv s.gen ∧ 1 ≤ s.gen.refBytes :=
  have hmem := List.mem_of_getElem? he
  ⟨h.engines e hmem, h.refBytes_pos (h.configs e hmem)⟩

theorem execDecode_noFault (h : s.Inv) (d : Nat) (input : List Byte) : NoFault (Machine.execDecode d input s) := by
  unfold Machine.execDecode
  split
  · exact noFault_refused _
  · rename_i c hd
    have hc := List.mem_of_getElem? hd
    have hreset := engineReset_inv (g := s.gen) c .buffer (bufferSource input) (h.thresholds c hc)
    exact noFault_andThen (drive_noFault (h.refBytes_pos hc) _ hreset) fun _ _ => noFault_next _

theorem readOpen_noFault {i : Nat} {e : Inst} (h : s.Inv) (he : s.insts[i]? = some e) (n : Nat) :
    NoFault (readOpen i n e s) := by
  obtain ⟨hi, hR⟩ := h.engine he
  unfold readOpen
  split
  · exact noFault_next _
  · exact noFault_andThen (drive_noFault hR _ hi) fun _ _ => noFault_next _

theorem execRead_noFault (h : s.Inv) (i n : Nat) : NoFault (Machine.execRead i n s) := by
  unfold Machine.execRead
  split
  · exact noFault_refused _
  split
  · exact noFault_refused _
  rename_i e he
  split
  · exact noFault_refused _
  split
  · exact noFault_next _
  split
  · exact noFault_next _
  · exact h.readOpen_noFault he n

/-- Every host operation (R79). -/
theorem exec_call_noFault (h : s.Inv) (c : HostCall) : NoFault (exec c.toInstr s) := by
  cases c with
  | construct oc ca ra ta => exact execConstruct_noFault oc ca ra ta s
  | decode d input => exact h.execDecode_noFault d input
  | openStream d source => exact execOpen_noFault d source s
  | read i n => exact h.execRead_noFault i n
  | close i => exact execClose_noFault i s
  | status i => exact execStatus_noFault i s

/-- A token of the READ under way. -/
theorem exec_token_noFault {r : Running} {e : Inst} {i : Instr} (h : s.Inv) (hop : s.op = some r)
    (he : s.insts[r.inst]? = some e) (hi : isToken i = true) : NoFault (exec i s) := by
  rw [exec_eq_runToken hi]
  simp only [runToken, hop, he]
  split
  · rename_i hsel
    exact noFault_andThen ((h.engine he).1.engineExec_noFault hsel) fun _ _ => noFault_next _
  · exact noFault_refused _

theorem step_noFault (h : s.Inv) : NoFault (Machine.step s) := by
  unfold Machine.step stepWith
  split
  · unfold nextCall
    split
    · exact noFault_next _
    · exact (h.setCalls _).exec_call_noFault _
  · rename_i r hop
    split
    · exact noFault_refused _
    rename_i e he
    unfold goOn
    split
    · rename_i hf
      exact noFault_andThen (h.exec_token_noFault hop he (fetch_isToken hf)) fun _ _ => noFault_next _
    · exact noFault_andThen (noFault_andThen (pullBytes_noFault _ _ _) fun _ _ => noFault_next _) fun _ _ => noFault_next _
    · exact noFault_next _
    · exact noFault_next _
    · exact noFault_refused _
    · exact noFault_next _

end State.Inv

/-- Settles O46: `WinRead` is the only source of a model fault, COPY its only caller, and the invariant, which every step keeps,
holds a copy's distance within the history and the window. -/
theorem noModelFaultIsReached : Obligations.NoModelFaultIsReached := by
  intro s h
  exact h.step_noFault

end Sys2Proof.Machine
end

/-! ## Frame of LIT and COPY (R37, R70, R75) -/
section

namespace Sys2Proof.Machine

/-- `Emit(v)` on the stored bytes: it takes back no byte of the history, leaves a BUFFER engine's adapter alone, and in STREAM
mode stores to the slot `outCount mod BUF_CAP` only (R37). -/
theorem emitted_storage (g : Generics) (v : Byte) (e : Inst) :
    (∀ n, n < e.hist.length → (emitted g v e).hist[n]? = e.hist[n]?) ∧
    (e.mode = .buffer → (emitted g v e).ring = e.ring ∧ (emitted g v e).pending = e.pending ∧
      (emitted g v e).ready = e.ready) ∧
    (∀ a, (e.mode = .stream → a ≠ e.outCount % g.bufCap) → memLookup (emitted g v e).ring a = memLookup e.ring a) := by
  refine ⟨fun n hn => by rw [emitted_hist, List.getElem?_append_left hn], fun hm => emitted_buffer hm, fun a ha => ?_⟩
  cases hm : e.mode with
  | buffer => rw [(emitted_buffer hm).1]
  | stream => rw [(emitted_stream hm).1, memLookup_memInsert_other v (ha hm)]

/-- A completed token writes only `sub` and the phase (R66). -/
theorem completeToken_same (e : Inst) : completeToken e =
    { e with sub := (completeToken e).sub, phase := (completeToken e).phase } := by
  rw [completeToken_eq]
  rfl

/-- The end of a COPY step writes only `copyRem`, `sub` and the phase (R75). -/
theorem copyAdvance_same (e : Inst) : copyAdvance e =
    { e with copyRem := (copyAdvance e).copyRem, sub := (copyAdvance e).sub, phase := (copyAdvance e).phase } := by
  rcases copyAdvance_cases e with h | h <;> rw [h]
  · rfl
  · rw [completeToken_eq]
    rfl

/-- Settles O27: LIT and COPY are an `Emit`, whose frame is known, between register updates. -/
theorem tokensWithOutputFrame : Obligations.TokensWithOutputFrame := by
  intro s t k e i hr h hi
  rcases hi with ⟨v, rfl⟩ | rfl
  · obtain ⟨hout, e1, he1, hx⟩ := hr.exec_token rfl h
    obtain ⟨-, -, rfl⟩ := litToken_next.1 hx
    have hstored := emitted_storage s.gen v (e.pulled 1)
    refine ⟨hout, _, he1, ?_⟩
    rw [completeToken_same]
    simpa [SameAdapter, emitted_same] using hstored
  · obtain ⟨hout, e1, he1, hx⟩ := hr.exec_token rfl h
    obtain ⟨b, -, -, rfl⟩ := copyToken_next.1 hx
    have hstored := emitted_storage s.gen b e
    refine ⟨hout, _, he1, ?_⟩
    rw [copyAdvance_same]
    simpa [SameAdapter, emitted_same] using hstored

end Sys2Proof.Machine
end

/-! ## What every step does to each engine, for a relation that engine steps, READ and CLOSE respect (R81, R86, R87) -/
section

namespace Sys2Proof.Machine

/-- A preorder on engines that holds from an engine to what an engine step, a READ that returns, or CLOSE makes of it. -/
structure StepRelation (R : Inst → Inst → Prop) : Prop where
  refl : ∀ e, R e e
  trans : ∀ {e e1 e2}, R e e1 → R e1 e2 → R e e2
  engine : ∀ {g e e1}, engineStep g e = .next e1 → R e e1
  read : ∀ {n e bs k e1}, readNow n e = some (bs, k, e1) → R e e1
  shut : ∀ e, R e e.shut

/-- Every engine of `s` is there in `t`, and related. -/
def State.Relates (R : Inst → Inst → Prop) (s t : State) : Prop :=
  ∀ (k : Nat) (e : Inst), s.insts[k]? = some e → ∃ e1, t.insts[k]? = some e1 ∧ R e e1

namespace StepRelation
variable {R : Inst → Inst → Prop} {g : Generics} {e e1 : Inst} {s t u : State} {i n : Nat}

theorem engineRun (hR : StepRelation R) (k : Nat) : ∀ {e : Inst}, engineRun g k e = .next e1 → R e e1 := by
  induction k with
  | zero => intro e h; cases h; exact hR.refl _
  | succ k ih =>
    intro e h
    obtain ⟨x, hx, h⟩ := andThen_next.1 h
    exact hR.trans (hR.engine hx) (ih h)

theorem runCopies (hR : StepRelation R) (h : runCopies g e = .next e1) : R e e1 :=
  hR.engineRun _ (runCopies_eq_engineRun g e ▸ h)

/-- The loops of DECODE and RunRound (R82, R85). -/
theorem drive (hR : StepRelation R) {stop : Inst → Bool} (evs : List SrcEvent) :
    ∀ {e : Inst}, drive g stop evs e = .next e1 → R e e1 := by
  induction evs with
  | nil => intro e h; exact hR.runCopies h
  | cons ev rest ih =>
    intro e h
    obtain ⟨x, hx, ⟨-, rfl⟩ | ⟨-, -, y, hy, h⟩⟩ := drive_cons_next.1 h
    · exact hR.runCopies hx
    · exact hR.trans (hR.runCopies hx) (hR.trans (hR.engine hy) (ih h))

theorem grown (hR : StepRelation R) (h : s.insts <+: t.insts) : s.Relates R t := by
  intro k e he
  obtain ⟨hk, rfl⟩ := List.getElem?_eq_some_iff.1 he
  exact ⟨_, List.prefix_iff_getElem?.1 h k hk, hR.refl _⟩

theorem same (hR : StepRelation R) (h : t.insts = s.insts) : s.Relates R t := hR.grown (by rw [h])

theorem state_trans (hR : StepRelation R) (h : s.Relates R t) (h' : t.Relates R u) : s.Relates R u := by
  intro k e he
  obtain ⟨e1, he1, h1⟩ := h k e he
  obtain ⟨e2, he2, h2⟩ := h' k e1 he1
  exact ⟨e2, he2, hR.trans h1 h2⟩

theorem set (hR : StepRelation R) (he : s.insts[i]? = some e) (h : R e e1) (ht : t.insts = s.insts.set i e1) :
    s.Relates R t := by
  intro k x hx
  rw [ht]
  by_cases hik : i = k
  · subst hik
    obtain rfl : e = x := Option.some.inj (he.symm.trans hx)
    obtain ⟨hi, -⟩ := List.getElem?_eq_some_iff.1 he
    exact ⟨e1, List.getElem?_set_self hi, h⟩
  · exact ⟨x, (List.getElem?_set_ne hik).trans hx, hR.refl x⟩

theorem settle (hR : StepRelation R) (s : State) : s.Relates R (settle s) := by
  rcases settle_cases s with h | ⟨r, e, bs, k, e1, -, he, -, hr, h⟩ <;> rw [h]
  · exact hR.same rfl
  · exact hR.set he (hR.read hr) rfl

theorem execRead (hR : StepRelation R) (h : execRead i n s = .next t) : s.Relates R t := by
  obtain ⟨e, -, he, -, ⟨-, rfl⟩ | ⟨-, -, rfl⟩ | ⟨-, -, bs, k, e1, hr, rfl⟩ | ⟨-, -, -, e1, hd, rfl⟩⟩ := execRead_cases h
  · exact hR.same rfl
  · exact hR.same rfl
  · exact hR.set he (hR.read hr) rfl
  · exact hR.state_trans (hR.set (t := (s.setInst i e1).setOp (some ⟨i, n⟩)) he (hR.drive _ hd) rfl) (hR.settle _)

theorem exec_call (hR : StepRelation R) {c : HostCall} (h : exec c.toInstr s = .next t) : s.Relates R t := by
  cases c with
  | construct oc ca ra ta =>
    obtain ⟨-, ⟨c, -, rfl⟩ | ⟨cfg, -, rfl⟩⟩ := execConstruct_cases h <;> exact hR.same rfl
  | decode d input =>
    obtain ⟨c, e, -, -, rfl⟩ := execDecode_cases h
    exact hR.grown (List.prefix_append _ _)
  | openStream d source =>
    obtain ⟨c, -, rfl⟩ := execOpen_cases h
    exact hR.grown (List.prefix_append _ _)
  | read i n => exact hR.execRead h
  | close i =>
    obtain ⟨e, -, he, -, rfl⟩ := execClose_cases h
    exact hR.set he (hR.shut e) rfl
  | status i =>
    obtain ⟨e, -, -, rfl⟩ := execStatus_cases h
    exact hR.same rfl

/-- One step of the machine (R79, R81, R99). -/
theorem step (hR : StepRelation R) (h : step s = .next t) : s.Relates R t := by
  rcases step_cases h with ⟨-, -, rfl⟩ | ⟨c, rest, -, -, hx⟩ | ⟨r, e, hop, he, -⟩
  · exact hR.same rfl
  · exact hR.exec_call (s := s.setCalls rest) hx
  · obtain ⟨e1, hx, rfl | ⟨rfl, -⟩⟩ := step_running hop he h
    · exact hR.state_trans (hR.set (t := s.setInst r.inst e1) he (hR.engine hx) rfl) (hR.settle _)
    · exact hR.set he (hR.engine hx) rfl

end StepRelation

/-! ### Histories and counters (R34, R44, R101) -/

/-- `e1` is `e` after some output and some pulls: the history has grown by the bytes `outCount` counts, and `consumed` has not
decreased. -/
structure Inst.Grows (e e1 : Inst) : Prop where
  hist : e.hist <+: e1.hist
  counted : e1.hist.length + e.outCount = e.hist.length + e1.outCount
  consumed : e.consumed ≤ e1.consumed

namespace Inst.Grows
variable {g : Generics} {e e1 : Inst}

theorem of_same (hh : e1.hist = e.hist) (ho : e1.outCount = e.outCount) (hc : e.consumed ≤ e1.consumed) : e.Grows e1 :=
  ⟨by rw [hh], by rw [hh, ho], hc⟩

theorem of_emitted {v : Byte} (hh : e1.hist = e.hist ++ [v]) (ho : e1.outCount = e.outCount + 1)
    (hc : e.consumed ≤ e1.consumed) : e.Grows e1 :=
  ⟨by rw [hh]; exact List.prefix_append _ _, by rw [hh, ho, List.length_append, List.length_singleton]; omega, hc⟩

theorem refl (e : Inst) : e.Grows e := of_same rfl rfl (Nat.le_refl _)

theorem trans {e2 : Inst} (h : e.Grows e1) (h' : e1.Grows e2) : e.Grows e2 where
  hist := h.hist.trans h'.hist
  counted := by have := h.counted; have := h'.counted; omega
  consumed := h.consumed.trans h'.consumed

theorem outCount_le (h : e.Grows e1) : e.outCount ≤ e1.outCount := by
  have hlen := h.hist.length_le
  have hcount := h.counted
  omega

theorem resolve (g : Generics) (l o : Int) (e : Inst) : e.Grows (resolve g l o e) := by
  rcases resolve_raises_or_starts g l o e with ⟨c, h⟩ | ⟨d, n, h⟩ <;> rw [h]
  · obtain ⟨-, hh, ho, -, -, -, -, -, -, hc, -⟩ := raise_same c e
    exact of_same hh ho hc.ge
  · exact of_same rfl rfl le_rfl

theorem refToken {k : Nat} {l o : Int} (h : refToken g k l o e = .next e1) : e.Grows e1 := by
  obtain ⟨-, rfl⟩ := refToken_next.1 h
  exact .trans (.of_same (e1 := (e.pulled _).setRefBuf []) rfl rfl (Nat.le_add_right _ _)) (.resolve g l o _)

/-- LIT and COPY emit a byte, the other tokens none. -/
theorem engineExec {i : Instr} (h : engineExec g i e = .next e1) : e.Grows e1 := by
  cases i with
  | ctrl c =>
    obtain ⟨-, rfl⟩ := ctrlToken_next.1 h
    rw [dispatch_eq]
    exact of_same rfl rfl (Nat.le_add_right _ _)
  | endClean =>
    cases h
    obtain ⟨-, hh, ho, -, -, -, -, -, -, hc, -⟩ := finish_same e.pastEvent
    exact of_same hh ho hc.ge
  | lit v =>
    obtain ⟨-, -, rfl⟩ := litToken_next.1 h
    rw [completeToken_same]
    exact of_emitted (v := v) (by simp) (by simp) (by simp [emitted_same])
  | ref | refLsbLenlow | refMsbLenlow | refLsbLenhigh | refMsbLenhigh => exact refToken h
  | copy =>
    obtain ⟨b, -, -, rfl⟩ := copyToken_next.1 h
    rw [copyAdvance_same]
    exact of_emitted (v := b) (by simp) (by simp) (by simp [emitted_same])
  | endTrunc =>
    rw [Machine.engineExec, endTruncToken_eq] at h
    cases h
    obtain ⟨-, hh, ho, -, -, -, -, -, -, hc, -⟩ := raise_same .unexpectedEof (truncated e)
    have hpast : e.Grows (truncated e) := by
      unfold truncated
      split <;> exact of_same rfl rfl le_rfl
    exact hpast.trans (of_same hh ho hc.ge)
  | construct | decode | openStream | read | close | status => cases h

theorem engineStep (h : engineStep g e = .next e1) : e.Grows e1 := by
  unfold Machine.engineStep at h
  split at h
  · exact engineExec h
  · obtain ⟨-, rfl⟩ := collectByte_next.1 h
    exact of_same rfl rfl (Nat.le_add_right _ _)
  · cases h; exact refl _
  · cases h; exact of_same rfl rfl le_rfl
  · cases h
  · cases h; exact refl _

theorem stepRelation : StepRelation Inst.Grows where
  refl := refl
  trans := trans
  engine := engineStep
  read h := by
    obtain ⟨rest, -, rfl⟩ := readNow_takes h
    exact of_same rfl rfl le_rfl
  shut _ := of_same rfl rfl le_rfl

end Inst.Grows

/-- Settles O50: an engine step only appends to the history, counting each byte, and only adds to `consumed`; READ and CLOSE
touch neither. -/
theorem historyAndCountersOnlyGrow : Obligations.HistoryAndCountersOnlyGrow := by
  intro s t k e h he
  obtain ⟨e1, he1, hg⟩ := Inst.Grows.stepRelation.step h k e he
  exact ⟨e1, he1, hg.hist, hg.outCount_le, hg.consumed, hg.counted⟩

end Sys2Proof.Machine
end

/-! ## Waiting (R32, R99, R104) -/
section

namespace Sys2Proof.Machine

/-- The block acts only within a host operation (R99). -/
theorem step_idle {s : State} (hop : s.op = none) (hc : s.calls = []) : step s = .next s := by
  simp [step, stepWith, hop, nextCall, hc]

/-- Within a READ under way a step goes on with it (R79, R81). -/
theorem RunsOn.step_eq_goOn {s : State} {k : Nat} {e : Inst} (hr : RunsOn s k e) :
    ∃ n, step s = goOn exec e ⟨k, n⟩ s := by
  obtain ⟨⟨n, hop⟩, he⟩ := hr
  exact ⟨n, by simp [step, stepWith, hop, he]⟩

/-- An engine that has to pull: at CTRL or LIT, or at REF with an incomplete code (R81). -/
def PullsNext (g : Generics) (e : Inst) : Prop :=
  e.phase = .ctrl ∨ e.phase = .lit ∨ (e.phase = .ref ∧ e.refBuf.length < g.refBytes)

/-- What such an engine's step is where its source gives no answer (R32, R71). -/
theorem PullsNext.fetch {g : Generics} {e : Inst} (h : PullsNext g e) :
    (e.src = [] → fetch g e = .waits) ∧ (∀ rest, e.src = .later :: rest → fetch g e = .later) ∧
    (∀ rest, e.src = .failed :: rest → fetch g e = .sourceFailed) := by
  rcases h with hp | hp | ⟨hp, hl⟩
  · simp +contextual [fetch_ctrl hp]
  · simp +contextual [fetch_lit hp]
  · simp +contextual [fetch_ref hp hl]

/-- Settles O43: with nothing fetched the step is the identity, the end of a wait, or the refusal. -/
theorem waitingKeepsEveryRegister : Obligations.WaitingKeepsEveryRegister := by
  refine ⟨fun s => step_idle, fun s k e hr hpull => ?_⟩
  obtain ⟨n, hstep⟩ := hr.step_eq_goOn
  obtain ⟨hwaits, hlater, hfailed⟩ := PullsNext.fetch hpull
  rw [hstep]
  refine ⟨fun hs => ?_, fun rest hs => ?_, fun rest hs => ?_⟩
  · simp [goOn, hwaits hs]
  · simp [goOn, hlater rest hs, Inst.pastEvent, hs]
  · simp [goOn, hfailed rest hs]

end Sys2Proof.Machine
end

/-! ## Decode of encode (R48 to R54, R57) -/
section

namespace Sys2Proof

/-- The bytes of a complete code, with anything behind them, are that code's reference token (R50, R71). -/
theorem decode_refBytes {c : DecodeCtx} {bytes : List Byte} (hp : c.phase = .ref) (hlen : bytes.length = c.gen.refBytes)
    (rest : List SrcEvent) : Sys2Proof.decode c (bytes.map .byte ++ rest) = .ok (decodeRef c bytes, rest) := by
  have htake : takeBytes c.gen.refBytes (bytes.map .byte ++ rest) = .ok (some bytes, rest) := by
    simpa [hlen, takeBytes] using Machine.takeBytes_bytes 0 bytes rest
  simp [Sys2Proof.decode, hp, htake]

/-- A supplied function's codes, and all codes of other widths, have no layout (R54, R73). -/
theorem decodeRef_generic {c : DecodeCtx} (h : c.gen.presetWidths = false ∨ c.suppliedRef = true) (bytes : List Byte) :
    decodeRef c bytes = .ref bytes := by
  rcases h with h | h <;> simp [decodeRef, h]

theorem decodeRef_layout {c : DecodeCtx} (hw : c.gen.presetWidths = true) (hs : c.suppliedRef = false) (b0 b1 : Byte) :
    decodeRef c [b0, b1] = decodeLayout c.order c.gen.split b0 b1 := by
  simp [decodeRef, hw, hs]

end Sys2Proof

namespace Sys2Proof.Machine

theorem lowNibble_append (h l : BitVec 4) : BitVec.extractLsb' (n := 8) 0 4 (h ++ l) = l :=
  BitVec.extractLsb'_append_eq_right

theorem highNibble_append (h l : BitVec 4) : BitVec.extractLsb' (n := 8) 4 4 (h ++ l) = h :=
  BitVec.extractLsb'_append_eq_left

/-- A 12-bit field is its high part before its low part, as both `SPLIT`s cut it (R54). -/
theorem offset_parts (o : BitVec 12) :
    o.extractLsb' 4 8 ++ o.extractLsb' 0 4 = o ∧ o.extractLsb' 8 4 ++ o.extractLsb' 0 8 = o :=
  ⟨BitVec.extractLsb'_append_extractLsb', BitVec.extractLsb'_append_extractLsb'⟩

/-- A layout's encoding is two bytes, whose nibbles the layout of the selecting context puts back into the two fields (R54). -/
theorem IsLayout.decodeLayout_encode {c : DecodeCtx} {i : Instr} {l : BitVec 4} {o : BitVec 12} {evs : List SrcEvent}
    (hi : IsLayout i l o) (hwf : i.wf c.gen = true) (hsel : Selects c i) (he : encode i = some evs) :
    c.phase = .ref ∧ c.suppliedRef = false ∧ c.gen.presetWidths = true ∧
      ∃ b0 b1 : Byte, evs = [b0, b1].map .byte ∧ decodeLayout c.order c.gen.split b0 b1 = i := by
  rcases hi with rfl | rfl | rfl | rfl
  all_goals
    obtain ⟨hp, hs, hord⟩ := hsel
    obtain ⟨hw, hsplit⟩ := (Bool.and_eq_true _ _).mp hwf
    cases he
    refine ⟨hp, hs, hw, _, _, rfl, ?_⟩
    rw [hord, of_decide_eq_true hsplit]
    simp [decodeLayout, lowNibble_append, highNibble_append, offset_parts]

/-- A layout's encoding decodes to it, where its order and `SPLIT` are selected (R54). -/
theorem IsLayout.decode_encode {c : DecodeCtx} {i : Instr} {l : BitVec 4} {o : BitVec 12} {evs : List SrcEvent}
    (hi : IsLayout i l o) (hwf : i.wf c.gen = true) (hsel : Selects c i) (he : encode i = some evs) (rest : List SrcEvent) :
    Sys2Proof.decode c (evs ++ rest) = .ok (i, rest) := by
  obtain ⟨hp, hs, hw, b0, b1, rfl, rfl⟩ := hi.decodeLayout_encode hwf hsel he
  have hlen : [b0, b1].length = c.gen.refBytes := (Laws.EncodedBytes.refBytes_of_presetWidths hw).symm
  rw [decode_refBytes hp hlen, decodeRef_layout hw hs]

/-- Settles O6: one byte or EOS in CTRL and LIT, a code's bytes in REF, nothing in COPY; a host operation has no encoding. -/
theorem decodeOfEncodeIsTheToken : Obligations.DecodeOfEncodeIsTheToken := by
  intro c i evs rest hwf hsel he
  cases i with
  | ctrl | endClean | lit | copy =>
    cases he
    have hp : c.phase = _ := hsel
    simp [Sys2Proof.decode, hp, takeBytes]
  | ref bytes =>
    cases he
    obtain ⟨hp, hgeneric⟩ := hsel
    rw [decode_refBytes hp (of_decide_eq_true hwf), decodeRef_generic hgeneric]
  | refLsbLenlow l o => exact IsLayout.decode_encode (.inl rfl) hwf hsel he rest
  | refMsbLenlow l o => exact IsLayout.decode_encode (.inr (.inl rfl)) hwf hsel he rest
  | refLsbLenhigh l o => exact IsLayout.decode_encode (.inr (.inr (.inl rfl))) hwf hsel he rest
  | refMsbLenhigh l o => exact IsLayout.decode_encode (.inr (.inr (.inr rfl))) hwf hsel he rest
  | endTrunc =>
    cases he
    rcases hsel with hp | ⟨hp, hR⟩
    · simp [Sys2Proof.decode, hp, takeBytes]
    · obtain ⟨n, hn⟩ := Nat.exists_eq_add_of_le' hR
      simp [Sys2Proof.decode, hp, hn, takeBytes]
  | construct | decode | openStream | read | close | status => cases he

end Sys2Proof.Machine
end

/-! ## A reference's code and fields (R51, R52, R58) -/
section

namespace Sys2Proof

/-- The code has whole bytes and both fields have a bit (R6, R7). -/
theorem Generics.supported_widths {g : Generics} (h : g.supported = true) :
    1 ≤ g.offsetBits ∧ 1 ≤ g.lengthBits ∧ 8 * g.refBytes = g.codeBits := by
  simp only [Generics.supported, Bool.and_eq_true, decide_eq_true_eq] at h
  obtain ⟨⟨⟨⟨ho, hl⟩, hdvd⟩, -⟩, -⟩ := h
  exact ⟨ho, hl, Nat.mul_div_cancel' (Nat.dvd_of_mod_eq_zero hdvd)⟩

/-! ### The assembler's bytes -/

@[simp] theorem codeBytesLsb_length (n code : Nat) : (codeBytesLsb n code).length = n := by
  induction n generalizing code with
  | zero => rfl
  | succ n ih => simp [codeBytesLsb, ih]

@[simp] theorem encodeRef_length (g : Generics) (ord : Order) (length offset : Nat) :
    (encodeRef g ord length offset).length = g.refBytes := by
  cases ord <;> simp [encodeRef]

theorem mul_two_pow_add_lt {high low a w : Nat} (hh : high < 2 ^ a) (hl : low < 2 ^ w) :
    high * 2 ^ w + low < 2 ^ (a + w) :=
  calc high * 2 ^ w + low < high * 2 ^ w + 2 ^ w := Nat.add_lt_add_left hl _
    _ = (high + 1) * 2 ^ w := (Nat.succ_mul high _).symm
    _ ≤ 2 ^ a * 2 ^ w := Nat.mul_le_mul_right _ hh
    _ = 2 ^ (a + w) := (pow_add 2 a w).symm

/-- Two fields within their widths join to a code of `CODE_BITS` bits (R58 step 1). -/
theorem joinCode_lt {g : Generics} {length offset : Nat} (hl : length < 2 ^ g.lengthBits) (ho : offset < 2 ^ g.offsetBits) :
    joinCode g length offset < 2 ^ g.codeBits := by
  unfold joinCode
  split
  · exact mul_two_pow_add_lt ho hl
  · rw [Generics.codeBits, Nat.add_comm g.offsetBits]
    exact mul_two_pow_add_lt hl ho

end Sys2Proof

namespace Sys2Proof.Machine

/-! ### Assemble -/

/-- A code is below `256^n` for its `n` bytes. -/
theorem assembleLsb_lt (bytes : List Byte) : assembleLsb bytes < 2 ^ (8 * bytes.length) := by
  induction bytes with
  | nil => simp [assembleLsb]
  | cons b bs ih =>
    have hb := b.isLt
    rw [List.length_cons, Nat.mul_succ, pow_add, assembleLsb]
    omega

theorem assemble_lt (ord : Order) (bytes : List Byte) : assemble ord bytes < 2 ^ (8 * bytes.length) := by
  cases ord with
  | lsb => exact assembleLsb_lt bytes
  | msb => simpa [assemble] using assembleLsb_lt bytes.reverse

/-- Assembling the low `n` bytes of a code gives its value modulo `256^n`. -/
theorem assembleLsb_codeBytesLsb (n code : Nat) : assembleLsb (codeBytesLsb n code) = code % 2 ^ (8 * n) := by
  induction n generalizing code with
  | zero => simp [codeBytesLsb, assembleLsb, Nat.mod_one]
  | succ n ih =>
    have hpow : 2 ^ (8 * (n + 1)) = 256 * 2 ^ (8 * n) := by ring
    simp [codeBytesLsb, assembleLsb, ih, hpow, Nat.mod_mul]

/-- R58 step 2 in both orders: the bytes assemble to the code that step 1 joins. -/
theorem assemble_encodeRef {g : Generics} (ord : Order) {length offset : Nat} (hg : g.supported = true)
    (hcode : joinCode g length offset < 2 ^ g.codeBits) :
    assemble ord (encodeRef g ord length offset) = joinCode g length offset := by
  have hlsb : assembleLsb (codeBytesLsb g.refBytes (joinCode g length offset)) = joinCode g length offset := by
    obtain ⟨-, -, hbytes⟩ := Generics.supported_widths hg
    rw [assembleLsb_codeBytesLsb, hbytes, Nat.mod_eq_of_lt hcode]
  cases ord with
  | lsb => exact hlsb
  | msb => simpa [assemble, encodeRef] using hlsb

/-! ### The two fields -/

/-- The field at the bottom of a code is the remainder. -/
theorem bitField_low (v : Nat) {w : Nat} (hw : 1 ≤ w) : bitField v (w - 1) 0 = v % 2 ^ w := by
  rw [bitField, Nat.sub_add_cancel hw, pow_zero, Nat.div_one, Nat.sub_zero]

/-- The field at the top of an `n`-bit code is the quotient. -/
theorem bitField_high {v lo n : Nat} (hn : 1 ≤ n) (hlo : lo ≤ n) (hv : v < 2 ^ n) : bitField v (n - 1) lo = v / 2 ^ lo := by
  rw [bitField, Nat.sub_add_cancel hn, Nat.mod_eq_of_lt]
  exact Nat.div_lt_of_lt_mul (by rwa [← pow_add, Nat.add_sub_cancel' hlo])

section
variable {g : Generics} {code : Nat}

/-- R52 with the length in the low bits. -/
theorem splitFields_lengthLow (hs : g.split = .lengthLow) (hl : 1 ≤ g.lengthBits) (hcode : code < 2 ^ g.codeBits) :
    splitFields g code = (code % 2 ^ g.lengthBits, code / 2 ^ g.lengthBits) := by
  have hle : g.lengthBits ≤ g.codeBits := Nat.le_add_left _ _
  simp [splitFields, hs, bitField_low code hl, bitField_high (hl.trans hle) hle hcode]

/-- R52 with the length in the high bits. -/
theorem splitFields_lengthHigh (hs : g.split = .lengthHigh) (ho : 1 ≤ g.offsetBits) (hcode : code < 2 ^ g.codeBits) :
    splitFields g code = (code / 2 ^ g.offsetBits, code % 2 ^ g.offsetBits) := by
  have hle : g.offsetBits ≤ g.codeBits := Nat.le_add_right _ _
  simp [splitFields, hs, bitField_low code ho, bitField_high (ho.trans hle) hle hcode]

end

/-- Splitting undoes R58 step 1. -/
theorem splitFields_joinCode {g : Generics} {length offset : Nat} (hg : g.supported = true)
    (hl : length < 2 ^ g.lengthBits) (ho : offset < 2 ^ g.offsetBits) :
    splitFields g (joinCode g length offset) = (length, offset) := by
  obtain ⟨hob, hlb, -⟩ := Generics.supported_widths hg
  have hcode := joinCode_lt hl ho
  cases hs : g.split with
  | lengthLow =>
    rw [splitFields_lengthLow hs hlb hcode]
    simp [joinCode, hs, Nat.mod_eq_of_lt hl, Nat.div_eq_of_lt hl, Nat.add_div_of_dvd_right]
  | lengthHigh =>
    rw [splitFields_lengthHigh hs hob hcode]
    simp [joinCode, hs, Nat.mod_eq_of_lt ho, Nat.div_eq_of_lt ho, Nat.add_div_of_dvd_right]

/-- Settles O7: the bytes assemble to the joined code (R51), which splits into the fields it was joined from (R52). -/
theorem referenceAssemblerRoundTrip : Obligations.ReferenceAssemblerRoundTrip := by
  intro g ord length offset hg hl ho
  have hl : length < 2 ^ g.lengthBits := Nat.lt_of_le_pred (Nat.two_pow_pos _) hl
  have ho : offset < 2 ^ g.offsetBits := Nat.lt_of_le_pred (Nat.two_pow_pos _) ho
  refine ⟨encodeRef_length g ord length offset, ?_⟩
  rw [defaultFields, assemble_encodeRef ord hg (joinCode_lt hl ho), splitFields_joinCode hg hl ho]

end Sys2Proof.Machine
end

/-! ### The weights of a code's bytes (R51) -/
section

namespace Sys2Proof.Machine

theorem assembleLsb_eq_sum (bytes : List Byte) :
    assembleLsb bytes = ∑ i ∈ Finset.range bytes.length, (bytes.getD i 0).toNat * 2 ^ (8 * i) := by
  induction bytes with
  | nil => rfl
  | cons b bs ih =>
    have hshift (i : Nat) : 2 ^ (8 * (i + 1)) = 256 * 2 ^ (8 * i) := by ring
    rw [List.length_cons, Finset.sum_range_succ', assembleLsb, ih, Finset.mul_sum, Nat.add_comm]
    simp [hshift, Nat.mul_left_comm]

theorem assembleLsb_append (low high : List Byte) :
    assembleLsb (low ++ high) = assembleLsb low + 2 ^ (8 * low.length) * assembleLsb high := by
  induction low with
  | nil => simp [assembleLsb]
  | cons b bs ih =>
    simp only [List.cons_append, assembleLsb, ih, List.length_cons]
    ring

@[simp] theorem assembleLsb_singleton (b : Byte) : assembleLsb [b] = b.toNat := rfl

/-- Under MSB the weights run the other way, which is the sum of the reversed bytes with its index reflected. -/
theorem assemble_msb_eq_sum (bytes : List Byte) : assemble .msb bytes =
    ∑ i ∈ Finset.range bytes.length, (bytes.getD i 0).toNat * 2 ^ (8 * (bytes.length - 1 - i)) := by
  rw [assemble, assembleLsb_eq_sum, List.length_reverse, ← Finset.sum_range_reflect]
  refine Finset.sum_congr rfl fun i hi => ?_
  have hi : i < bytes.length := Finset.mem_range.1 hi
  rw [List.getD_reverse _ (by omega), Nat.sub_sub_self (by omega)]

/-- Under MSB the first byte is above all the others. -/
theorem assemble_msb_cons (b : Byte) (bytes : List Byte) :
    assemble .msb (b :: bytes) = assemble .msb bytes + 2 ^ (8 * bytes.length) * b.toNat := by
  simp [assemble, assembleLsb_append]

/-- Settles O2: the two sums by induction on the bytes; the first byte's place from the code's bound. -/
theorem codeIsWeightedByteSum : Obligations.CodeIsWeightedByteSum := by
  refine ⟨assembleLsb_eq_sum, assemble_msb_eq_sum, fun b bytes => ⟨?_, ?_⟩, fun ord b => by cases ord <;> rfl⟩
  · have hb := b.isLt
    rw [assemble, assembleLsb]
    omega
  · rw [assemble_msb_cons, Nat.add_mul_div_left _ _ (Nat.two_pow_pos _), Nat.div_eq_of_lt (assemble_lt .msb bytes),
      Nat.zero_add]

end Sys2Proof.Machine
end

/-! ### The default reference function (R52, R72) -/
section

namespace Sys2Proof.Machine

theorem bitField_lt {v hi lo w : Nat} (hw : hi + 1 - lo = w) : bitField v hi lo < 2 ^ w :=
  hw ▸ Nat.mod_lt _ (Nat.two_pow_pos _)

/-- Whatever the code, the fields are within their widths. -/
theorem splitFields_lt {g : Generics} (ho : 1 ≤ g.offsetBits) (hl : 1 ≤ g.lengthBits) (code : Nat) :
    (splitFields g code).1 < 2 ^ g.lengthBits ∧ (splitFields g code).2 < 2 ^ g.offsetBits := by
  have hcb : g.codeBits = g.offsetBits + g.lengthBits := rfl
  unfold splitFields
  split
  · exact ⟨bitField_lt (by omega), bitField_lt (by omega)⟩
  · exact ⟨bitField_lt (by omega), bitField_lt (by omega)⟩

theorem applyDecRef_default (g : Generics) {c : Cfg} (h : c.decRef = .default) (bytes : List Byte) :
    applyDecRef g c bytes = (((defaultFields g c.order bytes).1 : Int), ((defaultFields g c.order bytes).2 : Int)) := by
  simp [applyDecRef, h]

/-- Settles O3: `REF_BYTES` bytes make a code of `CODE_BITS` bits, whose two fields are a remainder and a quotient. -/
theorem referenceFieldsSplitTheCode : Obligations.ReferenceFieldsSplitTheCode := by
  intro g c bytes hg hd hlen code
  obtain ⟨ho, hl, hbytes⟩ := Generics.supported_widths hg
  have hcode : code < 2 ^ g.codeBits := by
    rw [← hbytes, ← hlen]
    exact assemble_lt c.order bytes
  obtain ⟨hlength, hoffset⟩ := splitFields_lt ho hl code
  rw [applyDecRef_default g hd]
  refine ⟨fun hs => ?_, fun hs => ?_, Int.natCast_nonneg _, Int.ofNat_le.2 (Nat.le_pred_of_lt hlength),
    Int.natCast_nonneg _, Int.ofNat_le.2 (Nat.le_pred_of_lt hoffset)⟩
  · rw [defaultFields, splitFields_lengthLow hs hl hcode]
  · rw [defaultFields, splitFields_lengthHigh hs ho hcode]

end Sys2Proof.Machine
end

/-! ### The four layouts of the 12/4 widths (R54) -/
section

namespace Sys2Proof.Machine

theorem toNat_lowNibble (b : Byte) : (b.extractLsb' 0 4).toNat = b.toNat % 16 := by simp

theorem toNat_highNibble (b : Byte) : (b.extractLsb' 4 4).toNat = b.toNat / 16 := by
  have hb := b.isLt
  rw [BitVec.extractLsb'_toNat, Nat.shiftRight_eq_div_pow]
  omega

theorem toNat_append_eq {m n : Nat} (high : BitVec m) (low : BitVec n) :
    (high ++ low).toNat = high.toNat * 2 ^ n + low.toNat := by
  rw [BitVec.toNat_append, ← Nat.shiftLeft_add_eq_or_of_lt low.isLt, Nat.shiftLeft_eq]

/-- The offset of `LENGTH_LOW`: a whole byte above a high nibble. -/
theorem toNat_byte_append_highNibble (high low : Byte) :
    (high ++ low.extractLsb' 4 4).toNat = high.toNat * 16 + low.toNat / 16 := by
  simp only [toNat_append_eq, toNat_highNibble, Nat.reducePow]

/-- The offset of `LENGTH_HIGH`: a low nibble above a whole byte. -/
theorem toNat_lowNibble_append_byte (high low : Byte) :
    (high.extractLsb' 0 4 ++ low).toNat = high.toNat % 16 * 256 + low.toNat := by
  simp only [toNat_append_eq, toNat_lowNibble, Nat.reducePow]

theorem eq_ofNat_of_toNat {w n : Nat} {x : BitVec w} (h : x.toNat = n) : x = BitVec.ofNat w n := by
  rw [← h, BitVec.ofNat_toNat, BitVec.setWidth_eq]

/-- Settles O4, field by field: a nibble is a remainder or a quotient of its byte by 16. -/
theorem layoutsHaveTheClosedForms : Obligations.LayoutsHaveTheClosedForms := by
  intro b0 b1
  refine ⟨?_, ?_, ?_, ?_⟩
  · exact congrArg₂ Instr.refLsbLenlow (eq_ofNat_of_toNat (toNat_lowNibble b0))
      (eq_ofNat_of_toNat (toNat_byte_append_highNibble b1 b0))
  · exact congrArg₂ Instr.refMsbLenlow (eq_ofNat_of_toNat (toNat_lowNibble b1))
      (eq_ofNat_of_toNat (toNat_byte_append_highNibble b0 b1))
  · exact congrArg₂ Instr.refLsbLenhigh (eq_ofNat_of_toNat (toNat_highNibble b1))
      (eq_ofNat_of_toNat (toNat_lowNibble_append_byte b1 b0))
  · exact congrArg₂ Instr.refMsbLenhigh (eq_ofNat_of_toNat (toNat_highNibble b0))
      (eq_ofNat_of_toNat (toNat_lowNibble_append_byte b0 b1))

section
variable {g : Generics} (ho : g.offsetBits = 12) (hl : g.lengthBits = 4)
include ho hl

theorem twoByteCode_lt (high low : Byte) : low.toNat + 256 * high.toNat < 2 ^ g.codeBits := by
  have hh := high.isLt
  have hw := low.isLt
  simp only [Generics.codeBits, ho, hl]
  omega

/-- The fields of a two-byte code as the layouts of `LENGTH_LOW` cut them. -/
theorem splitFields_layout_lengthLow (hs : g.split = .lengthLow) (high low : Byte) :
    splitFields g (low.toNat + 256 * high.toNat) =
      ((low.extractLsb' 0 4).toNat, (high ++ low.extractLsb' 4 4).toNat) := by
  rw [splitFields_lengthLow hs (by omega) (twoByteCode_lt ho hl high low), hl, toNat_lowNibble, toNat_byte_append_highNibble]
  exact Prod.ext (by simp only; omega) (by simp only; omega)

/-- The fields of a two-byte code as the layouts of `LENGTH_HIGH` cut them. -/
theorem splitFields_layout_lengthHigh (hs : g.split = .lengthHigh) (high low : Byte) :
    splitFields g (low.toNat + 256 * high.toNat) =
      ((high.extractLsb' 4 4).toNat, (high.extractLsb' 0 4 ++ low).toNat) := by
  have hw := low.isLt
  rw [splitFields_lengthHigh hs (by omega) (twoByteCode_lt ho hl high low), ho, toNat_highNibble, toNat_lowNibble_append_byte]
  exact Prod.ext (by simp only; omega) (by simp only; omega)

/-- In the 12/4 widths a layout's fields are those that the default reference function gives its two bytes: the second byte is
the high one under LSB, the first under MSB. -/
theorem engineExec_decodeLayout (ord : Order) (b0 b1 : Byte) (e : Inst) :
    engineExec g (decodeLayout ord g.split b0 b1) e =
      refToken g 2 (defaultFields g ord [b0, b1]).1 (defaultFields g ord [b0, b1]).2 e := by
  have hlsb : assemble .lsb [b0, b1] = b0.toNat + 256 * b1.toNat := rfl
  have hmsb : assemble .msb [b0, b1] = b1.toNat + 256 * b0.toNat := rfl
  cases hs : g.split with
  | lengthLow =>
    have hfields := splitFields_layout_lengthLow ho hl hs
    cases ord with
    | lsb => rw [defaultFields, hlsb, hfields]; rfl
    | msb => rw [defaultFields, hmsb, hfields]; rfl
  | lengthHigh =>
    have hfields := splitFields_layout_lengthHigh ho hl hs
    cases ord with
    | lsb => rw [defaultFields, hlsb, hfields]; rfl
    | msb => rw [defaultFields, hmsb, hfields]; rfl

/-- So a layout does to its engine what the generic REF of the two bytes does, under the default reference function. -/
theorem engineExec_decodeLayout_eq_ref (b0 b1 : Byte) {e : Inst} (hd : e.cfg.decRef = .default) :
    engineExec g (decodeLayout e.cfg.order g.split b0 b1) e = engineExec g (.ref [b0, b1]) e := by
  rw [engineExec_decodeLayout ho hl, engineExec, refGeneric, applyDecRef_default g hd]
  rfl

end

theorem isToken_decodeLayout (ord : Order) (split : Split) (b0 b1 : Byte) :
    isToken (decodeLayout ord split b0 b1) = true := by
  cases ord <;> cases split <;> rfl

theorem selectedIn_decodeLayout (ord : Order) (split : Split) (b0 b1 : Byte) (p : Phase) :
    selectedIn (decodeLayout ord split b0 b1) p = selectedIn (.ref [b0, b1]) p := by
  cases ord <;> cases split <;> rfl

/-- A token under a READ: its engine's, where the phase selects it, and refused by name elsewhere (R57, R99). -/
theorem RunsOn.exec_eq {s : State} {k : Nat} {e : Inst} {i : Instr} (hr : RunsOn s k e) (hi : isToken i = true) :
    exec i s = if selectedIn i e.phase then andThen (engineExec s.gen i e) fun e1 => .next (s.setInst k e1)
      else .refused .notSelected := by
  obtain ⟨⟨n, hop⟩, he⟩ := hr
  simp [exec_eq_runToken hi, runToken, hop, he]

/-- Settles O5: both are reference tokens, selected in the same phase, and the same on the engine. -/
theorem layoutsActAsTheGenericReference : Obligations.LayoutsActAsTheGenericReference := by
  intro s k e b0 b1 hr ho hl hd
  rw [hr.exec_eq (isToken_decodeLayout _ _ b0 b1), hr.exec_eq (i := .ref [b0, b1]) rfl,
    selectedIn_decodeLayout, engineExec_decodeLayout_eq_ref ho hl b0 b1 hd]

end Sys2Proof.Machine
end

/-! ## Words and refusals (R48, R49, R57, R72, R99) -/
section

namespace Sys2Proof.Machine

/-- Settles O9, by running the decoder on the six words. -/
theorem sampleWordsDecode : Obligations.SampleWordsDecode := by
  unfold Obligations.SampleWordsDecode
  decide

/-- Settles O24: a token's two refusals are those of `runToken`. -/
theorem tokensRunOnlyWhenSelected : Obligations.TokensRunOnlyWhenSelected := by
  intro s i hi
  refine ⟨fun hop => ?_, fun k e hr hsel => ?_⟩
  · simp [exec_eq_runToken hi, runToken, hop]
  · simp [hr.exec_eq hi, hsel]

end Sys2Proof.Machine
end

/-! ## CONSTRUCT's checks, and the decoder of its arguments (R59, R60) -/
section

namespace Sys2Proof.Machine

/-! ### What each check says of the arguments -/

theorem orderOfCode_eq_none_iff {oc : Int} : orderOfCode oc = none ↔ oc ≠ 0 ∧ oc ≠ 1 := by
  unfold orderOfCode
  split_ifs <;> simp_all

theorem orderOfCode_eq_some_iff {oc : Int} {ord : Order} :
    orderOfCode oc = some ord ↔ oc = 0 ∧ ord = .lsb ∨ oc = 1 ∧ ord = .msb := by
  unfold orderOfCode
  split_ifs <;> simp_all [eq_comm]

theorem exists_orderOfCode_of_legal {oc : Int} (h : oc = 0 ∨ oc = 1) : ∃ ord, orderOfCode oc = some ord := by
  rcases h with rfl | rfl
  · exact ⟨.lsb, rfl⟩
  · exact ⟨.msb, rfl⟩

theorem anyNull_iff {ca : CtrlArg} {ra : RefArg} : anyNull ca ra = true ↔ ca = .null ∨ ra = .null := by
  simp [anyNull]

/-- An omitted threshold is `THRESHOLD_MIN`, so only a given one can be too small. -/
theorem thresholdOf_lt_iff {g : Generics} {ta : ThrArg} :
    thresholdOf g ta < (g.thresholdMin : Int) ↔ ∃ x, ta = .value x ∧ x < (g.refBytes : Int) + 1 := by
  cases ta with
  | omitted => simp [thresholdOf]
  | value t => simp [thresholdOf, Generics.thresholdMin]

/-! ### The outcome of the checks in their order -/

section

variable {g : Generics} {oc : Int} {ord : Order} {ca : CtrlArg} {ra : RefArg} {ta : ThrArg}

theorem constructCfg_unknownOrder (ho : orderOfCode oc = none) : constructCfg g oc ca ra ta = .error .unknownOrder := by
  simp [constructCfg, ho]

theorem constructCfg_nilParameter (ho : orderOfCode oc = some ord) (hn : anyNull ca ra = true) :
    constructCfg g oc ca ra ta = .error .nilParameter := by
  simp [constructCfg, ho, hn]

theorem constructCfg_thresholdTooSmall (ho : orderOfCode oc = some ord) (hn : ¬ anyNull ca ra = true)
    (ht : thresholdOf g ta < (g.thresholdMin : Int)) : constructCfg g oc ca ra ta = .error .thresholdTooSmall := by
  simp [constructCfg, ho, hn, ht]

theorem constructCfg_ok (ho : orderOfCode oc = some ord) (hn : ¬ anyNull ca ra = true)
    (ht : ¬ thresholdOf g ta < (g.thresholdMin : Int)) :
    constructCfg g oc ca ra ta = .ok
      { order := ord, isLit := ctrlFnOf ca, decRef := refFnOf ra, threshold := (thresholdOf g ta).toNat } := by
  simp only [constructCfg, ho, if_neg hn, if_neg ht]

end

/-! ### What CONSTRUCT writes on either outcome -/

section

variable {oc : Int} {ca : CtrlArg} {ra : RefArg} {ta : ThrArg} {s : State}

/-- R61: on an error only the result is written. -/
theorem exec_construct_of_error {c : Cause} (hs : s.gen.supported = true)
    (h : constructCfg s.gen oc ca ra ta = .error c) :
    exec (.construct oc ca ra ta) s = .next { s with results := s.results ++ [.constructError c] } := by
  simp [exec_construct, execConstruct, hs, h, State.addResult]

/-- R61: on success only the decoder and the result are written. -/
theorem exec_construct_of_ok {cfg : Cfg} (hs : s.gen.supported = true) (h : constructCfg s.gen oc ca ra ta = .ok cfg) :
    exec (.construct oc ca ra ta) s =
      .next { s with decoders := s.decoders ++ [cfg], results := s.results ++ [.constructed cfg] } := by
  simp [exec_construct, execConstruct, hs, h, State.addResult, State.addDecoder]

end

/-- Settles O12: legal arguments pass the three checks, and the configuration of the checks is the one the statement writes out. -/
theorem constructBuildsTheDecoder : Obligations.ConstructBuildsTheDecoder := by
  intro oc ord ca ra ta s hs ho hca hra hta cfg
  have hnull : ¬ anyNull ca ra = true := by simp [anyNull_iff, hca, hra]
  have hthr : ¬ thresholdOf s.gen ta < (s.gen.thresholdMin : Int) := by
    rw [thresholdOf_lt_iff]
    rintro ⟨x, hx, hlt⟩
    exact absurd (hta x hx) (by omega)
  have hisLit : ctrlFnOf ca = cfg.isLit := by cases ca <;> rfl
  have hdecRef : refFnOf ra = cfg.decRef := by cases ra <;> rfl
  have hthreshold : (thresholdOf s.gen ta).toNat = cfg.threshold := by cases ta <;> rfl
  have hcfg := constructCfg_ok (orderOfCode_eq_some_iff.2 ho) hnull hthr
  rw [hisLit, hdecRef, hthreshold] at hcfg
  exact exec_construct_of_ok hs hcfg

/-- Settles O13: each clause is one of the three failing checks, with the checks before it passed. -/
theorem constructReportsTheFirstError : Obligations.ConstructReportsTheFirstError := by
  intro oc ca ra ta s hs
  refine ⟨fun h0 h1 => ?_, fun hord hnull => ?_, fun hord hca hra hthr => ?_⟩
  · exact exec_construct_of_error hs (constructCfg_unknownOrder (orderOfCode_eq_none_iff.2 ⟨h0, h1⟩))
  · obtain ⟨ord, ho⟩ := exists_orderOfCode_of_legal hord
    exact exec_construct_of_error hs (constructCfg_nilParameter ho (anyNull_iff.2 hnull))
  · obtain ⟨ord, ho⟩ := exists_orderOfCode_of_legal hord
    have hnull : ¬ anyNull ca ra = true := by simp [anyNull_iff, hca, hra]
    exact exec_construct_of_error hs (constructCfg_thresholdTooSmall ho hnull (thresholdOf_lt_iff.2 hthr))

end Sys2Proof.Machine
end


/-! ## CTRL and the group of sub-rounds under its byte (R63, R65, R66, R67, R69) -/
section

namespace Sys2Proof

/-- A counter's bound admits every smaller value (R101). -/
theorem Generics.countOk_of_le {g : Generics} {m n : Nat} (hmn : m ≤ n) (h : g.countOk n = true) : g.countOk m = true := by
  unfold Generics.countOk at *
  cases hb : g.countBits with
  | none => rfl
  | some b =>
    simp only [hb, decide_eq_true_eq] at h ⊢
    omega

end Sys2Proof

namespace Sys2Proof.Machine

/-! ### The control byte -/

/-- Settles O1: bit `7 - i` of a byte is the quotient's parity. -/
theorem defaultIsLiteralReadsBitFromTop : Obligations.DefaultIsLiteralReadsBitFromTop := by
  intro c i _
  rw [applyIsLit, defaultIsLiteral, BitVec.getLsbD, Nat.testBit_eq_decide_div_mod_eq, Bool.not_eq_true',
    decide_eq_false_iff_not]
  exact Nat.mod_two_ne_one

/-- Under a zero control byte every sub-round is a literal (R63). -/
theorem isLiteralNow_of_zero {e : Inst} (hc : e.ctrl = .holds 0#8) (hl : e.cfg.isLit = .default) : isLiteralNow e = true := by
  simp [isLiteralNow, ctrlValue, hc, hl, applyIsLit, defaultIsLiteral]

/-! ### CTRL and END_CLEAN on the machine -/

/-- A token under a READ, where its phase selects it and its engine answers. -/
theorem RunsOn.exec_eq_setInst {s : State} {k : Nat} {e e1 : Inst} {i : Instr} (hr : RunsOn s k e) (hi : isToken i = true)
    (hsel : selectedIn i e.phase = true) (h : engineExec s.gen i e = .next e1) : exec i s = .next (s.setInst k e1) := by
  rw [hr.exec_eq hi, if_pos hsel, h, andThen_of_next]

/-- CTRL's next engine in one record (R65, R66). -/
theorem dispatch_latchCtrl_eq (e : Inst) (c : Byte) : dispatch (e.latchCtrl c) =
    { e with ctrl := .holds c, sub := 0, phase := if applyIsLit e.cfg.isLit c 0 then .lit else .ref } := by
  rw [dispatch_eq]
  rfl

/-- Settles O14: CTRL pulls its byte, latches it and dispatches. -/
theorem ctrlLatchesAndSelects : Obligations.CtrlLatchesAndSelects := by
  intro s k e c hr hp hcount
  refine hr.exec_eq_setInst rfl (by rw [hp]; rfl) (ctrlToken_next.2 ⟨hcount, ?_⟩)
  rw [dispatch_latchCtrl_eq]
  rfl

/-- END_CLEAN's next engine in one record: the flush does not see the source (R38, R67). -/
theorem finish_pastEvent_eq (e : Inst) : finish e.pastEvent = { flushSpec e with src := e.src.drop 1, phase := .done } := by
  rw [finish, flushIfStream_eq_flushSpec]
  cases hm : e.mode <;> simp [flushSpec, Inst.pastEvent, Inst.goto, hm]

/-- Settles O15: END_CLEAN is Finish, behind EOS. -/
theorem endCleanFinishes : Obligations.EndCleanFinishes := by
  intro s k e hr hp
  rw [← finish_pastEvent_eq]
  exact hr.exec_eq_setInst rfl (by rw [hp]; rfl) rfl

/-! ### A group of literals (R69) -/

theorem engineStep_ctrl_byte {g : Generics} {e : Inst} {c : Byte} {rest : List SrcEvent} (hp : e.phase = .ctrl)
    (hs : e.src = .byte c :: rest) : engineStep g e = ctrlToken g c e := by
  simp [engineStep, fetch_ctrl hp, hs, engineExec]

theorem engineStep_lit_byte {g : Generics} {e : Inst} {v : Byte} {rest : List SrcEvent} (hp : e.phase = .lit)
    (hs : e.src = .byte v :: rest) : engineStep g e = litToken g v e := by
  simp [engineStep, fetch_lit hp, hs, engineExec]

/-- An engine that Dispatch has left in the group of a zero control byte under the default control function, with `bytes` for
the sub-rounds that are left, and with room for them in both counters. -/
structure LiteralsAhead (g : Generics) (bytes : List Byte) (rest : List SrcEvent) (e : Inst) : Prop where
  phase : e.phase = nextPhase e
  ctrl : e.ctrl = .holds 0#8
  isLit : e.cfg.isLit = .default
  sub : e.sub + bytes.length = 8
  src : e.src = bytes.map .byte ++ rest
  consumed : g.countOk (e.consumed + bytes.length) = true
  outCount : g.countOk (e.outCount + bytes.length) = true

namespace LiteralsAhead
variable {g : Generics} {bytes : List Byte} {rest : List SrcEvent} {e : Inst}

/-- After the eighth sub-round the engine is back at CTRL (R66). -/
theorem phase_nil (h : LiteralsAhead g [] rest e) : e.phase = .ctrl := by
  have hsub : e.sub = 8 := h.sub
  rw [h.phase, nextPhase, if_pos hsub]

/-- Before it the next token is a literal. -/
theorem phase_cons {b : Byte} (h : LiteralsAhead g (b :: bytes) rest e) : e.phase = .lit := by
  have hsub : e.sub ≠ 8 := by
    have := h.sub
    rw [List.length_cons] at this
    omega
  rw [h.phase, nextPhase, if_neg hsub, if_pos (isLiteralNow_of_zero h.ctrl h.isLit)]

/-- One literal of the group: its byte is consumed and emitted, and the others are still ahead (R70). -/
theorem engineStep {b : Byte} (h : LiteralsAhead g (b :: bytes) rest e) :
    ∃ e1, engineStep g e = .next e1 ∧ LiteralsAhead g bytes rest e1 ∧ e1.hist = e.hist ++ [b] ∧
      e1.outCount = e.outCount + 1 ∧ e1.consumed = e.consumed + 1 := by
  have hlit := h.phase_cons
  obtain ⟨-, hctrl, hisLit, hsub, hsrc, hconsumed, hout⟩ := h
  rw [List.length_cons] at hsub hconsumed hout
  refine ⟨completeToken (emitted g b (e.pulled 1)), ?_, ?_, ?_⟩
  · rw [engineStep_lit_byte hlit hsrc]
    exact litToken_next.2 ⟨g.countOk_of_le (by omega) hconsumed, g.countOk_of_le (by omega) hout, rfl⟩
  · constructor <;> simp only [completeToken_eq]
    · rfl
    · simpa [emitted_same] using hctrl
    · simpa [emitted_same] using hisLit
    · simp [emitted_same]; omega
    · simp [hsrc]
    · simpa [emitted_same, Nat.add_assoc, Nat.add_comm 1] using hconsumed
    · simpa [Nat.add_assoc, Nat.add_comm 1] using hout
  · simp [completeToken_eq, emitted_same]

/-- The rest of the group: every byte is a literal, and the engine ends at CTRL (R69). -/
theorem engineRun : ∀ {e : Inst}, LiteralsAhead g bytes rest e →
    ∃ e1, engineRun g bytes.length e = .next e1 ∧ e1.phase = .ctrl ∧ e1.hist = e.hist ++ bytes ∧
      e1.outCount = e.outCount + bytes.length ∧ e1.consumed = e.consumed + bytes.length ∧ e1.src = rest := by
  induction bytes with
  | nil =>
    intro e h
    exact ⟨e, rfl, h.phase_nil, (List.append_nil _).symm, rfl, rfl, h.src⟩
  | cons b bs ih =>
    intro e h
    obtain ⟨x, hx, hahead, hhist, hout, hconsumed⟩ := h.engineStep
    obtain ⟨e1, hrun, hp, hhist1, hout1, hconsumed1, hsrc⟩ := ih hahead
    refine ⟨e1, ?_, hp, ?_, ?_, ?_, hsrc⟩
    · rw [List.length_cons, Machine.engineRun, hx, andThen_of_next, hrun]
    · rw [hhist1, hhist, List.append_assoc, List.singleton_append]
    · rw [hout1, hout, List.length_cons]; omega
    · rw [hconsumed1, hconsumed, List.length_cons]; omega

end LiteralsAhead

/-- Settles O23: the control byte puts the eight literals ahead. -/
theorem zeroControlByteIsEightLiterals : Obligations.ZeroControlByteIsEightLiterals := by
  intro g e bytes rest hp hconsumed hout hisLit hlen hsrc
  have hctrl : engineStep g e = .next (dispatch ((e.pulled 1).latchCtrl 0#8)) := by
    rw [engineStep_ctrl_byte hp hsrc]
    exact ctrlToken_next.2 ⟨g.countOk_of_le (by omega) hconsumed, rfl⟩
  have hahead : LiteralsAhead g bytes rest (dispatch ((e.pulled 1).latchCtrl 0#8)) := by
    rw [dispatch_eq]
    exact ⟨rfl, rfl, hisLit, by simp [hlen], by simp [hsrc], by simpa [hlen, Nat.add_assoc] using hconsumed,
      by simpa [hlen] using hout⟩
  obtain ⟨e1, hrun, hp1, hhist, hout1, hconsumed1, hsrc1⟩ := hahead.engineRun
  rw [hlen] at hrun hout1 hconsumed1
  refine ⟨e1, ?_, hp1, ?_, ?_, ?_, hsrc1⟩
  · rw [engineRun, hctrl, andThen_of_next, hrun]
  · simpa [dispatch_eq] using hhist
  · simpa [dispatch_eq] using hout1
  · simpa [dispatch_eq, Nat.add_assoc] using hconsumed1

end Sys2Proof.Machine
end

/-! ## The tokens of a group in one record (R37, R70, R71, R74, R75, R93) -/
section

namespace Sys2Proof.Machine

/-! ### LIT and COPY -/

section
variable {g : Generics} {e : Inst} {c v : Byte}

theorem emitted_eq_emitSpec (h : g.countOk (e.outCount + 1) = true) : emitted g v e = emitSpec g v e :=
  (emit_next.1 (emit_eq_emitSpec v h)).2.symm

/-- `Emit` does not see the source (R37). -/
theorem emitSpec_pulled (g : Generics) (v : Byte) (e : Inst) (k : Nat) : emitSpec g v (e.pulled k) =
    { emitSpec g v e with consumed := e.consumed + k, src := e.src.drop k } := by
  cases hm : e.mode with
  | buffer => simp [emitSpec, hm, Inst.pulled]
  | stream => by_cases hfull : e.pending + 1 = g.bufCap <;> simp [emitSpec, hm, hfull, Inst.pulled]

/-- A token that ends with an `Emit` dispatches on the registers that the `Emit` has left alone (R37, R66). -/
theorem completeToken_emitted (hc : e.ctrl = .holds c) :
    completeToken (emitted g v e) = { emitted g v e with sub := e.sub + 1, phase := phaseAfter e c } := by
  have hctrl : (emitted g v e).ctrl = .holds c := by simp [emitted_same, hc]
  rw [completeToken_eq_phaseAfter hctrl]
  simp [phaseAfter, emitted_same]

/-- The end of a COPY step whose copy has bytes left to count (R75). -/
theorem copyAdvance_emitted (hc : e.ctrl = .holds c) (hrem : 1 ≤ e.copyRem) :
    copyAdvance (emitted g v e) =
      if e.copyRem = 1 then { emitted g v e with copyRem := 0, sub := e.sub + 1, phase := phaseAfter e c }
      else { emitted g v e with copyRem := e.copyRem - 1 } := by
  have hsame : (emitted g v e).copyRem = e.copyRem := by simp [emitted_same]
  rw [copyAdvance_eq, hsame]
  by_cases hlast : e.copyRem = 1
  · have hdone : completeToken ((emitted g v e).setCopyRem 0) = (completeToken (emitted g v e)).setCopyRem 0 := by
      simp only [completeToken_eq]
      rfl
    rw [if_pos hlast, hlast, if_pos rfl, hdone, completeToken_emitted hc]
    rfl
  · rw [if_neg hlast, if_neg (by omega)]
    rfl

/-- The invariant keeps a copy's distance in reach, so a COPY step emits the history's byte at it in both modes (R36, R75). -/
theorem Inst.Inv.copyToken_eq {d : Nat} (hi : e.Inv g) (hp : e.phase = .copy) (hd : e.copyDist = .holds d)
    (hk : g.countOk (e.outCount + 1) = true) :
    1 ≤ d ∧ d ≤ e.outCount ∧
      ∃ b, e.hist[e.outCount - d]? = some b ∧ copyToken g e = .next (copyAdvance (emitted g b e)) := by
  obtain ⟨-, -, d', hd', h1, hout, hwin⟩ := hi.inCopy hp
  obtain rfl : d = d' := Latch.holds.inj (hd.symm.trans hd')
  obtain ⟨b, hb, hread⟩ := hi.winRead h1 hout hwin
  have hdist : distValue e = d := by simp [distValue, hd]
  exact ⟨h1, hout, b, hb, copyToken_next.2 ⟨b, hdist.symm ▸ hread, hk, rfl⟩⟩

end

/-- Settles O16: LIT's `Emit` on the record that its pull leaves. -/
theorem litEmitsItsByte : Obligations.LitEmitsItsByte := by
  intro s k e c v hr hp hc hconsumed hout
  refine hr.exec_eq_setInst rfl (by rw [hp]; rfl) (litToken_next.2 ⟨hconsumed, hout, ?_⟩)
  have hc1 : (e.pulled 1).ctrl = .holds c := hc
  have hout1 : s.gen.countOk ((e.pulled 1).outCount + 1) = true := hout
  rw [completeToken_emitted hc1, emitted_eq_emitSpec hout1, emitSpec_pulled]
  rfl

/-- Settles O19: `WinRead` answers the byte at `copyDist`, and the step ends in one of the two records. -/
theorem copyEmitsTheByteAtItsDistance : Obligations.CopyEmitsTheByteAtItsDistance := by
  intro s k e c b d hr hi hp hc hd hb hk
  obtain ⟨hrem, -⟩ := hi.inCopy hp
  obtain ⟨-, -, b', hb', hcopy⟩ := hi.copyToken_eq hp hd hk
  obtain rfl : b = b' := Option.some.inj (hb.symm.trans hb')
  rw [← emitted_eq_emitSpec hk, ← copyAdvance_emitted hc hrem]
  exact hr.exec_eq_setInst rfl (by rw [hp]; rfl) hcopy

/-! ### References -/

theorem refToken_eq {g : Generics} {k : Nat} {l o : Int} {e : Inst}
    (hk : g.countOk (e.consumed + (k - e.refBuf.length)) = true) :
    refToken g k l o e = .next (resolve g l o (pulledRef k e)) :=
  refToken_next.2 ⟨hk, rfl⟩

/-- Resolve in the records of the statements, with its offset check in two parts (R74). -/
theorem resolve_eq (g : Generics) (l o : Int) (e : Inst) : resolve g l o e =
    if l < 0 then raiseSpec .chunkLength e
    else if o < 0 ∨ (e.outCount : Int) - 1 - o < 0 then raiseSpec .offset e
    else if e.mode = .stream ∧ (g.window : Int) < o + 1 then raiseSpec .offset e
    else copyStarted e l o := by
  unfold resolve offsetInvalid copyStart
  simp only [raise_eq_raiseSpec, startCopy_eq_copyStarted, Bool.or_eq_true, Bool.and_eq_true, decide_eq_true_eq]
  rw [ite_or (o < 0 ∨ _)]

/-- The validity of a pair does not turn on the bytes pulled. -/
theorem ValidReference.pulledRef {g : Generics} {l o : Int} {e : Inst} (h : ValidReference g e l o) (k : Nat) :
    ValidReference g (pulledRef k e) l o := h

theorem resolve_of_valid {g : Generics} {l o : Int} {e : Inst} (h : ValidReference g e l o) :
    resolve g l o e = copyStarted e l o := by
  obtain ⟨hl, ho, hstart, hwin⟩ := h
  rw [resolve_eq, if_neg (by omega), if_neg (by omega), if_neg fun hs => absurd (hwin hs.1) (by omega)]

namespace IsLayout
variable {i : Instr} {l : BitVec 4} {o : BitVec 12}

theorem isToken (h : IsLayout i l o) : isToken i = true := by
  rcases h with rfl | rfl | rfl | rfl <;> rfl

theorem selectedIn (h : IsLayout i l o) (p : Phase) : selectedIn i p = (p == .ref) := by
  rcases h with rfl | rfl | rfl | rfl <;> rfl

theorem engineExec (h : IsLayout i l o) (g : Generics) (e : Inst) :
    engineExec g i e = refToken g 2 (l.toNat : Int) (o.toNat : Int) e := by
  rcases h with rfl | rfl | rfl | rfl <;> rfl

end IsLayout

section
variable {s : State} {k : Nat} {e : Inst}

/-- REF resolves the pair that `cfg.decRef` gives (R71, R74). -/
theorem RunsOn.exec_ref {bytes : List Byte} {l o : Int} (hr : RunsOn s k e) (hp : e.phase = .ref)
    (hk : s.gen.countOk (e.consumed + (bytes.length - e.refBuf.length)) = true)
    (hf : applyDecRef s.gen e.cfg bytes = (l, o)) :
    exec (.ref bytes) s = .next (s.setInst k (resolve s.gen l o (pulledRef bytes.length e))) := by
  refine hr.exec_eq_setInst rfl (by rw [hp]; rfl) ?_
  rw [engineExec, refGeneric, hf]
  exact refToken_eq hk

/-- A layout resolves its own fields (R54, R74). -/
theorem RunsOn.exec_layout {i : Instr} {l : BitVec 4} {o : BitVec 12} (hr : RunsOn s k e) (hi : IsLayout i l o)
    (hp : e.phase = .ref) (hk : s.gen.countOk (e.consumed + (2 - e.refBuf.length)) = true) :
    exec i s = .next (s.setInst k (resolve s.gen l.toNat o.toNat (pulledRef 2 e))) := by
  refine hr.exec_eq_setInst hi.isToken (by rw [hi.selectedIn, hp]; rfl) ?_
  rw [hi.engineExec]
  exact refToken_eq hk

end

/-- Settles O17: a valid pair passes Resolve's checks. -/
theorem validReferenceStartsItsCopy : Obligations.ValidReferenceStartsItsCopy := by
  refine ⟨fun s k e bytes l o hr hp hk hf hv => ?_, fun s k e i l o hi hr hp hk hv => ?_⟩
  · rw [hr.exec_ref hp hk hf, resolve_of_valid (hv.pulledRef _)]
  · rw [hr.exec_layout hi hp hk, resolve_of_valid (hv.pulledRef _)]

/-- Settles O18: Resolve's checks; a layout's fields are unsigned and pass those on the sign. -/
theorem resolveChecksInOrder : Obligations.ResolveChecksInOrder := by
  refine ⟨fun s k e bytes l o hr hp hk hf => ?_, fun s k e i l o hi hr hp hk => ?_⟩
  · rw [hr.exec_ref hp hk hf, resolve_eq]
    rfl
  · have hl : ¬ ((l.toNat : Int) < 0) := Int.not_lt.2 (Int.natCast_nonneg _)
    have ho : ¬ ((o.toNat : Int) < 0) := Int.not_lt.2 (Int.natCast_nonneg _)
    rw [hr.exec_layout hi hp hk, resolve_eq, if_neg hl]
    simp only [ho, false_or]
    rfl

/-- END_TRUNC's next engine in one record: the flush sees neither the source nor the partial code (R38, R93). -/
theorem raise_truncated_eq (c : Cause) (e : Inst) : raise c (truncated e) =
    { raiseSpec c e with src := e.src.drop 1, refBuf := if e.phase = .ref then [] else e.refBuf } := by
  rw [raise_eq_raiseSpec]
  by_cases hp : e.phase = .ref
  · rw [truncated_of_ref hp]
    cases hm : e.mode <;> simp [raiseSpec, flushSpec, Inst.pastEvent, Inst.setRefBuf, hm, hp]
  · rw [truncated_of_ne_ref hp]
    cases hm : e.mode <;> simp [raiseSpec, flushSpec, Inst.pastEvent, hm, hp]

/-- Settles O20: END_TRUNC raises its cause behind EOS, without the partial code. -/
theorem endTruncRaisesUnexpectedEof : Obligations.EndTruncRaisesUnexpectedEof := by
  intro s k e hr hp
  rw [← raise_truncated_eq]
  have hsel : selectedIn .endTrunc e.phase = true := by rcases hp with hp | hp <;> rw [hp] <;> rfl
  exact hr.exec_eq_setInst rfl hsel (endTruncToken_eq e)

/-- Settles O21: a byte that leaves the code incomplete is collected. -/
theorem referenceBytesAreCollectedOneByOne : Obligations.ReferenceBytesAreCollectedOneByOne := by
  intro s k e b rest hr hp hlen hs hk
  obtain ⟨n, hstep⟩ := hr.step_eq_goOn
  have hfetch : fetch s.gen e = .collect b := by
    simp [fetch_ref hp (Nat.lt_of_succ_lt hlen), hs, Nat.ne_of_lt hlen]
  have hcollect : collectByte s.gen b e = .next ((e.pulled 1).setRefBuf (e.refBuf ++ [b])) := collectByte_next.2 ⟨hk, rfl⟩
  simp [hstep, goOn, hfetch, hcollect, Inst.pulled, Inst.setRefBuf, hs]

end Sys2Proof.Machine
end

/-! ## A whole reference token and the copy loop (R75, R76, R78) -/
section

namespace Sys2Proof.Machine

/-! ### The copy loop -/

theorem copyLoop_succ {h : List Byte} {start : Nat} {b : Byte} (hb : h[start]? = some b) (n : Nat) :
    copyLoop (n + 1) h start = copyLoop n (h ++ [b]) (start + 1) := by
  simp [copyLoop, hb]

/-- The loop appends `n` bytes, of which byte `j` is byte `j mod dist` of the source range: behind the range the loop reads what
it has written, beginning with the range's first byte (R76, R78). -/
theorem copyLoop_eq_append (n : Nat) : ∀ {h : List Byte} {start dist : Nat}, start + dist = h.length → 1 ≤ dist →
    ∃ bs, copyLoop n h start = h ++ bs ∧ bs.length = n ∧ ∀ j, j < n → bs[j]? = h[start + j % dist]? := by
  induction n with
  | zero => intro h start dist _ _; exact ⟨[], by simp [copyLoop], rfl, nofun⟩
  | succ n ih =>
    intro h start dist hlen hdist
    have hb : h[start]? = some h[start] := List.getElem?_eq_getElem (by omega)
    obtain ⟨bs, hloop, hbs, hperiod⟩ := ih (h := h ++ [h[start]]) (start := start + 1) (dist := dist)
      (by rw [List.length_append, List.length_singleton]; omega) hdist
    refine ⟨h[start] :: bs, by rw [copyLoop_succ hb, hloop]; simp, by simp [hbs], fun j hj => ?_⟩
    cases j with
    | zero => simp
    | succ j =>
      have hmod := Nat.mod_lt j hdist
      rw [List.getElem?_cons_succ, hperiod j (by omega), ← Nat.mod_add_mod]
      by_cases hwrap : j % dist + 1 = dist
      · rw [hwrap, Nat.mod_self, show start + 1 + j % dist = h.length by omega, List.getElem?_concat_length, Nat.add_zero, hb]
      · rw [Nat.mod_eq_of_lt (a := j % dist + 1) (by omega), List.getElem?_append_left (by omega), Nat.add_right_comm,
          Nat.add_assoc]

/-! ### The COPY steps of a reference -/

/-- The COPY steps that are due run the copy loop from the distance back, and complete the token (R75, R76). -/
theorem Inst.Inv.copySteps_eq_copyLoop {g : Generics} {d : Nat} (hR : 1 ≤ g.refBytes) (n : Nat) : ∀ {e : Inst}, e.Inv g →
    e.phase = .copy → e.copyRem = n + 1 → e.copyDist = .holds d → g.countOk (e.outCount + (n + 1)) = true →
    ∃ e1, copySteps g (n + 1) e = .next e1 ∧ e1.hist = copyLoop (n + 1) e.hist (e.outCount - d) ∧ e1.sub = e.sub + 1 ∧
      e1.cause = e.cause := by
  induction n with
  | zero =>
    intro e hi hp hrem hd hk
    obtain ⟨-, -, b, hb, hstep⟩ := hi.copyToken_eq hp hd hk
    have hlast : copyAdvance (emitted g b e) = completeToken ((emitted g b e).setCopyRem 0) := by
      simp [copyAdvance_eq, emitted_same, hrem]
    rw [hlast] at hstep
    refine ⟨_, by rw [copySteps, hstep]; rfl, ?_, ?_⟩
    · rw [copyLoop_succ hb]
      simp [completeToken_eq, copyLoop]
    · simp [completeToken_eq, emitted_same]
  | succ n ih =>
    intro e hi hp hrem hd hk
    obtain ⟨-, hout, b, hb, hstep⟩ := hi.copyToken_eq hp hd (g.countOk_of_le (by omega) hk)
    have hmore : copyAdvance (emitted g b e) = (emitted g b e).setCopyRem (n + 1) := by
      simp [copyAdvance_eq, emitted_same, hrem]
    rw [hmore] at hstep
    obtain ⟨e1, hrun, hhist, hsub, hcause⟩ := ih (copyToken_inv hi hp hR hstep) (by simp [emitted_same, hp]) rfl
      (by simp [emitted_same, hd]) (by rwa [Inst.setCopyRem_outCount, emitted_outCount, Nat.add_assoc, Nat.add_comm 1])
    refine ⟨e1, by rw [copySteps, hstep]; exact hrun, ?_, by simpa [emitted_same] using hsub,
      by simpa [emitted_same] using hcause⟩
    rw [copyLoop_succ hb, hhist, Inst.setCopyRem_hist, emitted_hist, Inst.setCopyRem_outCount, emitted_outCount,
      Nat.succ_sub hout]

/-! ### The COPY steps on the machine -/

theorem RunsOn.setInst {s : State} {k : Nat} {e : Inst} (hr : RunsOn s k e) (e1 : Inst) : RunsOn (s.setInst k e1) k e1 := by
  obtain ⟨hop, he⟩ := hr
  obtain ⟨hk, -⟩ := List.getElem?_eq_some_iff.1 he
  exact ⟨hop, List.getElem?_set_self hk⟩

theorem phase_of_copiesDue {e : Inst} (h : copiesDue e ≠ 0) : e.phase = .copy := by
  cases hp : e.phase <;> simp_all [copiesDue]

/-- The COPY instructions of a reference are its engine's COPY steps. -/
theorem RunsOn.execTimes_copy (n : Nat) : ∀ {s : State} {k : Nat} {e e1 : Inst}, RunsOn s k e → copiesDue e = n →
    copySteps s.gen n e = .next e1 → execTimes .copy n s = .next (s.setInst k e1) := by
  induction n with
  | zero =>
    intro s k e e1 hr _ h
    cases h
    rw [setInst_eq_self hr.2]
    rfl
  | succ n ih =>
    intro s k e e1 hr hdue h
    have hp : e.phase = .copy := phase_of_copiesDue (by omega)
    obtain ⟨x, hx, h⟩ := andThen_next.1 h
    have hexec : exec .copy s = .next (s.setInst k x) := hr.exec_eq_setInst rfl (by rw [hp]; rfl) hx
    have hdue' : copiesDue x = n := Nat.succ.inj ((copiesDue_of_copyToken hp hx).symm.trans hdue)
    rw [execTimes, hexec, andThen_of_next, ih (hr.setInst x) hdue' h]
    simp [State.setInst]

/-- A valid reference on its engine: Resolve starts `copyLength` COPY steps, which run the copy loop from `copyStart` and
complete the token (R74 to R76). -/
theorem Inst.Inv.reference_runs_copyLoop {g : Generics} {e : Inst} {l o : Int} {k : Nat} (hi : e.Inv g) (hp : e.phase = .ref)
    (hv : ValidReference g e l o) (hconsumed : g.countOk (e.consumed + (k - e.refBuf.length)) = true)
    (hout : g.countOk (e.outCount + (l + (e.cfg.threshold : Int)).toNat) = true) :
    let n := (l + (e.cfg.threshold : Int)).toNat
    let started := copyStarted (pulledRef k e) l o
    copiesDue started = n ∧ ∃ e1, copySteps g n started = .next e1 ∧
      e1.hist = copyLoop n e.hist ((e.outCount : Int) - 1 - o).toNat ∧ e1.sub = e.sub + 1 ∧ e1.phase ≠ .copy ∧
      e1.cause = .none := by
  intro n started
  have hR : 1 ≤ g.refBytes := Nat.one_le_of_lt (hi.partialRef hp)
  have hthr : 1 ≤ e.cfg.threshold := (Nat.le_add_left 1 _).trans hi.threshold
  obtain ⟨hl, ho, hstart, -⟩ := id hv
  have hcopying : started.Inv g :=
    refToken_inv hi hp ((refToken_eq hconsumed).trans (congrArg _ (resolve_of_valid (hv.pulledRef k))))
  have hdue : copiesDue started = n := max_eq_right (by show 1 ≤ n; omega)
  obtain ⟨m, hm⟩ : ∃ m, n = m + 1 := ⟨n - 1, by omega⟩
  obtain ⟨e1, hrun, hhist, hsub, hcause⟩ := hcopying.copySteps_eq_copyLoop hR m rfl hm rfl (hm ▸ hout)
  rw [← hm] at hrun hhist
  have hfrom : e.outCount - (o + 1).toNat = ((e.outCount : Int) - 1 - o).toNat := by omega
  have hend : e1.phase ≠ .copy := (runCopies_inv hcopying hR (by rw [runCopies, hdue]; exact hrun)).2
  exact ⟨hdue, e1, hrun, hfrom ▸ hhist, hsub, hend, hcause.trans (hi.causeIff.2 (by rw [hp]; simp))⟩

/-- Settles O22: Resolve starts a copy of `copyLength` steps, which run the copy loop, and the loop is periodic. -/
theorem referenceTokenAppendsTheCopyLoop : Obligations.ReferenceTokenAppendsTheCopyLoop := by
  intro s k e bytes l o hr hi hp hf hv hconsumed hout n start dist
  have hexec := hr.exec_ref hp hconsumed hf
  rw [resolve_of_valid (hv.pulledRef _)] at hexec
  obtain ⟨hdue, e1, hrun, hhist, hsub, hend, hcause⟩ := hi.reference_runs_copyLoop hp hv hconsumed hout
  have hruns := hr.setInst (copyStarted (pulledRef bytes.length e) l o)
  obtain ⟨-, ho, hstart, -⟩ := hv
  have hrange : start + dist = e.hist.length := by rw [← hi.count]; omega
  obtain ⟨bs, hloop, hlen, hperiod⟩ := copyLoop_eq_append n hrange (by omega)
  refine ⟨_, _, e1, hexec, hruns.execTimes_copy n hdue hrun, (hruns.setInst e1).2, hhist, ?_, hsub, hend, hcause,
    fun j hj => ?_⟩
  · rw [hhist, hloop, List.length_append, hlen]
  · rw [hhist, hloop, hi.count, List.getElem?_append_right (Nat.le_add_right _ _), Nat.add_sub_cancel_left, hperiod j hj]

end Sys2Proof.Machine
end

/-! ## STREAM mode decodes what BUFFER mode decodes (R26, R74, R95) -/
section

namespace Sys2Proof

theorem Generics.window_of_presetWidths {g : Generics} (h : g.presetWidths = true) : g.window = 4096 := by
  obtain ⟨ho, -⟩ := (Bool.and_eq_true _ _).mp h
  rw [Generics.window, of_decide_eq_true ho]
  rfl

end Sys2Proof

namespace Sys2Proof.Machine

/-! ### The engine without its adapter -/

/-- The BUFFER engine with the same registers, history and source (R24, R26): ring, pending, ready and `closed` are absent. -/
def Inst.bufferView (e : Inst) : Inst :=
  { e with mode := .buffer, ring := [], pending := 0, ready := [], closed := false }

/-- A result seen without its adapter. -/
def viewed (o : Res Inst) : Res Inst := andThen o fun e => .next e.bufferView

@[simp] theorem viewed_next (e : Inst) : viewed (.next e) = .next e.bufferView := rfl

@[simp] theorem viewed_refused (r : Refusal) : viewed (.refused r) = .refused r := rfl

theorem viewed_eq_next {o : Res Inst} {b : Inst} : viewed o = .next b ↔ ∃ e, o = .next e ∧ e.bufferView = b := by
  simp [viewed, andThen_next]

/-- Two steps in a row commute with the view when each does. -/
theorem andThen_viewed {o : Res Inst} {f : Inst → Res Inst} (h : ∀ x, o = .next x → f x.bufferView = viewed (f x)) :
    andThen (viewed o) f = viewed (andThen o f) := by
  cases o with
  | next x => exact h x rfl
  | fault r => rfl
  | refused r => rfl

/-! ### Each operation commutes with the view -/

section
variable {g : Generics} {e : Inst}

theorem pullBytes_bufferView (g : Generics) (k : Nat) (e : Inst) :
    pullBytes g k e.bufferView = viewed (pullBytes g k e) := by
  unfold pullBytes
  by_cases hk : g.countOk (e.consumed + k) = true
  · rw [if_pos hk]; exact if_pos hk
  · rw [if_neg hk]; exact if_neg hk

theorem emitted_bufferView (g : Generics) (v : Byte) (e : Inst) :
    emitted g v e.bufferView = (emitted g v e).bufferView := by
  have hview : emitted g v e.bufferView = e.bufferView.append v := rfl
  rw [hview]
  unfold emitted flushIfFull
  cases hm : e.mode with
  | buffer => rfl
  | stream => dsimp only; split <;> rfl

theorem emit_bufferView (g : Generics) (v : Byte) (e : Inst) : emit g v e.bufferView = viewed (emit g v e) := by
  by_cases hk : g.countOk (e.outCount + 1) = true
  · rw [emit_next.2 ⟨hk, rfl⟩, viewed_next, ← emitted_bufferView]
    exact emit_next.2 ⟨hk, rfl⟩
  · unfold emit
    rw [if_neg hk]
    exact if_neg hk

theorem dispatch_bufferView (e : Inst) : dispatch e.bufferView = (dispatch e).bufferView := by
  simp only [dispatch_eq]
  rfl

theorem completeToken_bufferView (e : Inst) : completeToken e.bufferView = (completeToken e).bufferView :=
  dispatch_bufferView e.nextSub

theorem copyAdvance_bufferView (e : Inst) : copyAdvance e.bufferView = (copyAdvance e).bufferView := by
  simp only [copyAdvance_eq, completeToken_eq]
  rw [apply_ite Inst.bufferView]
  rfl

/-- The flush of Finish and raise moves bytes within the adapter only (R38). -/
theorem flushIfStream_bufferView (e : Inst) : flushIfStream e.bufferView = (flushIfStream e).bufferView := by
  unfold flushIfStream
  cases hm : e.mode <;> rfl

theorem raise_bufferView (c : Cause) (e : Inst) : raise c e.bufferView = (raise c e).bufferView := by
  rw [raise, flushIfStream_bufferView]
  rfl

theorem finish_bufferView (e : Inst) : finish e.bufferView = (finish e).bufferView := by
  rw [finish, flushIfStream_bufferView]
  rfl

theorem truncated_bufferView (e : Inst) : truncated e.bufferView = (truncated e).bufferView := by
  unfold truncated
  rw [apply_ite Inst.bufferView]
  rfl

/-- STREAM mode's own check of a reference passes every distance within the window (R74). -/
theorem resolve_bufferView {l o : Int} (hwin : o + 1 ≤ (g.window : Int)) (e : Inst) :
    resolve g l o e.bufferView = (resolve g l o e).bufferView := by
  have hoff : offsetInvalid g e.bufferView o = offsetInvalid g e o := by
    simp only [offsetInvalid, not_lt.2 hwin, decide_false, Bool.and_false]
    rfl
  unfold resolve
  rw [hoff, raise_bufferView, raise_bufferView, apply_ite Inst.bufferView, apply_ite Inst.bufferView]
  rfl

theorem refToken_bufferView {l o : Int} (hwin : o + 1 ≤ (g.window : Int)) (k : Nat) (e : Inst) :
    refToken g k l o e.bufferView = viewed (refToken g k l o e) := by
  have hpull := pullBytes_bufferView g (k - e.refBuf.length) e
  unfold refToken
  rw [show e.bufferView.refBuf = e.refBuf from rfl, hpull]
  exact andThen_viewed fun x _ => congrArg Host.Outcome.next (resolve_bufferView hwin (x.setRefBuf []))

/-- The ring of a STREAM engine gives COPY the history's byte (R36, R39). -/
theorem Inst.Inv.copyToken_bufferView (hi : e.Inv g) (hp : e.phase = .copy) :
    copyToken g e.bufferView = viewed (copyToken g e) := by
  obtain ⟨-, -, d, hd, h1, hout, hwin⟩ := hi.inCopy hp
  obtain ⟨b, hb, hread⟩ := hi.winRead h1 hout hwin
  have hdist : distValue e = d := by simp [distValue, hd]
  have hread' : Machine.winRead g d e.bufferView = .next b := winRead_next.2 ⟨h1, hout, hb⟩
  unfold copyToken
  rw [show distValue e.bufferView = distValue e from rfl, hdist, hread, hread', andThen_of_next, andThen_of_next,
    emit_bufferView]
  exact andThen_viewed fun x _ => congrArg Host.Outcome.next (copyAdvance_bufferView x)

/-- Every token commutes with the view: a layout's offset and the default function's are within the window, so STREAM mode's own
check passes them (R54, R72, R74). -/
theorem Inst.Inv.engineExec_bufferView {i : Instr} (hi : e.Inv g) (hg : g.supported = true) (hd : e.cfg.decRef = .default)
    (hwf : i.wf g = true) (hsel : selectedIn i e.phase = true) :
    engineExec g i e.bufferView = viewed (engineExec g i e) := by
  have hlayout {p : Bool} (h : (g.presetWidths && p) = true) (o : BitVec 12) : (o.toNat : Int) + 1 ≤ (g.window : Int) := by
    rw [Generics.window_of_presetWidths ((Bool.and_eq_true _ _).mp h).1]
    omega
  cases i with
  | ctrl c =>
    rw [engineExec, ctrlToken, pullBytes_bufferView]
    exact andThen_viewed fun x _ => congrArg Host.Outcome.next (dispatch_bufferView (x.latchCtrl c))
  | endClean => exact congrArg Host.Outcome.next (finish_bufferView e.pastEvent)
  | lit v =>
    rw [engineExec, litToken, pullBytes_bufferView]
    refine andThen_viewed fun x _ => ?_
    rw [emit_bufferView]
    exact andThen_viewed fun y _ => congrArg Host.Outcome.next (completeToken_bufferView y)
  | ref bytes =>
    obtain ⟨ho, hl, -⟩ := Generics.supported_widths hg
    obtain ⟨-, hoffset⟩ := splitFields_lt ho hl (assemble e.cfg.order bytes)
    have hwin : (applyDecRef g e.cfg bytes).2 + 1 ≤ (g.window : Int) := by
      rw [applyDecRef_default g hd]
      exact Int.ofNat_le.2 hoffset
    exact refToken_bufferView hwin bytes.length e
  | refLsbLenlow l o => exact refToken_bufferView (hlayout hwf o) 2 e
  | refMsbLenlow l o => exact refToken_bufferView (hlayout hwf o) 2 e
  | refLsbLenhigh l o => exact refToken_bufferView (hlayout hwf o) 2 e
  | refMsbLenhigh l o => exact refToken_bufferView (hlayout hwf o) 2 e
  | copy => exact hi.copyToken_bufferView (by simpa [selectedIn] using hsel)
  | endTrunc =>
    rw [engineExec, endTruncToken_eq, truncated_bufferView, raise_bufferView, engineExec, endTruncToken_eq]
    rfl
  | construct | decode | openStream | read | close | status => cases hsel

theorem collectByte_bufferView (b : Byte) (e : Inst) : collectByte g b e.bufferView = viewed (collectByte g b e) := by
  unfold collectByte
  rw [pullBytes_bufferView]
  exact andThen_viewed fun _ _ => rfl

/-- What a fetch gives to run is what the decoder reads. -/
theorem decode_of_fetch_run {i : Instr} (h : fetch g e = .run i) :
    ∃ left, Sys2Proof.decode (decodeCtx g e) (fetchWindow e) = .ok (i, left) := by
  unfold fetch at h
  split at h
  · rename_i left hd
    cases h
    exact ⟨left, hd⟩
  · split at h <;> cases h
  · cases h
  · cases h
  · cases h

theorem fetch_wf {i : Instr} (h : fetch g e = .run i) : i.wf g = true := by
  obtain ⟨left, hd⟩ := decode_of_fetch_run h
  obtain ⟨hwf, -⟩ := decoderNeverLooksAhead _ _ _ _ hd
  exact hwf

theorem Inst.Inv.engineStep_bufferView (hi : e.Inv g) (hg : g.supported = true) (hd : e.cfg.decRef = .default) :
    engineStep g e.bufferView = viewed (engineStep g e) := by
  unfold engineStep
  rw [show fetch g e.bufferView = fetch g e from rfl]
  cases hf : fetch g e with
  | run i => exact hi.engineExec_bufferView hg hd (fetch_wf hf) (fetch_selectedIn hf)
  | collect b => exact collectByte_bufferView b e
  | waits | later | sourceFailed | terminal => rfl

theorem engineRun_bufferView (hg : g.supported = true) (k : Nat) : ∀ {e : Inst}, e.Inv g → e.cfg.decRef = .default →
    engineRun g k e.bufferView = viewed (engineRun g k e) := by
  induction k with
  | zero => intro e _ _; rfl
  | succ k ih =>
    intro e hi hd
    rw [engineRun, engineRun, hi.engineStep_bufferView hg hd]
    refine andThen_viewed fun x hx => ih (engineStep_inv hi (Generics.refBytes_pos hg) hx) ?_
    rw [(engineStep_extends hx).adapter.1, hd]

theorem runCopies_bufferView (hg : g.supported = true) (hi : e.Inv g) (hd : e.cfg.decRef = .default) :
    runCopies g e.bufferView = viewed (runCopies g e) := by
  rw [runCopies_eq_engineRun, runCopies_eq_engineRun]
  exact engineRun_bufferView hg _ hi hd

/-- The loops of DECODE and RunRound, when they stop by what the view shows (R82, R85). -/
theorem drive_bufferView {stop : Inst → Bool} (hstop : ∀ x : Inst, stop x.bufferView = stop x) (hg : g.supported = true)
    (evs : List SrcEvent) : ∀ {e : Inst}, e.Inv g → e.cfg.decRef = .default →
    drive g stop evs e.bufferView = viewed (drive g stop evs e) := by
  have hR := Generics.refBytes_pos hg
  induction evs with
  | nil => intro e hi hd; exact runCopies_bufferView hg hi hd
  | cons ev rest ih =>
    intro e hi hd
    rw [drive, drive, runCopies_bufferView hg hi hd]
    refine andThen_viewed fun x hx => ?_
    have hxi := (runCopies_inv hi hR hx).1
    have hxd : x.cfg.decRef = .default := by rw [(runCopies_extends hx).adapter.1, hd]
    rw [hstop]
    split
    · rfl
    · rw [hxi.engineStep_bufferView hg hxd]
      refine andThen_viewed fun y hy => ih (engineStep_inv hxi hR hy) ?_
      rw [(engineStep_extends hy).adapter.1, hxd]

end

/-! ### A terminal engine has flushed (R38, R67, R93) -/

/-- A STREAM engine that is terminal has no byte pending. -/
def Flushed (e : Inst) : Prop := e.mode = .stream → e.phase.terminal = true → e.pending = 0

theorem flushed_of_live {e : Inst} (h : e.phase.terminal = false) : Flushed e := by
  intro _ ht
  cases h.symm.trans ht

theorem flushIfStream_pending {e : Inst} (hm : e.mode = .stream) : (flushIfStream e).pending = 0 := by
  simp [flushIfStream_stream hm]

theorem flushed_raise (c : Cause) (e : Inst) : Flushed (raise c e) := by
  intro hm _
  exact flushIfStream_pending ((raise_same c e).1.2.1.symm.trans hm)

theorem flushed_finish (e : Inst) : Flushed (finish e) := by
  intro hm _
  exact flushIfStream_pending ((finish_same e).1.2.1.symm.trans hm)

theorem flushed_dispatch (e : Inst) : Flushed (dispatch e) := by
  rw [dispatch_eq]
  apply flushed_of_live
  rcases nextPhase_live e with hp | hp | hp <;> simp [hp, Phase.terminal]

section
variable {g : Generics} {e e1 : Inst}

theorem flushed_refToken {k : Nat} {l o : Int} (h : refToken g k l o e = .next e1) : Flushed e1 := by
  obtain ⟨-, rfl⟩ := refToken_next.1 h
  rcases resolve_raises_or_starts g l o ((e.pulled (k - e.refBuf.length)).setRefBuf []) with ⟨c, hr⟩ | ⟨d, n, hr⟩ <;> rw [hr]
  · exact flushed_raise c _
  · exact flushed_of_live rfl

/-- A token ends its engine by Finish or `raise` only, which flush. -/
theorem flushed_engineExec {i : Instr} (hsel : selectedIn i e.phase = true) (h : engineExec g i e = .next e1) :
    Flushed e1 := by
  cases i with
  | ctrl c =>
    obtain ⟨-, rfl⟩ := ctrlToken_next.1 h
    exact flushed_dispatch _
  | endClean => cases h; exact flushed_finish _
  | lit v =>
    obtain ⟨-, -, rfl⟩ := litToken_next.1 h
    exact flushed_dispatch _
  | ref | refLsbLenlow | refMsbLenlow | refLsbLenhigh | refMsbLenhigh => exact flushed_refToken h
  | copy =>
    have hp : e.phase = .copy := by simpa [selectedIn] using hsel
    apply flushed_of_live
    rcases copyToken_due hp h with ⟨hp1, -⟩ | ⟨-, hp1 | hp1 | hp1⟩ <;> simp [hp1, Phase.terminal]
  | endTrunc =>
    rw [engineExec, endTruncToken_eq] at h
    cases h
    exact flushed_raise _ _
  | construct | decode | openStream | read | close | status => cases hsel

theorem Flushed.engineStep (he : Flushed e) (h : engineStep g e = .next e1) : Flushed e1 := by
  unfold Machine.engineStep at h
  split at h
  · rename_i hf
    exact flushed_engineExec (fetch_selectedIn hf) h
  · obtain ⟨-, rfl⟩ := collectByte_next.1 h
    exact he
  · cases h; exact he
  · cases h; exact he
  · cases h
  · cases h; exact he

end

theorem flushed_stepRelation : StepRelation fun e e1 => Flushed e → Flushed e1 where
  refl _ := id
  trans h h' := h' ∘ h
  engine h he := he.engineStep h
  read h he := by
    obtain ⟨rest, -, rfl⟩ := readNow_takes h
    exact he
  shut _ he := he

/-- Settles O36: DECODE's loop commutes with the view that forgets the adapter, under which the STREAM engine's reset is the
BUFFER engine's; and at the end all of the history is ready, because nothing has been read and the end flushes. -/
theorem streamDecodesAsBuffer : Obligations.StreamDecodesAsBuffer := by
  intro g c input b hg hd hthr hb
  have hview := drive_bufferView (stop := fun x => x.phase.terminal) (fun _ => rfl) hg (bufferSource input)
    (engineReset_inv (g := g) c .stream (bufferSource input) hthr) hd
  obtain ⟨e, he, rfl⟩ := viewed_eq_next.1 (hview.symm.trans hb)
  obtain ⟨-, hterm, -⟩ := decodeRun_spec (Generics.refBytes_pos hg) hthr hb
  obtain ⟨⟨-, hm, -⟩, bs, hhist, hout⟩ := drive_extends _ he
  have hpending : e.pending = 0 := flushed_stepRelation.drive _ he (flushed_of_live rfl) hm hterm
  have hready : e.ready = bs := by simpa [undelivered, hpending, lastBytes_zero] using hout rfl
  exact ⟨e, he, rfl, rfl, rfl, rfl, rfl, rfl, hready.trans hhist.symm, hpending⟩

end Sys2Proof.Machine
end

/-! ## DECODE is the token-level decode function (R82, R83) -/
section

namespace Sys2Proof.Machine

/-! ### The turns of an engine's loop (R82, R85) -/

section
variable {g : Generics} {e x : Inst} {stop : Inst → Bool}

theorem copiesDue_of_ne_copy (hp : e.phase ≠ .copy) : copiesDue e = 0 := by
  by_contra hdue
  exact hp (phase_of_copiesDue hdue)

theorem runCopies_of_ne_copy (hp : e.phase ≠ .copy) : runCopies g e = .next e := by
  rw [runCopies, copiesDue_of_ne_copy hp]
  rfl

/-- The loop runs the copies that are due first, whatever it does next. -/
theorem drive_of_runCopies (hx : runCopies g e = .next x) (hp : x.phase ≠ .copy) (evs : List SrcEvent) :
    drive g stop evs e = drive g stop evs x := by
  cases evs <;> simp [drive, hx, runCopies_of_ne_copy hp]

theorem drive_of_stop (hp : e.phase ≠ .copy) (hs : stop e = true) (evs : List SrcEvent) :
    drive g stop evs e = .next e := by
  cases evs <;> simp [drive, hs, runCopies_of_ne_copy hp]

/-- One turn that takes an engine step. -/
theorem drive_of_engineStep {ev : SrcEvent} (hp : e.phase ≠ .copy) (hs : stop e = false) (hev : ev ≠ .later)
    (hx : engineStep g e = .next x) (rest : List SrcEvent) : drive g stop (ev :: rest) e = drive g stop rest x := by
  simp [drive, hs, hev, hx, runCopies_of_ne_copy hp]

end

/-! ### The bytes of a reference code, one step each (R71) -/

section
variable {g : Generics} {e : Inst} {b : Byte} {rest : List SrcEvent}

/-- A complete code does what the generic REF does, in whichever form it decodes (R54, R71). -/
theorem engineExec_decodeRef_eq_ref (bytes : List Byte) (e : Inst) :
    engineExec g (decodeRef (decodeCtx g e) bytes) e = engineExec g (.ref bytes) e := by
  by_cases hw : g.presetWidths = true
  · cases hd : e.cfg.decRef with
    | supplied f => rw [decodeRef_generic (.inr (by simp [decodeCtx, hd, RefFn.isSupplied]))]
    | default =>
      obtain ⟨ho, hl⟩ := (Bool.and_eq_true _ _).mp hw
      match bytes with
      | [b0, b1] =>
        rw [decodeRef_layout (c := decodeCtx g e) hw (by simp [decodeCtx, hd, RefFn.isSupplied])]
        exact engineExec_decodeLayout_eq_ref (of_decide_eq_true ho) (of_decide_eq_true hl) b0 b1 hd
      | [] | [_] | _ :: _ :: _ :: _ => simp [decodeRef]
  · rw [decodeRef_generic (.inl (by simpa [decodeCtx] using hw))]

/-- The byte that completes a code runs the reference of all its bytes. -/
theorem engineStep_ref_last (hp : e.phase = .ref) (hlen : e.refBuf.length + 1 = g.refBytes) (hs : e.src = .byte b :: rest) :
    engineStep g e = engineExec g (.ref (e.refBuf ++ [b])) e := by
  have hfetch : fetch g e = .run (decodeRef (decodeCtx g e) (e.refBuf ++ [b])) := by
    simp [fetch_ref hp (Nat.lt_of_succ_le hlen.le), hs, hlen]
  simp [engineStep, hfetch, engineExec_decodeRef_eq_ref]

/-- An earlier byte is collected. -/
theorem engineStep_ref_collect (hp : e.phase = .ref) (hlen : e.refBuf.length + 1 < g.refBytes)
    (hs : e.src = .byte b :: rest) (hk : g.countOk (e.consumed + 1) = true) :
    engineStep g e = .next ((e.pulled 1).setRefBuf (e.refBuf ++ [b])) := by
  have hfetch : fetch g e = .collect b := by
    simp [fetch_ref hp (Nat.lt_of_succ_lt hlen), hs, Nat.ne_of_lt hlen]
  simpa [engineStep, hfetch] using collectByte_next.2 ⟨hk, rfl⟩

/-- A code's bytes can be pulled one by one or at once. -/
theorem pulledRef_collected (hlen : e.refBuf.length < g.refBytes) :
    pulledRef g.refBytes ((e.pulled 1).setRefBuf (e.refBuf ++ [b])) = pulledRef g.refBytes e := by
  obtain ⟨k, hk⟩ : ∃ k, g.refBytes - e.refBuf.length = k + 1 := ⟨g.refBytes - e.refBuf.length - 1, by omega⟩
  have hk' : g.refBytes - (e.refBuf.length + 1) = k := by omega
  simp [pulledRef, Inst.pulled, Inst.setRefBuf, hk, hk', Nat.add_assoc, Nat.add_comm 1]

end

/-! ### DECODE's loop within a reference code (R71, R82) -/

/-- DECODE's loop (R82). -/
abbrev runToEnd (g : Generics) (evs : List SrcEvent) (e : Inst) : Res Inst := drive g (fun x => x.phase.terminal) evs e

section
variable {g : Generics}

/-- A step on a byte in the middle of the stream. -/
theorem runToEnd_byte {e x : Inst} {b : Byte} (hp : e.phase ≠ .copy) (ht : e.phase.terminal = false)
    (hx : engineStep g e = .next x) (bs : List Byte) :
    runToEnd g (bufferSource (b :: bs)) e = runToEnd g (bufferSource bs) x :=
  drive_of_engineStep (ev := .byte b) hp ht nofun hx (bufferSource bs)

/-- A step that ends the run, on a byte or on EOS. -/
theorem runToEnd_last {e x : Inst} {ev : SrcEvent} (hp : e.phase ≠ .copy) (ht : e.phase.terminal = false)
    (hev : ev ≠ .later) (hx : engineStep g e = .next x) (hend : x.phase.terminal = true) (evs : List SrcEvent) :
    runToEnd g (ev :: evs) e = .next x :=
  (drive_of_engineStep hp ht hev hx evs).trans
    (drive_of_stop (by intro hc; rw [hc] at hend; cases hend) hend evs)

/-- All bytes of a code: the loop goes on where `Resolve` on the pair that `cfg.decRef` gives leaves the engine (R74). -/
theorem runToEnd_code (more bs : List Byte) : ∀ {b : Byte} {e : Inst}, e.phase = .ref →
    e.refBuf.length + bs.length + 1 = g.refBytes → e.src = bufferSource (b :: bs ++ more) →
    g.countOk (e.consumed + bs.length + 1) = true →
    runToEnd g (bufferSource (b :: bs ++ more)) e = runToEnd g (bufferSource more)
      (resolve g (applyDecRef g e.cfg (e.refBuf ++ b :: bs)).1 (applyDecRef g e.cfg (e.refBuf ++ b :: bs)).2
        (pulledRef g.refBytes e)) := by
  induction bs with
  | nil =>
    intro b e hp hlen hs hk
    have hone : (e.refBuf ++ [b]).length = g.refBytes := by simpa using hlen
    have hpull : g.refBytes - e.refBuf.length = 1 := by rw [List.length_nil] at hlen; omega
    have hstep := engineStep_ref_last hp hlen hs
    rw [engineExec, refGeneric, hone, refToken_eq (hpull.symm ▸ hk)] at hstep
    exact runToEnd_byte (by simp [hp]) (by rw [hp]; rfl) hstep more
  | cons b' bs ih =>
    intro b e hp hlen hs hk
    rw [List.length_cons] at hlen hk
    have hstep := engineStep_ref_collect hp (by omega) hs (g.countOk_of_le (by omega) hk)
    have hrest := ih (b := b') (e := (e.pulled 1).setRefBuf (e.refBuf ++ [b])) hp (by simp; omega)
      (by simp [hs, bufferSource]) (by simpa [Nat.add_assoc, Nat.add_comm 1] using hk)
    rw [pulledRef_collected (by omega)] at hrest
    refine (runToEnd_byte (by simp [hp]) (by rw [hp]; rfl) hstep (b' :: bs ++ more)).trans (hrest.trans ?_)
    simp

/-- Too few bytes for a code: EOS discards them (R71). -/
theorem runToEnd_short_code (bs : List Byte) : ∀ {e : Inst}, e.phase = .ref → e.refBuf.length + bs.length < g.refBytes →
    e.src = bufferSource bs → g.countOk (e.consumed + bs.length) = true →
    ∃ e1, runToEnd g (bufferSource bs) e = .next e1 ∧ e1.hist = e.hist ∧ e1.cause = .unexpectedEof ∧
      e1.consumed = e.consumed + bs.length := by
  induction bs with
  | nil =>
    intro e hp hlen hs _
    have hstep : engineStep g e = .next (raise .unexpectedEof (truncated e)) := by
      simp [engineStep, fetch_ref hp hlen, hs, bufferSource, engineExec, endTruncToken_eq]
    refine ⟨_, runToEnd_last (ev := .eos) (by simp [hp]) (by rw [hp]; rfl) nofun hstep rfl [], ?_⟩
    simp [raise, truncated_of_ref hp, flushIfStream_same]
  | cons b bs ih =>
    intro e hp hlen hs hk
    rw [List.length_cons] at hlen hk
    have hstep := engineStep_ref_collect hp (by omega) hs (g.countOk_of_le (by omega) hk)
    obtain ⟨e1, hrun, hhist, hcause, hcons⟩ := ih (e := (e.pulled 1).setRefBuf (e.refBuf ++ [b])) hp (by simp; omega)
      (by simp [hs, bufferSource]) (by simpa [Nat.add_assoc, Nat.add_comm 1] using hk)
    refine ⟨e1, (runToEnd_byte (by simp [hp]) (by rw [hp]; rfl) hstep bs).trans hrun, hhist, hcause, ?_⟩
    simp [hcons, Nat.add_assoc, Nat.add_comm 1]

end

/-! ### The token-level decode function from within a group (R83) -/

/-- R83's run from the point where a group has `k` tokens left. -/
def decodeFrom (g : Generics) (c : Cfg) (fuel : Nat) (ctl : Byte) (k : Nat) (h rest : List Byte) : DecodeEnd :=
  match groupTokens g c ctl k h rest with
  | .error done => done
  | .ok (h1, rest1) => decodeGroups g c fuel h1 rest1

section
variable {g : Generics} {c : Cfg} {fuel : Nat} {ctl : Byte} {k : Nat} {h rest : List Byte}

theorem decodeGroups_cons (g : Generics) (c : Cfg) (fuel : Nat) (ctl : Byte) (h rest : List Byte) :
    decodeGroups g c (fuel + 1) h (ctl :: rest) = decodeFrom g c fuel ctl 8 h rest := rfl

theorem decodeFrom_literal (hl : applyIsLit c.isLit ctl (7 - k) = true) :
    decodeFrom g c fuel ctl (k + 1) h rest = match rest with
      | [] => ⟨h, .unexpectedEof, []⟩
      | b :: more => decodeFrom g c fuel ctl k (h ++ [b]) more := by
  cases rest <;> simp [decodeFrom, groupTokens, hl]

theorem decodeFrom_short (hl : applyIsLit c.isLit ctl (7 - k) = false) (hlen : rest.length < g.refBytes) :
    decodeFrom g c fuel ctl (k + 1) h rest = ⟨h, .unexpectedEof, []⟩ := by
  simp [decodeFrom, groupTokens, hl, hlen]

theorem groupTokens_reference {code more : List Byte} {l o : Int} (hl : applyIsLit c.isLit ctl (7 - k) = false)
    (hcode : code.length = g.refBytes) (hf : applyDecRef g c code = (l, o)) :
    groupTokens g c ctl (k + 1) h (code ++ more) =
      if l < 0 then .error ⟨h, .chunkLength, more⟩
      else if o < 0 ∨ (h.length : Int) < o + 1 then .error ⟨h, .offset, more⟩
      else groupTokens g c ctl k (copyLoop (l + (c.threshold : Int)).toNat h ((h.length : Int) - 1 - o).toNat) more := by
  have hlong : ¬ (code ++ more).length < g.refBytes := by simp [hcode]
  have htake : (code ++ more).take g.refBytes = code := by rw [← hcode]; exact List.take_left
  have hdrop : (code ++ more).drop g.refBytes = more := by rw [← hcode]; exact List.drop_left
  simp only [groupTokens, hl, Bool.false_eq_true, if_false, hlong, htake, hdrop, hf]

theorem decodeFrom_reference {code more : List Byte} {l o : Int} (hl : applyIsLit c.isLit ctl (7 - k) = false)
    (hcode : code.length = g.refBytes) (hf : applyDecRef g c code = (l, o)) :
    decodeFrom g c fuel ctl (k + 1) h (code ++ more) =
      if l < 0 then ⟨h, .chunkLength, more⟩
      else if o < 0 ∨ (h.length : Int) < o + 1 then ⟨h, .offset, more⟩
      else decodeFrom g c fuel ctl k (copyLoop (l + (c.threshold : Int)).toNat h ((h.length : Int) - 1 - o).toNat) more := by
  rw [decodeFrom, groupTokens_reference hl hcode hf]
  by_cases hneg : l < 0
  · simp only [if_pos hneg]
  · by_cases hoff : o < 0 ∨ (h.length : Int) < o + 1
    · simp only [if_neg hneg, if_pos hoff]
    · simp only [if_neg hneg, if_neg hoff, decodeFrom]

/-- A list with the bytes of a code starts with one. -/
theorem exists_code (hR : 1 ≤ g.refBytes) (hlen : g.refBytes ≤ rest.length) :
    ∃ b bs more, rest = b :: bs ++ more ∧ bs.length + 1 = g.refBytes := by
  obtain _ | ⟨b, tail⟩ := rest
  · exact absurd (hR.trans hlen) (by simp)
  · refine ⟨b, tail.take (g.refBytes - 1), tail.drop (g.refBytes - 1), by simp, ?_⟩
    rw [List.length_cons] at hlen
    simp only [List.length_take]
    omega

theorem copyLoop_length_le (n : Nat) : ∀ (h : List Byte) (start : Nat), h.length ≤ (copyLoop n h start).length := by
  induction n with
  | zero => intro h start; exact le_rfl
  | succ n ih =>
    intro h start
    rw [copyLoop]
    split
    · rename_i b _
      exact (by simp : h.length ≤ (h ++ [b]).length).trans (ih _ _)
    · exact le_rfl

/-- The run `d` goes on from the history `h` and the input `rest`: it takes back no output and no input. -/
def GoesOn (h rest : List Byte) (d : DecodeEnd) : Prop := h.length ≤ d.out.length ∧ d.rest.length ≤ rest.length

theorem GoesOn.of_later {h h1 rest rest1 : List Byte} {d : DecodeEnd} (hd : GoesOn h1 rest1 d) (hh : h.length ≤ h1.length)
    (hr : rest1.length ≤ rest.length) : GoesOn h rest d := ⟨hh.trans hd.1, hd.2.trans hr⟩

theorem decodeFrom_goesOn (hR : 1 ≤ g.refBytes) (hnext : ∀ h rest, GoesOn h rest (decodeGroups g c fuel h rest))
    (k : Nat) : ∀ (h rest : List Byte), GoesOn h rest (decodeFrom g c fuel ctl k h rest) := by
  induction k with
  | zero => exact hnext
  | succ k ih =>
    intro h rest
    cases hl : applyIsLit c.isLit ctl (7 - k) with
    | true =>
      rw [decodeFrom_literal hl]
      cases rest with
      | nil => exact ⟨le_rfl, le_rfl⟩
      | cons b more => exact (ih (h ++ [b]) more).of_later (by simp) (by simp)
    | false =>
      by_cases hlen : rest.length < g.refBytes
      · rw [decodeFrom_short hl hlen]
        exact ⟨le_rfl, Nat.zero_le _⟩
      · obtain ⟨b, bs, more, rfl, hcode⟩ := exists_code hR (Nat.le_of_not_lt hlen)
        have hmore : more.length ≤ (b :: bs ++ more).length := by simp only [List.length_append]; omega
        obtain ⟨l, o, hf⟩ : ∃ l o, applyDecRef g c (b :: bs) = (l, o) := ⟨_, _, rfl⟩
        rw [decodeFrom_reference hl (by simpa using hcode) hf]
        split
        · exact ⟨le_rfl, hmore⟩
        · split
          · exact ⟨le_rfl, hmore⟩
          · exact (ih _ more).of_later (copyLoop_length_le _ _ _) hmore

theorem decodeGroups_goesOn (hR : 1 ≤ g.refBytes) (c : Cfg) (fuel : Nat) :
    ∀ h rest, GoesOn h rest (decodeGroups g c fuel h rest) := by
  induction fuel with
  | zero => exact fun h rest => ⟨le_rfl, le_rfl⟩
  | succ fuel ih =>
    intro h rest
    cases rest with
    | nil => exact ⟨le_rfl, le_rfl⟩
    | cons ctl rest =>
      rw [decodeGroups_cons]
      exact (decodeFrom_goesOn hR ih 8 h rest).of_later le_rfl (by simp)

end

/-! ### The engine follows the function -/

/-- A BUFFER engine between two tokens of a run on `total` bytes, with history `h` and the bytes `rest` still to come. -/
structure Decoding (g : Generics) (c : Cfg) (total : Nat) (h rest : List Byte) (e : Inst) : Prop where
  inv : e.Inv g
  cfg : e.cfg = c
  mode : e.mode = .buffer
  refBuf : e.refBuf = []
  hist : e.hist = h
  src : e.src = bufferSource rest
  consumed : e.consumed + rest.length = total

/-- The engine is where Dispatch leaves it in a group under `ctl` with `k` tokens left (R66). -/
structure InGroup (ctl : Byte) (k : Nat) (e : Inst) : Prop where
  phase : e.phase = nextPhase e
  ctrl : e.ctrl = .holds ctl
  sub : e.sub + k = 8

/-- DECODE's loop ends as the run `d` of R83 does. -/
def EndsAs (g : Generics) (total : Nat) (d : DecodeEnd) (rest : List Byte) (e : Inst) : Prop :=
  ∃ e1, runToEnd g (bufferSource rest) e = .next e1 ∧ e1.hist = d.out ∧ e1.cause = d.status ∧
    e1.consumed = total - d.rest.length

theorem EndsAs.of_eq {g : Generics} {total : Nat} {d : DecodeEnd} {rest rest1 : List Byte} {e e1 : Inst}
    (hd : EndsAs g total d rest1 e1) (h : runToEnd g (bufferSource rest) e = runToEnd g (bufferSource rest1) e1) :
    EndsAs g total d rest e := by
  obtain ⟨e2, hrun, hend⟩ := hd
  exact ⟨e2, h.trans hrun, hend⟩

namespace InGroup
variable {ctl : Byte} {k : Nat} {e : Inst}

theorem phase_zero (h : InGroup ctl 0 e) : e.phase = .ctrl := by
  rw [h.phase, nextPhase, if_pos (show e.sub = 8 from h.sub)]

theorem phase_succ (h : InGroup ctl (k + 1) e) :
    e.phase = if applyIsLit e.cfg.isLit ctl (7 - k) then .lit else .ref := by
  have hs := h.sub
  have hsub : e.sub = 7 - k := by omega
  rw [h.phase, nextPhase, if_neg (by omega), isLiteralNow, ctrlValue, h.ctrl, hsub]

/-- A completed token leaves one less to come (R66). -/
theorem completeToken {x : Inst} (hc : x.ctrl = .holds ctl) (hs : x.sub + (k + 1) = 8) : InGroup ctl k (completeToken x) := by
  rw [completeToken_eq]
  exact ⟨rfl, hc, by simp; omega⟩

end InGroup

theorem nextPhase_congr {e e1 : Inst} (hcfg : e1.cfg = e.cfg) (hsub : e1.sub = e.sub) (hctrl : e1.ctrl = e.ctrl)
    (hcons : e1.consumed = e.consumed) : nextPhase e1 = nextPhase e := by
  unfold nextPhase isLiteralNow ctrlValue
  rw [hcfg, hsub, hctrl, hcons]

/-- What the copies of a reference leave, and where they end (R66, R75). -/
theorem runCopies_same {g : Generics} {e e1 : Inst} (hp : e.phase = .copy) (h : runCopies g e = .next e1) :
    e1.ctrl = e.ctrl ∧ e1.refBuf = e.refBuf ∧ e1.consumed = e.consumed ∧
      (e1.phase ≠ .copy → e1.phase = nextPhase e1) := by
  refine runCopies_keeps (P := fun x => x.ctrl = e.ctrl ∧ x.refBuf = e.refBuf ∧ x.consumed = e.consumed ∧
    (x.phase ≠ .copy → x.phase = nextPhase x)) ?_ ⟨rfl, rfl, rfl, fun hne => absurd hp hne⟩ h
  rintro x y ⟨hc, hr, hk, hx⟩ hy
  obtain ⟨b, -, -, rfl⟩ := copyToken_next.1 hy
  obtain ⟨hcfg, -, hphase, hsub, hctrl, hbuf, -, -, hcons, -⟩ := emitted_same g b x
  rcases copyAdvance_cases (emitted g b x) with ha | ha <;> rw [ha]
  · refine ⟨hctrl.trans hc, hbuf.trans hr, hcons.trans hk, fun hne => ?_⟩
    have hsame := nextPhase_congr (e1 := (emitted g b x).setCopyRem ((emitted g b x).copyRem - 1)) hcfg hsub hctrl hcons
    exact hphase.trans ((hx fun hp => hne (hphase.trans hp)).trans hsame.symm)
  · rw [completeToken_eq]
    exact ⟨hctrl.trans hc, hbuf.trans hr, hcons.trans hk, fun _ => rfl⟩

section
variable {g : Generics} {c : Cfg} {total : Nat} {ctl : Byte} {k : Nat} {h rest : List Byte} {e : Inst}

/-- A literal and the byte it emits (R70). -/
theorem Decoding.literal {b : Byte} (hR : 1 ≤ g.refBytes) (hd : Decoding g c total h (b :: rest) e)
    (hgr : InGroup ctl (k + 1) e) (hp : e.phase = .lit) (hk : g.countOk (e.consumed + 1) = true) (hout : g.countOk (h.length + 1) = true) :
    ∃ e1, engineStep g e = .next e1 ∧ Decoding g c total (h ++ [b]) rest e1 ∧ InGroup ctl k e1 := by
  obtain ⟨hi, hcfg, hmode, href, rfl, hsrc, hcons⟩ := hd
  have hstep : engineStep g e = .next (completeToken (emitted g b (e.pulled 1))) := by
    rw [engineStep_lit_byte hp hsrc]
    exact litToken_next.2 ⟨hk, by simpa [hi.count] using hout, rfl⟩
  refine ⟨_, hstep, ⟨engineStep_inv hi hR hstep, ?_, ?_, ?_, ?_, ?_, ?_⟩, .completeToken ?_ ?_⟩
  · simpa [completeToken_eq, emitted_same] using hcfg
  · simpa [completeToken_eq, emitted_same] using hmode
  · simpa [completeToken_eq, emitted_same] using href
  · simp [completeToken_eq]
  · simp [hsrc, bufferSource]
  · simp [completeToken_eq, emitted_same, ← hcons, Nat.add_assoc, Nat.add_comm 1]
  · simpa [emitted_same] using hgr.ctrl
  · simpa [emitted_same] using hgr.sub

section Reference
variable {b : Byte} {bs more : List Byte} {l o : Int} (hd : Decoding g c total h (b :: bs ++ more) e) (hp : e.phase = .ref)
  (hcode : bs.length + 1 = g.refBytes) (hf : applyDecRef g c (b :: bs) = (l, o))
  (hk : g.countOk (e.consumed + g.refBytes) = true)
include hd hp hcode hf hk

/-- A whole code leaves the engine at Resolve (R71, R74). -/
theorem Decoding.runToEnd_resolve : runToEnd g (bufferSource (b :: bs ++ more)) e =
    runToEnd g (bufferSource more) (resolve g l o (pulledRef g.refBytes e)) := by
  have hrun := runToEnd_code more bs hp (by rw [hd.refBuf, List.length_nil, Nat.zero_add, hcode]) hd.src
    (by rwa [Nat.add_assoc, hcode])
  rwa [hd.cfg, hd.refBuf, List.nil_append, hf] at hrun

/-- A reference that Resolve rejects ends the run behind its code (R74, R93). -/
theorem Decoding.rejected {cause : Cause}
    (hrej : resolve g l o (pulledRef g.refBytes e) = raise cause (pulledRef g.refBytes e)) :
    EndsAs g total ⟨h, cause, more⟩ (b :: bs ++ more) e := by
  have hrun := hd.runToEnd_resolve hp hcode hf hk
  rw [hrej] at hrun
  refine EndsAs.of_eq ⟨_, drive_of_stop (e := raise cause _) nofun rfl _, ?_, rfl, ?_⟩ hrun
  · simpa [raise, flushIfStream_same, pulledRef] using hd.hist
  · have hcons := hd.consumed
    simp only [List.length_append, List.length_cons, hcode] at hcons
    simp [raise, flushIfStream_same, pulledRef, hd.refBuf]
    omega

/-- A valid reference appends what the copy loop appends (R74 to R76). -/
theorem Decoding.reference (hgr : InGroup ctl (k + 1) e) (hl : 0 ≤ l) (ho : 0 ≤ o) (hin : o + 1 ≤ (h.length : Int))
    (hout : g.countOk (h.length + (l + (c.threshold : Int)).toNat) = true) :
    ∃ e1, runToEnd g (bufferSource (b :: bs ++ more)) e = runToEnd g (bufferSource more) e1 ∧
      Decoding g c total (copyLoop (l + (c.threshold : Int)).toNat h ((h.length : Int) - 1 - o).toNat) more e1 ∧
      InGroup ctl k e1 := by
  have hrun := hd.runToEnd_resolve hp hcode hf hk
  obtain ⟨hi, rfl, hmode, href, rfl, hsrc, hcons⟩ := hd
  rw [← hi.count] at hin hout ⊢
  have hv : ValidReference g e l o := ⟨hl, ho, by omega, fun hs => by cases hmode.symm.trans hs⟩
  have hpull : g.countOk (e.consumed + (g.refBytes - e.refBuf.length)) = true := by rw [href]; exact hk
  have hstarts := (refToken_eq (l := l) (o := o) hpull).trans (congrArg _ (resolve_of_valid (hv.pulledRef _)))
  rw [resolve_of_valid (hv.pulledRef _)] at hrun
  obtain ⟨hdue, e1, hcopies, hhist, hsub, hend, -⟩ := hi.reference_runs_copyLoop hp hv hpull hout
  rw [← hdue] at hcopies
  obtain ⟨hinv, -⟩ := runCopies_inv (refToken_inv hi hp hstarts) (Nat.one_le_of_lt (hi.partialRef hp)) hcopies
  obtain ⟨hctrl, hbuf, hcons1, hphase⟩ := runCopies_same rfl hcopies
  obtain ⟨hcfg, hm, -⟩ := (runCopies_extends hcopies).adapter
  have hs := hgr.sub
  refine ⟨e1, hrun.trans (drive_of_runCopies hcopies hend _), ⟨hinv, hcfg, hm.trans hmode, hbuf, hhist, ?_, ?_⟩,
    ⟨hphase hend, hctrl.trans hgr.ctrl, by omega⟩⟩
  · rw [runCopies_src hcopies]
    simp [copyStarted, pulledRef, href, hsrc, ← hcode, bufferSource]
  · rw [hcons1, ← hcons]
    simp [copyStarted, pulledRef, href, ← hcode]
    omega

end Reference

/-- EOS ends the run inside a group, at a literal (R70). -/
theorem Decoding.truncated_literal (hd : Decoding g c total h [] e) (hp : e.phase = .lit) :
    EndsAs g total ⟨h, .unexpectedEof, []⟩ [] e := by
  obtain ⟨-, -, -, -, rfl, hsrc, hcons⟩ := hd
  have hstep : engineStep g e = .next (raise .unexpectedEof (truncated e)) := by
    simp [engineStep, fetch_lit hp, hsrc, bufferSource, engineExec, endTruncToken_eq]
  refine ⟨_, runToEnd_last (ev := .eos) (by simp [hp]) (by rw [hp]; rfl) nofun hstep rfl [], ?_, rfl, ?_⟩
  · simp [raise, flushIfStream_same, truncated_of_ne_ref, hp]
  · simpa [raise, flushIfStream_same, truncated_of_ne_ref, hp] using hcons

/-- EOS ends the run inside a group, at a reference whose code is not complete (R71). -/
theorem Decoding.truncated_reference (hd : Decoding g c total h rest e) (hp : e.phase = .ref)
    (hlen : rest.length < g.refBytes) (hk : g.countOk total = true) :
    EndsAs g total ⟨h, .unexpectedEof, []⟩ rest e := by
  obtain ⟨e1, hrun, hhist, hcause, hcons⟩ := runToEnd_short_code rest hp (by simpa [hd.refBuf] using hlen) hd.src
    (hd.consumed.symm ▸ hk)
  exact ⟨e1, hrun, hhist.trans hd.hist, hcause, hcons.trans hd.consumed⟩

/-- EOS ends the run at a group boundary (R65). -/
theorem Decoding.clean (hd : Decoding g c total h [] e) (hp : e.phase = .ctrl) : EndsAs g total ⟨h, .none, []⟩ [] e := by
  obtain ⟨hi, -, -, -, rfl, hsrc, hcons⟩ := hd
  have hstep : engineStep g e = .next (finish e.pastEvent) := by
    simp [engineStep, fetch_ctrl hp, hsrc, bufferSource, engineExec, endCleanToken]
  obtain ⟨-, hhist, -, -, -, -, -, -, -, hcons1, hcause, -⟩ := finish_same e.pastEvent
  exact ⟨_, runToEnd_last (ev := .eos) (by simp [hp]) (by rw [hp]; rfl) nofun hstep rfl [], hhist,
    hcause.trans (hi.causeIff.2 (by simp [hp])), hcons1.trans hcons⟩

/-- A control byte opens a group of eight tokens (R65, R66). -/
theorem Decoding.control (hR : 1 ≤ g.refBytes) (hd : Decoding g c total h (ctl :: rest) e) (hp : e.phase = .ctrl)
    (hk : g.countOk (e.consumed + 1) = true) :
    ∃ e1, engineStep g e = .next e1 ∧ Decoding g c total h rest e1 ∧ InGroup ctl 8 e1 := by
  obtain ⟨hi, hcfg, hmode, href, hhist, hsrc, hcons⟩ := hd
  have hstep : engineStep g e = .next (dispatch ((e.pulled 1).latchCtrl ctl)) := by
    rw [engineStep_ctrl_byte hp hsrc]
    exact ctrlToken_next.2 ⟨hk, rfl⟩
  have hinv := engineStep_inv hi hR hstep
  rw [dispatch_eq] at hstep hinv
  refine ⟨_, hstep, ⟨hinv, hcfg, hmode, href, hhist, ?_, ?_⟩, rfl, rfl, rfl⟩
  · simp [hsrc, bufferSource]
  · simp [← hcons, Nat.add_assoc, Nat.add_comm 1]

theorem resolve_negative_length {l : Int} (hl : l < 0) (o : Int) (e : Inst) :
    resolve g l o e = raise .chunkLength e := if_pos hl

theorem resolve_outside {l o : Int} (hl : ¬ l < 0) (ho : o < 0 ∨ (e.outCount : Int) < o + 1) :
    resolve g l o e = raise .offset e := by
  have hinvalid : offsetInvalid g e o = true := by
    by_contra hvalid
    obtain ⟨h0, hin, -⟩ := offsetInvalid_false.1 (Bool.not_eq_true _ ▸ hvalid)
    omega
  rw [resolve, if_neg hl, if_pos hinvalid]

end

/-- From every point at which a group has `k` tokens left, a run of R83 that ends as `d` is the engine's (R83's inner loop). -/
def GroupFollows (g : Generics) (c : Cfg) (total : Nat) (d : DecodeEnd) (fuel : Nat) (ctl : Byte) (k : Nat) : Prop :=
  ∀ h rest e, Decoding g c total h rest e → InGroup ctl k e → decodeFrom g c fuel ctl k h rest = d →
    rest.length < fuel → EndsAs g total d rest e

/-- So is it from every group boundary (R83's outer loop). -/
def BoundaryFollows (g : Generics) (c : Cfg) (total : Nat) (d : DecodeEnd) (fuel : Nat) : Prop :=
  ∀ h rest e, Decoding g c total h rest e → e.phase = .ctrl → decodeGroups g c fuel h rest = d → rest.length < fuel →
    EndsAs g total d rest e

section
variable {g : Generics} {c : Cfg} {total fuel : Nat} {ctl : Byte} {k : Nat} {h rest : List Byte} {e : Inst} {d : DecodeEnd}
  (hR : 1 ≤ g.refBytes) (hout : g.countOk d.out.length = true) (hin : g.countOk (total - d.rest.length) = true)
include hR hout hin

/-- A sub-round whose token is a literal. -/
theorem GroupFollows.literal (ih : GroupFollows g c total d fuel ctl k) (hd : Decoding g c total h rest e)
    (hgr : InGroup ctl (k + 1) e) (hl : applyIsLit c.isLit ctl (7 - k) = true)
    (heq : decodeFrom g c fuel ctl (k + 1) h rest = d) (hfuel : rest.length < fuel) : EndsAs g total d rest e := by
  have hp : e.phase = .lit := by rw [hgr.phase_succ, hd.cfg, hl, if_pos rfl]
  have htotal := hd.consumed
  rw [decodeFrom_literal hl] at heq
  cases rest with
  | nil => exact heq ▸ hd.truncated_literal hp
  | cons b more =>
    dsimp only at heq
    obtain ⟨hgrows, hleft⟩ := heq ▸ decodeFrom_goesOn hR (decodeGroups_goesOn hR c fuel) k (h ++ [b]) more
    rw [List.length_append, List.length_singleton] at hgrows
    rw [List.length_cons] at htotal hfuel
    obtain ⟨e1, hstep, hd1, hgr1⟩ := hd.literal hR hgr hp (g.countOk_of_le (by omega) hin) (g.countOk_of_le hgrows hout)
    exact (ih _ _ _ hd1 hgr1 heq (by omega)).of_eq (runToEnd_byte (by simp [hp]) (by rw [hp]; rfl) hstep more)

/-- A sub-round whose token is a reference: a short code, a pair that Resolve rejects, or a copy. -/
theorem GroupFollows.reference (ih : GroupFollows g c total d fuel ctl k) (hd : Decoding g c total h rest e)
    (hgr : InGroup ctl (k + 1) e) (hl : applyIsLit c.isLit ctl (7 - k) = false)
    (heq : decodeFrom g c fuel ctl (k + 1) h rest = d) (hfuel : rest.length < fuel) : EndsAs g total d rest e := by
  have hp : e.phase = .ref := by rw [hgr.phase_succ, hd.cfg, hl, if_neg Bool.false_ne_true]
  by_cases hlen : rest.length < g.refBytes
  · rw [decodeFrom_short hl hlen] at heq
    subst heq
    exact hd.truncated_reference hp hlen hin
  obtain ⟨b, bs, more, rfl, hcode⟩ := exists_code hR (Nat.le_of_not_lt hlen)
  obtain ⟨l, o, hf⟩ : ∃ l o, applyDecRef g c (b :: bs) = (l, o) := ⟨_, _, rfl⟩
  have htotal := hd.consumed
  rw [List.length_append, List.length_cons, hcode] at htotal hfuel
  have hk (hleft : d.rest.length ≤ more.length) : g.countOk (e.consumed + g.refBytes) = true :=
    g.countOk_of_le (by omega) hin
  rw [decodeFrom_reference (code := b :: bs) hl hcode hf] at heq
  by_cases hneg : l < 0
  · rw [if_pos hneg] at heq
    subst heq
    exact hd.rejected hp hcode hf (hk le_rfl) (resolve_negative_length hneg o _)
  rw [if_neg hneg] at heq
  by_cases hoff : o < 0 ∨ (h.length : Int) < o + 1
  · have hcount : (pulledRef g.refBytes e).outCount = h.length := hd.inv.count.trans (by rw [hd.hist])
    rw [if_pos hoff] at heq
    subst heq
    exact hd.rejected hp hcode hf (hk le_rfl) (resolve_outside hneg (by rwa [hcount]))
  rw [if_neg hoff] at heq
  obtain ⟨hgrows, hleft⟩ := heq ▸ decodeFrom_goesOn hR (decodeGroups_goesOn hR c fuel) k _ more
  obtain ⟨bytes, hloop, hbytes, -⟩ := copyLoop_eq_append (l + (c.threshold : Int)).toNat
    (h := h) (start := ((h.length : Int) - 1 - o).toNat) (dist := (o + 1).toNat) (by omega) (by omega)
  rw [hloop, List.length_append, hbytes] at hgrows
  obtain ⟨e1, hrun, hd1, hgr1⟩ := hd.reference hp hcode hf (hk hleft) hgr (by omega) (by omega) (by omega)
    (g.countOk_of_le hgrows hout)
  exact (ih _ _ _ hd1 hgr1 heq (by omega)).of_eq hrun

/-- One group: the engine's tokens are those of R83's inner loop. -/
theorem groupFollows (hnext : BoundaryFollows g c total d fuel) (ctl : Byte) (k : Nat) :
    GroupFollows g c total d fuel ctl k := by
  induction k with
  | zero => exact fun h rest e hd hgr => hnext h rest e hd hgr.phase_zero
  | succ k ih =>
    intro h rest e hd hgr heq hfuel
    cases hl : applyIsLit c.isLit ctl (7 - k) with
    | true => exact ih.literal hR hout hin hd hgr hl heq hfuel
    | false => exact ih.reference hR hout hin hd hgr hl heq hfuel

/-- The whole run: the engine's groups are those of R83's outer loop. -/
theorem boundaryFollows (fuel : Nat) : BoundaryFollows g c total d fuel := by
  induction fuel with
  | zero => exact fun h rest e _ _ _ hfuel => absurd hfuel (Nat.not_lt_zero _)
  | succ fuel ih =>
    intro h rest e hd hp heq hfuel
    cases rest with
    | nil => exact heq ▸ hd.clean hp
    | cons ctl rest =>
      have htotal := hd.consumed
      rw [decodeGroups_cons] at heq
      obtain ⟨-, hleft⟩ := heq ▸ decodeFrom_goesOn hR (decodeGroups_goesOn hR c fuel) 8 h rest
      rw [List.length_cons] at htotal hfuel
      obtain ⟨e1, hstep, hd1, hgr1⟩ := hd.control hR hp (g.countOk_of_le (by omega) hin)
      exact (groupFollows hR hout hin ih ctl 8 h rest e1 hd1 hgr1 heq (by omega)).of_eq
        (runToEnd_byte (by simp [hp]) (by rw [hp]; rfl) hstep rest)

end

/-- DECODE's engine ends as R83's function says, where its counts are within the bound. -/
theorem decodeRun_eq_decodeFunction {g : Generics} {c : Cfg} {input : List Byte} (hR : 1 ≤ g.refBytes)
    (hthr : g.thresholdMin ≤ c.threshold) (hin : g.countOk (decodeFunction g c input).2.2 = true)
    (hout : g.countOk (decodeFunction g c input).1.length = true) :
    ∃ e, decodeRun g c input = .next e ∧ (e.hist, e.cause, e.consumed) = decodeFunction g c input := by
  have hreset : Decoding g c input.length [] input (engineReset c .buffer (bufferSource input)) :=
    ⟨engineReset_inv c .buffer _ hthr, rfl, rfl, rfl, rfl, rfl, Nat.zero_add _⟩
  obtain ⟨e, hrun, hhist, hcause, hcons⟩ :=
    boundaryFollows hR hout hin (input.length + 1) [] input _ hreset rfl rfl (Nat.lt_succ_self _)
  exact ⟨e, hrun, by rw [hhist, hcause, hcons]; rfl⟩

/-- Settles O29: DECODE's loop follows R83's two loops token by token, by induction on the groups and within a group on its
tokens. -/
theorem decodeIsTheTokenFunction : Obligations.DecodeIsTheTokenFunction := by
  intro s d c input hg hd hthr hin hout
  have hR := Generics.refBytes_pos hg
  obtain ⟨e, hrun, heq⟩ := decodeRun_eq_decodeFunction hR hthr hin hout
  obtain ⟨hi, hterm, hcfg, hm⟩ := decodeRun_spec hR hthr hrun
  refine ⟨e, ?_, heq, hterm, hm, hcfg, hi.count⟩
  simp [exec, execDecode, hd, hrun, decodeResult, State.addInst, State.addResult]

end Sys2Proof.Machine
end

/-! ## A READ whose source answers (R85, R86, R91): every engine step goes through, and EOS ends the rounds -/
section

namespace Sys2Proof

theorem Generics.countOk_of_unbounded {g : Generics} (h : g.countBits = none) (n : Nat) : g.countOk n = true := by
  simp [Generics.countOk, h]

end Sys2Proof

namespace Sys2Proof.Machine

/-! ### Every engine step goes through -/

section
variable {g : Generics} {e : Inst}

/-- A failing source is the only one that a step reports as such (D16). -/
theorem Inst.Inv.src_of_fetch_sourceFailed (hi : e.Inv g) (h : fetch g e = .sourceFailed) :
    ∃ rest, e.src = .failed :: rest := by
  cases hp : e.phase with
  | ctrl => rw [fetch_ctrl hp] at h; split at h <;> simp_all
  | lit => rw [fetch_lit hp] at h; split at h <;> simp_all
  | ref => rw [fetch_ref hp (hi.partialRef hp)] at h; (repeat' split at h) <;> simp_all
  | copy => rw [fetch_copy hp] at h; cases h
  | done | failed => rw [fetch_terminal (by rw [hp]; rfl)] at h; cases h

variable (hu : g.countBits = none)
include hu

/-- A token in a phase that selects it. -/
theorem Inst.Inv.engineExec_next {i : Instr} (hi : e.Inv g) (hsel : selectedIn i e.phase = true) :
    ∃ e1, engineExec g i e = .next e1 := by
  have hk := g.countOk_of_unbounded hu
  cases i with
  | ctrl c => exact ⟨_, ctrlToken_next.2 ⟨hk _, rfl⟩⟩
  | endClean => exact ⟨_, rfl⟩
  | lit v => exact ⟨_, litToken_next.2 ⟨hk _, hk _, rfl⟩⟩
  | ref | refLsbLenlow | refMsbLenlow | refLsbLenhigh | refMsbLenhigh => exact ⟨_, refToken_next.2 ⟨hk _, rfl⟩⟩
  | copy =>
    have hp : e.phase = .copy := by simpa [selectedIn] using hsel
    obtain ⟨-, -, d, hd, -⟩ := hi.inCopy hp
    obtain ⟨-, -, b, -, hcopy⟩ := hi.copyToken_eq hp hd (hk _)
    exact ⟨_, hcopy⟩
  | endTrunc => exact ⟨_, endTruncToken_eq e⟩
  | construct | decode | openStream | read | close | status => cases hsel

theorem Inst.Inv.engineStep_next (hi : e.Inv g) (hs : ∀ rest, e.src ≠ .failed :: rest) :
    ∃ e1, engineStep g e = .next e1 := by
  unfold engineStep
  cases hf : fetch g e with
  | run i => exact hi.engineExec_next hu (fetch_selectedIn hf)
  | collect b => exact ⟨_, collectByte_next.2 ⟨g.countOk_of_unbounded hu _, rfl⟩⟩
  | waits | later | terminal => exact ⟨_, rfl⟩
  | sourceFailed =>
    obtain ⟨rest, hfailed⟩ := hi.src_of_fetch_sourceFailed hf
    exact absurd hfailed (hs rest)

theorem Inst.Inv.runCopies_next (hR : 1 ≤ g.refBytes) (hi : e.Inv g) : ∃ e1, runCopies g e = .next e1 := by
  suffices H : ∀ n (x : Inst), x.Inv g → copiesDue x = n → ∃ y, copySteps g n x = .next y from H _ e hi rfl
  intro n
  induction n with
  | zero => intro x _ _; exact ⟨x, rfl⟩
  | succ n ih =>
    intro x hx hdue
    have hp : x.phase = .copy := phase_of_copiesDue (by omega)
    obtain ⟨y, hy⟩ := hx.engineExec_next hu (i := .copy) (by rw [hp]; rfl)
    obtain ⟨z, hz⟩ := ih y (copyToken_inv hx hp hR hy) (Nat.succ.inj ((copiesDue_of_copyToken hp hy).symm.trans hdue))
    exact ⟨z, by rw [copySteps, show copyToken g x = .next y from hy, andThen_of_next, hz]⟩

/-- A turn of the loop on an answer: the stopping test holds behind the copies that are due, or an engine step follows them. -/
theorem Inst.Inv.drive_turn {stop : Inst → Bool} {ev : SrcEvent} {rest : List SrcEvent} (hi : e.Inv g) (hR : 1 ≤ g.refBytes)
    (hs : e.src = ev :: rest) (hlater : ev ≠ .later) (hfailed : ev ≠ .failed) :
    (∃ x, stop x = true ∧ drive g stop (ev :: rest) e = .next x) ∨
    ∃ x y, x.Inv g ∧ x.phase ≠ .copy ∧ x.src = ev :: rest ∧ stop x = false ∧ engineStep g x = .next y ∧
      drive g stop (ev :: rest) e = drive g stop rest y := by
  obtain ⟨x, hx⟩ := hi.runCopies_next hu hR
  obtain ⟨hxi, hxc⟩ := runCopies_inv hi hR hx
  have hxs := (runCopies_src hx).trans hs
  rw [drive_of_runCopies hx hxc]
  cases hgo : stop x with
  | true => exact .inl ⟨x, hgo, drive_of_stop hxc hgo _⟩
  | false =>
    obtain ⟨y, hy⟩ := hxi.engineStep_next hu (by simp [hxs, hfailed])
    exact .inr ⟨x, y, hxi, hxc, hxs, hgo, hy, drive_of_engineStep hxc hgo hlater hy rest⟩

/-- The loop of DECODE or RunRound over a source that answers bytes and then EOS comes to its stopping test (R82, R85). -/
theorem drive_answering {stop : Inst → Bool} (hR : 1 ≤ g.refBytes)
    (hstop : ∀ x : Inst, x.phase.terminal = true → stop x = true) (more : List SrcEvent) (bytes : List Byte) :
    ∀ {e : Inst}, e.Inv g → e.src = bytes.map .byte ++ .eos :: more →
      ∃ e1, drive g stop (bytes.map .byte ++ .eos :: more) e = .next e1 ∧ stop e1 = true := by
  induction bytes with
  | nil =>
    intro e hi hs
    obtain ⟨x, hend, hrun⟩ | ⟨x, y, hxi, hxc, hxs, -, hy, hrun⟩ := hi.drive_turn hu (stop := stop) hR hs nofun nofun
    · exact ⟨x, hrun, hend⟩
    · have hyt := engineStep_eos hxi hxc hxs hy
      have hyc : y.phase ≠ .copy := by intro hp; rw [hp] at hyt; cases hyt
      exact ⟨y, hrun.trans (drive_of_stop hyc (hstop y hyt) more), hstop y hyt⟩
  | cons b bs ih =>
    intro e hi hs
    obtain ⟨x, hend, hrun⟩ | ⟨x, y, hxi, hxc, hxs, hgo, hy, hrun⟩ := hi.drive_turn hu (stop := stop) hR hs nofun nofun
    · exact ⟨x, hrun, hend⟩
    · have hlive : x.phase.terminal = false := by
        by_contra ht
        cases hgo.symm.trans (hstop x (by simpa using ht))
      obtain ⟨e1, hrest, hend⟩ := ih (engineStep_inv hxi hR hy) (engineStep_byte hxi hxc hlive hxs hy)
      exact ⟨e1, hrun.trans hrest, hend⟩

end

/-! ### READ -/

theorem readStop_of_terminal {e : Inst} (h : e.phase.terminal = true) : readStop e = true := by
  simp [readStop, h, Phase.boundary_of_terminal h]

/-- What a READ of `n ≥ 1` bytes returns: bytes, END, or the stored cause (R86). -/
theorem readNow_answer {n : Nat} {e e1 : Inst} {bs : List Byte} {k : ReadKind} (hn : n ≠ 0)
    (h : readNow n e = some (bs, k, e1)) : e1.phase = e.phase ∧ bs.length ≤ n ∧
      ((bs ≠ [] ∧ k = .data) ∨ (bs = [] ∧ e1.ready = [] ∧ e1.phase = .done ∧ k = .endOfStream) ∨
       (bs = [] ∧ e1.ready = [] ∧ e1.phase = .failed ∧ k = .error e1.cause)) := by
  rcases readNow_some.1 h with ⟨hr, rfl, rfl, rfl⟩ | ⟨hr, hp, rfl, rfl, rfl⟩ | ⟨hr, hp, rfl, rfl, rfl⟩
  · exact ⟨rfl, List.length_take_le _ _, .inl ⟨by simp [hn, hr], rfl⟩⟩
  · exact ⟨rfl, Nat.zero_le _, .inr (.inl ⟨rfl, hr, hp, rfl⟩)⟩
  · exact ⟨rfl, Nat.zero_le _, .inr (.inr ⟨rfl, hr, hp, rfl⟩)⟩

/-- READ on an open adapter, up to the two ways it can go (R86). -/
theorem exec_read_eq_readOpen {s : State} {i n : Nat} {e : Inst} (hop : s.op = none) (he : s.insts[i]? = some e)
    (hm : e.mode = .stream) (hc : e.closed = false) (hn : n ≠ 0) : exec (.read i n) s = readOpen i n e s := by
  simp [exec, execRead, hop, he, hm, hc, hn]

/-- Settles O34: the answering source brings the rounds to READ's stopping test, where `settle` returns. -/
theorem readReturnsWhenTheSourceAnswers : Obligations.ReadReturnsWhenTheSourceAnswers := by
  rintro s i n e h hop hu he hm hc hn ⟨bytes, more, hsrc⟩
  obtain ⟨hi, hR⟩ := h.engine he
  obtain ⟨hlt, -⟩ := List.getElem?_eq_some_iff.1 he
  rw [exec_read_eq_readOpen hop he hm hc hn]
  cases hr : readNow n e with
  | some p =>
    obtain ⟨bs, k, e1⟩ := p
    obtain ⟨hp, hlen, hkind⟩ := readNow_answer hn hr
    have hb : e.phase.boundary = true := h.between i e he (by simp [hop])
    exact ⟨(s.setInst i e1).addResult (.read i bs k), e1, bs, k, by simp only [readOpen, hr], hop,
      List.getElem?_set_self hlt, rfl, hp ▸ hb, hlen, hkind⟩
  | none =>
    obtain ⟨x, hx, hstop⟩ := drive_answering hu hR (fun _ => readStop_of_terminal) more bytes hi hsrc
    rcases settle_running (s := (s.setInst i x).setOp (some ⟨i, n⟩)) rfl (List.getElem?_set_self hlt) with
      ⟨hgo, -⟩ | ⟨-, bs, k, e1, hr1, hset⟩
    · cases hstop.symm.trans hgo
    · obtain ⟨hp, hlen, hkind⟩ := readNow_answer hn hr1
      have hb : x.phase.boundary = true := ((readStop_iff n).1 hstop).1
      have hread : readOpen i n e s = .next (settle ((s.setInst i x).setOp (some ⟨i, n⟩))) := by
        simp only [readOpen, hr, hsrc, hx, andThen_of_next]
      rw [hset] at hread
      exact ⟨_, e1, bs, k, hread, rfl, by simp [hlt], rfl, hp ▸ hb, hlen, hkind⟩

end Sys2Proof.Machine
end

/-! ## A READ gone on with step by step (R81, R85, R86, log 8) -/
section

namespace Sys2Proof.Machine

/-! ### Rounds as engine steps -/

/-- One engine step within READ's rounds: the READ cannot return before it (R85, R86). -/
def RoundStep (g : Generics) (e e1 : Inst) : Prop := readStop e = false ∧ engineStep g e = .next e1

theorem readStop_of_copy {e : Inst} (hp : e.phase = .copy) : readStop e = false := by
  simp [readStop, hp, Phase.boundary]

/-- The copies that are due are steps within a round (R75). -/
theorem runCopies_roundSteps {g : Generics} {e e1 : Inst} (h : runCopies g e = .next e1) :
    Relation.ReflTransGen (RoundStep g) e e1 := by
  suffices H : ∀ n (x : Inst), copiesDue x = n → copySteps g n x = .next e1 →
      Relation.ReflTransGen (RoundStep g) x e1 from H _ e rfl h
  intro n
  induction n with
  | zero => intro x _ h; cases h; exact .refl
  | succ n ih =>
    intro x hdue h
    obtain ⟨y, hy, h⟩ := andThen_next.1 h
    have hp : x.phase = .copy := phase_of_copiesDue (by omega)
    exact .head ⟨readStop_of_copy hp, (engineStep_copy hp).trans hy⟩
      (ih y (Nat.succ.inj ((copiesDue_of_copyToken hp hy).symm.trans hdue)) h)

/-- READ's rounds are engine steps before any of which the READ could return (R85). -/
theorem drive_roundSteps {g : Generics} (evs : List SrcEvent) : ∀ {e e1 : Inst}, drive g readStop evs e = .next e1 →
    Relation.ReflTransGen (RoundStep g) e e1 := by
  induction evs with
  | nil => intro e e1 h; exact runCopies_roundSteps h
  | cons ev rest ih =>
    intro e e1 h
    obtain ⟨x, hx, ⟨-, rfl⟩ | ⟨hgo, -, y, hy, h⟩⟩ := drive_cons_next.1 h
    · exact runCopies_roundSteps hx
    · exact (runCopies_roundSteps hx).trans (.head ⟨hgo, hy⟩ (ih h))

/-! ### The same steps on the machine -/

/-- A READ that cannot return stays under way. -/
theorem RunsOn.settle_eq_self {s : State} {k : Nat} {e : Inst} (hr : RunsOn s k e) (h : readStop e = false) : settle s = s := by
  obtain ⟨⟨n, hop⟩, he⟩ := hr
  rcases settle_running hop he with ⟨-, hset⟩ | ⟨hgo, -⟩
  · exact hset
  · cases h.symm.trans hgo

/-- A step of the READ's engine is a step of the machine, after which the READ returns if it can (R81, R86). -/
theorem RunsOn.step_of_roundStep {s : State} {k : Nat} {e e1 : Inst} (hr : RunsOn s k e) (h : RoundStep s.gen e e1) :
    step s = .next (settle (s.setInst k e1)) := by
  obtain ⟨hgo, h⟩ := h
  obtain ⟨n, hstep⟩ := hr.step_eq_goOn
  have hstays : ∀ {x : Inst}, readStop x = readStop e → settle (s.setInst k x) = s.setInst k x := fun hx =>
    (hr.setInst _).settle_eq_self (hx.trans hgo)
  rw [hstep, goOn]
  unfold engineStep at h
  cases hf : fetch s.gen e with
  | run i =>
    simp only [hf] at h ⊢
    rw [hr.exec_eq_setInst (fetch_isToken hf) (fetch_selectedIn hf) h, andThen_of_next]
  | collect b =>
    simp only [hf] at h ⊢
    obtain ⟨-, hx⟩ := collectByte_next.1 h
    rw [h, andThen_of_next, hstays (by rw [hx]; rfl)]
  | waits =>
    simp only [hf] at h ⊢
    cases h
    rw [hstays rfl, setInst_eq_self hr.2]
  | later =>
    simp only [hf] at h ⊢
    cases h
    rw [hstays (x := e.pastEvent) rfl]
  | sourceFailed => simp only [hf] at h; cases h
  | terminal =>
    simp only [hf] at h ⊢
    cases h
    rw [setInst_eq_self hr.2]

/-- `m` steps of the machine, at the model's own types. -/
def runSteps (m : Nat) (s : State) : Res State := Sys2Proof.core.run m s

@[simp] theorem runSteps_zero (s : State) : runSteps 0 s = .next s := rfl

/-- A run is its first step and the rest. -/
theorem runSteps_succ (m : Nat) (s : State) : runSteps (m + 1) s = andThen (step s) (runSteps m) := by
  refine (Host.Core.run.eq_2 Sys2Proof.core s m).trans ?_
  generalize ho : Sys2Proof.core.step s = o
  rw [show step s = o from ho]
  cases o <;> rfl

/-- All steps of the rounds, from a machine that has just settled. -/
theorem RunsOn.run_of_roundSteps {g : Generics} {k : Nat} {e e1 : Inst} (h : Relation.ReflTransGen (RoundStep g) e e1) :
    ∀ {s : State}, s.gen = g → RunsOn s k e → ∃ m, runSteps m (settle s) = .next (settle (s.setInst k e1)) := by
  induction h using Relation.ReflTransGen.head_induction_on with
  | refl =>
    intro s _ hr
    exact ⟨0, by rw [setInst_eq_self hr.2, runSteps_zero]⟩
  | head hxy _ ih =>
    rename_i y _
    intro s hg hr
    obtain ⟨m, hm⟩ := ih (s := s.setInst k y) hg (hr.setInst y)
    refine ⟨m + 1, ?_⟩
    rw [hr.settle_eq_self hxy.1, runSteps_succ, hr.step_of_roundStep (hg ▸ hxy), andThen_of_next]
    simpa [State.setInst] using hm

/-- Settles O35: the rounds are engine steps before which the READ cannot return, and each is a step of the machine. -/
theorem stepwiseReadAgreesWithItsRounds : Obligations.StepwiseReadAgreesWithItsRounds := by
  intro s k e e1 hinv hr h
  obtain ⟨m, hm⟩ := hr.run_of_roundSteps (drive_roundSteps _ h) rfl
  obtain ⟨⟨n, hop⟩, he⟩ := id hr
  obtain ⟨-, e', he', -, -, hgo⟩ := hinv.running _ hop
  obtain rfl : e = e' := Option.some.inj (he.symm.trans he')
  rw [hr.settle_eq_self hgo] at hm
  exact ⟨m, hm⟩

end Sys2Proof.Machine
end

/-! ## The bound on DECODE's engine steps (R91, log 23): every step takes one off what the input and the copies leave to do -/
section

namespace Sys2Proof.Machine

/-- An upper bound for the steps an engine has left: its source's elements, the copies due, and the longest copy for every code
that the bytes in `refBuf` and in the source can still make. -/
def stepsLeft (g : Generics) (e : Inst) : Nat :=
  e.src.length + copiesDue e + (g.lengthMax + e.cfg.threshold) * ((e.src.length - 1 + e.refBuf.length) / g.refBytes)

section
variable {g : Generics} {e e1 : Inst}

theorem copiesDue_dispatch (e : Inst) : copiesDue (dispatch e) = 0 := by
  rw [dispatch_eq]
  refine copiesDue_of_ne_copy fun hp => ?_
  rcases nextPhase_live e with h | h | h <;> cases hp.symm.trans h

/-- A byte that completes no reference. -/
theorem stepsLeft_lt_of_byte (hcfg : e1.cfg = e.cfg) (hsrc : e.src.length = e1.src.length + 1) (hmore : 1 ≤ e1.src.length)
    (hbuf : e1.refBuf.length ≤ e.refBuf.length + 1) (hdue : copiesDue e1 = 0) : stepsLeft g e1 < stepsLeft g e := by
  have hcodes : (e1.src.length - 1 + e1.refBuf.length) / g.refBytes ≤ (e.src.length - 1 + e.refBuf.length) / g.refBytes :=
    Nat.div_le_div_right (by omega)
  have hcopies := Nat.mul_le_mul_left (g.lengthMax + e.cfg.threshold) hcodes
  simp only [stepsLeft, hcfg, hdue]
  omega

/-- The last byte of a reference, which spends one code on a copy. -/
theorem stepsLeft_lt_of_code (hR : 1 ≤ g.refBytes) (hcfg : e1.cfg = e.cfg) (hsrc : e.src.length = e1.src.length + 1)
    (hmore : 1 ≤ e1.src.length) (hlast : e.refBuf.length + 1 = g.refBytes) (hbuf : e1.refBuf = [])
    (hdue : copiesDue e1 ≤ g.lengthMax + e.cfg.threshold) : stepsLeft g e1 < stepsLeft g e := by
  have hcodes : (e.src.length - 1 + e.refBuf.length) / g.refBytes = (e1.src.length - 1) / g.refBytes + 1 := by
    rw [← Nat.add_div_right _ hR]
    congr 1
    omega
  simp only [stepsLeft, hcfg, hbuf, hcodes, List.length_nil, Nat.mul_succ, Nat.add_zero]
  omega

/-- A copied byte. -/
theorem stepsLeft_lt_of_copy (hp : e.phase = .copy) (h : copyToken g e = .next e1) :
    stepsLeft g e1 < stepsLeft g e := by
  have hdue := copiesDue_of_copyToken hp h
  have hsrc := copyToken_src h
  obtain ⟨hcfg, -⟩ := (copyToken_extends h).adapter
  obtain ⟨b, -, -, rfl⟩ := copyToken_next.1 h
  have hbuf : (copyAdvance (emitted g b e)).refBuf = e.refBuf := by
    rw [copyAdvance_same]
    simp [emitted_same]
  simp only [stepsLeft, hcfg, hsrc, hbuf, hdue]
  omega

/-- A reference of the default function ends its engine, or starts a copy within the longest. -/
theorem refToken_terminal_or_due {bytes : List Byte} (hg : g.supported = true) (hd : e.cfg.decRef = .default)
    (hthr : 1 ≤ e.cfg.threshold) (h : engineExec g (.ref bytes) e = .next e1) :
    e1.phase.terminal = true ∨ (e1.refBuf = [] ∧ copiesDue e1 ≤ g.lengthMax + e.cfg.threshold) := by
  obtain ⟨ho, hl, -⟩ := Generics.supported_widths hg
  have hlen : (defaultFields g e.cfg.order bytes).1 ≤ g.lengthMax :=
    Nat.le_pred_of_lt (splitFields_lt ho hl (assemble e.cfg.order bytes)).1
  rw [engineExec, refGeneric, applyDecRef_default g hd] at h
  obtain ⟨-, rfl⟩ := refToken_next.1 h
  rcases resolve_cases g _ _ ((e.pulled (bytes.length - e.refBuf.length)).setRefBuf []) with
    ⟨-, hr⟩ | ⟨-, -, hr⟩ | ⟨-, -, hr⟩ <;> rw [hr]
  · exact .inl rfl
  · exact .inl rfl
  · refine .inr ⟨rfl, ?_⟩
    simp only [copiesDue, copyLength, Inst.startCopy_phase, Inst.startCopy_copyRem, Inst.setRefBuf_cfg, Inst.pulled_cfg]
    omega

/-- Every step of a live engine on a finite input ends it or leaves fewer steps (R81, R91). -/
theorem Inst.Inv.engineStep_stepsLeft {rest : List Byte} (hi : e.Inv g) (hg : g.supported = true)
    (hd : e.cfg.decRef = .default) (hlive : e.phase.terminal = false) (hs : e.src = bufferSource rest)
    (h : engineStep g e = .next e1) :
    e1.phase.terminal = true ∨ (stepsLeft g e1 < stepsLeft g e ∧ ∃ rest1, e1.src = bufferSource rest1) := by
  have hR := Generics.refBytes_pos hg
  have hcfg : e1.cfg = e.cfg := (engineStep_extends h).adapter.1
  by_cases hp : e.phase = .copy
  · rw [engineStep_copy hp] at h
    exact .inr ⟨stepsLeft_lt_of_copy hp h, rest, (copyToken_src h).trans hs⟩
  cases rest with
  | nil => exact .inl (engineStep_eos hi hp hs h)
  | cons b bs =>
    have hs1 := engineStep_byte hi hp hlive hs h
    have hlen : e.src.length = e1.src.length + 1 := by rw [hs, hs1]; rfl
    have hmore : 1 ≤ e1.src.length := by rw [hs1]; simp
    suffices hend : e1.phase.terminal = true ∨ stepsLeft g e1 < stepsLeft g e from
      hend.imp_right fun hlt => ⟨hlt, bs, hs1⟩
    cases hph : e.phase with
    | ctrl =>
      rw [engineStep_ctrl_byte hph hs] at h
      obtain ⟨-, rfl⟩ := ctrlToken_next.1 h
      exact .inr (stepsLeft_lt_of_byte hcfg hlen hmore (by simp [dispatch_eq]) (copiesDue_dispatch _))
    | lit =>
      rw [engineStep_lit_byte hph hs] at h
      obtain ⟨-, -, rfl⟩ := litToken_next.1 h
      exact .inr (stepsLeft_lt_of_byte hcfg hlen hmore (by simp [completeToken_eq, emitted_same]) (copiesDue_dispatch _))
    | ref =>
      have hpartial := hi.partialRef hph
      by_cases hlast : e.refBuf.length + 1 = g.refBytes
      · rw [engineStep_ref_last hph hlast hs] at h
        rcases refToken_terminal_or_due hg hd ((Nat.le_add_left 1 _).trans hi.threshold) h with hterm | ⟨hbuf, hdue⟩
        · exact .inl hterm
        · exact .inr (stepsLeft_lt_of_code hR hcfg hlen hmore hlast hbuf hdue)
      · have hcollect : e1 = (e.pulled 1).setRefBuf (e.refBuf ++ [b]) := by
          simp only [engineStep, fetch_ref hph hpartial, hs, bufferSource, List.map_cons, List.cons_append, if_neg hlast] at h
          exact (collectByte_next.1 h).2
        refine .inr (stepsLeft_lt_of_byte hcfg hlen hmore (by simp [hcollect]) (copiesDue_of_ne_copy ?_))
        rw [hcollect]
        simp [hph]
    | copy => exact absurd hph hp
    | done | failed => rw [hph] at hlive; cases hlive

/-- So it is terminal within that many steps. -/
theorem Inst.Inv.terminal_within (hg : g.supported = true) (hu : g.countBits = none) (n : Nat) :
    ∀ {e : Inst} {rest : List Byte}, e.Inv g → e.cfg.decRef = .default → e.src = bufferSource rest → stepsLeft g e ≤ n →
    ∃ m e1, m ≤ n ∧ engineRun g m e = .next e1 ∧ e1.phase.terminal = true := by
  induction n with
  | zero =>
    intro e rest _ _ hs hle
    simp [stepsLeft, hs, bufferSource] at hle
  | succ n ih =>
    intro e rest hi hd hs hle
    cases ht : e.phase.terminal with
    | true => exact ⟨0, e, Nat.zero_le _, rfl, ht⟩
    | false =>
      obtain ⟨x, hx⟩ := hi.engineStep_next hu (by cases rest <;> simp [hs, bufferSource])
      rcases hi.engineStep_stepsLeft hg hd ht hs hx with hend | ⟨hlt, rest1, hs1⟩
      · exact ⟨1, x, Nat.le_add_left 1 n, by rw [engineRun, hx]; rfl, hend⟩
      · have hd1 : x.cfg.decRef = .default := by rw [(engineStep_extends hx).adapter.1, hd]
        obtain ⟨m, e1, hm, hrun, hend⟩ := ih (engineStep_inv hi (Generics.refBytes_pos hg) hx) hd1 hs1 (by omega)
        exact ⟨m + 1, e1, Nat.succ_le_succ hm, by rw [engineRun, hx, andThen_of_next, hrun], hend⟩

end

/-- Settles O53: the steps left of the engine reset are the bound, and every step takes one off. -/
theorem decodeEndsWithinItsBound : Obligations.DecodeEndsWithinItsBound := by
  intro g c input hg hu hd hthr
  refine Inst.Inv.terminal_within hg hu _ (engineReset_inv c .buffer (bufferSource input) hthr) hd rfl (le_of_eq ?_)
  simp [stepsLeft, copiesDue, bufferSource]

end Sys2Proof.Machine
end

/-! ## What the host operations leave unchanged (R79, R82 to R88, R102) -/
section

namespace Sys2Proof.Machine

/-- A READ that returns takes bytes from the front of `ready` and writes nothing else of its engine (R86). -/
theorem readNow_frame {n : Nat} {e e1 : Inst} {bs : List Byte} {k : ReadKind} (h : readNow n e = some (bs, k, e1)) :
    SameAdapter e e1 ∧ e1.hist = e.hist := by
  obtain ⟨rest, -, rfl⟩ := readNow_takes h
  exact ⟨⟨rfl, rfl, rfl⟩, rfl⟩

/-- `t` is `s` but for `insts[i]`, which is now `e1`, a READ under way, if any, on it, and further results. -/
def ReadLeaves (s t : State) (i : Nat) (e1 : Inst) : Prop :=
  ∃ o rs, (∀ r, o = some r → r.inst = i) ∧ t = { s with insts := s.insts.set i e1, op := o, results := s.results ++ rs }

/-- A READ that answers at once leaves no READ under way. -/
theorem readLeaves_of_answer {s : State} (hop : s.op = none) (i : Nat) (e1 : Inst) (bs : List Byte) (k : ReadKind) :
    ReadLeaves s ((s.setInst i e1).addResult (.read i bs k)) i e1 :=
  ⟨s.op, [.read i bs k], by simp [hop], rfl⟩

/-- All that READ changes: the READ under way, the results, and of the engine it names neither configuration, mode, `closed` nor a
byte of the history there was (R86). -/
theorem execRead_frame {i n : Nat} {s t : State} (h : execRead i n s = .next t) :
    ∃ e e1, s.insts[i]? = some e ∧ SameAdapter e e1 ∧ e.hist <+: e1.hist ∧ ReadLeaves s t i e1 := by
  obtain ⟨e, hop, he, -, hcase⟩ := execRead_cases h
  obtain ⟨hi, -⟩ := List.getElem?_eq_some_iff.1 he
  have hanswer := readLeaves_of_answer hop i
  have hstays := hanswer e
  rw [setInst_eq_self he] at hstays
  rcases hcase with ⟨-, rfl⟩ | ⟨-, -, rfl⟩ | ⟨-, -, bs, k, e1, hr, rfl⟩ | ⟨-, -, -, x, hd, rfl⟩
  · exact ⟨e, e, he, ⟨rfl, rfl, rfl⟩, List.prefix_rfl, hstays _ _⟩
  · exact ⟨e, e, he, ⟨rfl, rfl, rfl⟩, List.prefix_rfl, hstays _ _⟩
  · obtain ⟨ha, hh⟩ := readNow_frame hr
    exact ⟨e, e1, he, ha, hh ▸ List.prefix_rfl, hanswer _ _ _⟩
  · obtain ⟨⟨hc, hm, hcl⟩, bs, hhist, -⟩ := drive_extends _ hd
    rcases settle_running (s := (s.setInst i x).setOp (some ⟨i, n⟩)) rfl (List.getElem?_set_self hi) with
      ⟨-, ht⟩ | ⟨-, ret, k, e1, hr, ht⟩ <;> rw [ht]
    · exact ⟨e, x, he, ⟨hc, hm, hcl⟩, ⟨bs, hhist.symm⟩, some ⟨i, n⟩, [], by simp,
        by simp [State.setInst, State.setOp]⟩
    · obtain ⟨⟨hc1, hm1, hcl1⟩, hh⟩ := readNow_frame hr
      exact ⟨e, e1, he, ⟨hc1.trans hc, hm1.trans hm, hcl1.trans hcl⟩, ⟨bs, by rw [hh, hhist]⟩, none, [.read i ret k],
        by simp, by simp [State.setInst, State.setOp, State.addResult]⟩

/-- What was created is still there when one more is added. -/
theorem addInst_old {s : State} {j : Nat} {e : Inst} (he : s.insts[j]? = some e) (e1 : Inst) :
    (s.insts ++ [e1])[j]? = some e := by
  obtain ⟨hj, -⟩ := List.getElem?_eq_some_iff.1 he
  rw [List.getElem?_append_left hj, he]

/-- Settles O28: each operation's next state is `s` with the updates that the laws of the operations name. -/
theorem hostOperationFrame : Obligations.HostOperationFrame := by
  intro s t i hi h
  cases i with
  | construct oc ca ra ta =>
    obtain ⟨-, ⟨c, -, rfl⟩ | ⟨cfg, -, rfl⟩⟩ := execConstruct_cases h <;> simp +contextual
  | decode d input =>
    obtain ⟨c, e1, -, -, rfl⟩ := execDecode_cases h
    simp +contextual [addInst_old]
  | openStream d source =>
    obtain ⟨c, -, rfl⟩ := execOpen_cases h
    simp +contextual [addInst_old]
  | read k n =>
    obtain ⟨e, e1, he, ha, hh, o, rs, -, rfl⟩ := execRead_frame h
    obtain ⟨hk, -⟩ := List.getElem?_eq_some_iff.1 he
    refine ⟨rfl, rfl, List.prefix_append _ _, List.prefix_rfl, Nat.le_succ _, fun _ => rfl, fun hne => absurd rfl (hne k n),
      fun j x hx hj => (List.getElem?_set_ne hj).trans hx, fun _ _ => List.length_set, nofun, nofun, ?_, nofun⟩
    rintro _ _ ⟨⟩ x hx
    obtain rfl : e = x := Option.some.inj (he.symm.trans hx)
    exact ⟨e1, List.getElem?_set_self hk, ha, hh⟩
  | close k =>
    obtain ⟨e, -, he, -, rfl⟩ := execClose_cases h
    obtain ⟨hk, -⟩ := List.getElem?_eq_some_iff.1 he
    refine ⟨rfl, rfl, List.prefix_append _ _, List.prefix_rfl, Nat.le_succ _, fun _ => rfl, fun _ => rfl,
      fun j x hx hj => (List.getElem?_set_ne hj).trans hx, fun _ _ => List.length_set, nofun, nofun, nofun, ?_⟩
    rintro _ ⟨⟩ x hx
    obtain rfl : e = x := Option.some.inj (he.symm.trans hx)
    exact List.getElem?_set_self hk
  | status k =>
    obtain ⟨e, -, -, rfl⟩ := execStatus_cases h
    simp +contextual
  | ctrl | endClean | lit | ref | refLsbLenlow | refMsbLenlow | refLsbLenhigh | refMsbLenhigh | copy | endTrunc => cases hi

/-! ### Decoding again (R80, W5) -/

/-- Settles O31: DECODE resets its engine and keeps generics and decoders, so both runs are the same one. -/
theorem decodeAgainReturnsTheSame : Obligations.DecodeAgainReturnsTheSame := by
  intro s t u d input ht hu
  obtain ⟨c, e, hc, hrun, rfl⟩ := execDecode_cases ht
  obtain ⟨c', e', hc', hrun', rfl⟩ := execDecode_cases hu
  obtain rfl : c = c' := Option.some.inj (hc.symm.trans hc')
  obtain rfl : e = e' := Host.Outcome.next.inj (hrun.symm.trans hrun')
  exact ⟨decodeResult e, e, rfl, rfl, rfl, rfl⟩

end Sys2Proof.Machine
end

/-! ## OPEN, and READ's answers without a further round (R84, R86) -/
section

namespace Sys2Proof.Machine

/-- Settles O32: OPEN adds the engine reset in STREAM mode, whose record the statement writes out. -/
theorem openStartsAFreshAdapter : Obligations.OpenStartsAFreshAdapter := by
  intro s d c source hd
  simp only [exec, execOpen, hd]
  rfl

section
variable {s : State} {i n : Nat} {e : Inst} (hop : s.op = none) (he : s.insts[i]? = some e) (hm : e.mode = .stream)
include hop he hm

theorem exec_read_of_closed (hc : e.closed = true) (n : Nat) :
    exec (.read i n) s = .next (s.addResult (.read i [] (.error .closed))) := by
  simp [exec, execRead, hop, he, hm, hc]

theorem exec_read_zero (hc : e.closed = false) : exec (.read i 0) s = .next (s.addResult (.read i [] .data)) := by
  simp [exec, execRead, hop, he, hm, hc]

/-- What READ can return at once it returns (R86). -/
theorem exec_read_of_readNow {bs : List Byte} {k : ReadKind} {e1 : Inst} (hc : e.closed = false) (hn : n ≠ 0)
    (hr : readNow n e = some (bs, k, e1)) : exec (.read i n) s = .next ((s.setInst i e1).addResult (.read i bs k)) := by
  simp [exec_read_eq_readOpen hop he hm hc hn, readOpen, hr]

end

/-- Settles O33: the tests of READ, then those of `readNow`, in their order. -/
theorem readAnswersInOrder : Obligations.ReadAnswersInOrder := by
  intro s i n e hop he hm hanswer
  by_cases hc : e.closed = true
  · rw [if_pos hc]
    exact exec_read_of_closed hop he hm hc n
  rw [if_neg hc]
  have hc : e.closed = false := by simpa using hc
  by_cases hn : n = 0
  · subst hn
    exact exec_read_zero hop he hm hc
  rw [if_neg hn]
  have hread {bs : List Byte} {k : ReadKind} {e1 : Inst} := exec_read_of_readNow (bs := bs) (k := k) (e1 := e1) hop he hm hc hn
  by_cases hr : e.ready ≠ []
  · rw [if_pos hr]
    exact hread (readNow_some.2 (.inl ⟨hr, rfl, rfl, rfl⟩))
  rw [if_neg hr]
  have hr : e.ready = [] := not_not.1 hr
  by_cases hd : e.phase = .done
  · rw [if_pos hd, hread (readNow_some.2 (.inr (.inl ⟨hr, hd, rfl, rfl, rfl⟩))), setInst_eq_self he]
    rfl
  · have hf : e.phase = .failed := by simpa [hc, hn, hr, hd] using hanswer
    rw [if_neg hd, hread (readNow_some.2 (.inr (.inr ⟨hr, hf, rfl, rfl, rfl⟩))), setInst_eq_self he]
    rfl

/-- Settles O42: the READ returns exactly where `readStop` holds, and there what `readNow` gives. -/
theorem readUnderWayReturnsBetweenRounds : Obligations.ReadUnderWayReturnsBetweenRounds := by
  intro s k n e hop he
  rcases settle_running hop he with ⟨hgo, hset⟩ | ⟨hstop, bs, kind, e1, hr, hset⟩ <;> rw [hset]
  · have hdone : e.phase ≠ .done := fun hp => by cases hgo.symm.trans (readStop_of_terminal (by rw [hp]; rfl))
    have hfailed : e.phase ≠ .failed := fun hp => by cases hgo.symm.trans (readStop_of_terminal (by rw [hp]; rfl))
    have hround : ¬ (e.phase.boundary = true ∧ e.ready ≠ []) := fun ⟨hb, hready⟩ => by
      simp [readStop, hb, hready] at hgo
    rw [if_neg hround, if_neg hdone, if_neg hfailed]
  · have hb := ((readStop_iff n).1 hstop).1
    rcases readNow_some.1 hr with ⟨hready, rfl, rfl, rfl⟩ | ⟨hready, hp, rfl, rfl, rfl⟩ | ⟨hready, hp, rfl, rfl, rfl⟩
    · rw [if_pos ⟨hb, hready⟩]
      rfl
    · rw [if_neg (fun h => h.2 hready), if_pos hp, setInst_eq_self he]
      rfl
    · rw [if_neg (fun h => h.2 hready), if_neg (by simp [hp]), if_pos hp, setInst_eq_self he]
      rfl

end Sys2Proof.Machine
end

/-! ## STATUS, and the instruction that a step runs (R28, R57, R79, R81, R88) -/
section

namespace Sys2Proof.Machine

/-- No READ is under way there (R90). -/
theorem busy_eq_false {s : State} {i : Nat} (h : ∀ n, s.op ≠ some ⟨i, n⟩) : s.busy i = false := by
  unfold State.busy
  cases hop : s.op with
  | none => rfl
  | some r =>
    simp only [beq_eq_false_iff_ne]
    rintro rfl
    exact h r.n hop

/-- The STATUS word as the sum of its fields (R28). -/
theorem statusWord_toNat {e : Inst} (hsub : e.sub < 16) :
    (statusWord e).toNat = e.phase.code + 8 * e.sub + 128 * e.cause.code +
      1024 * flagBit (e.closed && decide (e.mode = .stream)) + 2048 * e.mode.code := by
  have hphase : e.phase.code < 2 ^ 3 := by cases e.phase <;> decide
  have hcause : e.cause.code < 2 ^ 3 := by cases e.cause <;> decide
  have hmode : e.mode.code < 2 := by cases e.mode <;> decide
  have hflag := flagBit_lt (e.closed && decide (e.mode = .stream))
  have hfield : ∀ {m n a : Nat} (x : BitVec m), a < 2 ^ n → (x ++ BitVec.ofNat n a).toNat = 2 ^ n * x.toNat + a := by
    intro m n a x ha
    rw [toNat_append_eq, BitVec.toNat_ofNat, Nat.mod_eq_of_lt ha, Nat.mul_comm]
  have hzero : (BitVec.ofNat 4 0).toNat = 0 := rfl
  rw [statusWord, hfield _ hphase, hfield _ hsub, hfield _ hcause, toNat_append_bit _ hflag, toNat_append_bit _ hmode, hzero]
  omega

/-- Settles O39: the fields of the word are apart, each within its width. -/
theorem statusReturnsItsFields : Obligations.StatusReturnsItsFields := by
  intro s i e hidle he hsub _
  refine ⟨statusWord e, ?_, ?_⟩
  · have hready : statusReady e = if e.mode = .stream then some e.ready.length else none := by
      unfold statusReady
      cases e.mode <;> rfl
    simp [exec, execStatus, busy_eq_false hidle, he, statusResult, hready, State.addResult]
  · rw [statusWord_toNat (by omega)]
    cases e.mode <;> cases e.closed <;> simp [flagBit, Mode.code]

/-- Settles O41: `nextCall` takes the head of the queue; `goOn` runs what `fetch` decodes and settles. -/
theorem stepRunsTheDecodedInstruction : Obligations.StepRunsTheDecodedInstruction := by
  refine ⟨fun s c rest hop hc => ?_, fun s k e i left hr hd => ?_⟩
  · have hstep : step s = nextCall exec s := by simp [step, stepWith, hop]
    simp only [hstep, nextCall, hc]
    rfl
  · obtain ⟨n, hstep⟩ := hr.step_eq_goOn
    have hf : fetch s.gen e = .run i := by simp [fetch, hd]
    rw [hstep, goOn, hf]
    cases hx : exec i s <;> simp [hx]

end Sys2Proof.Machine
end

/-! ## CLOSE, and every state after it (R33, R87) -/
section

namespace Sys2Proof.Machine

section
variable {s : State} {i : Nat} {e : Inst}

/-- CLOSE, with no READ under way on its adapter (R87). -/
theorem exec_close (hidle : ∀ n, s.op ≠ some ⟨i, n⟩) (he : s.insts[i]? = some e) (hm : e.mode = .stream) :
    exec (.close i) s = .next ((s.setInst i e.shut).addResult (.closedOk i)) := by
  simp [exec, execClose, busy_eq_false hidle, he, hm]

/-- A second CLOSE finds what it would write. -/
theorem exec_close_again (hidle : ∀ n, s.op ≠ some ⟨i, n⟩) (he : s.insts[i]? = some e.shut) (hm : e.mode = .stream) :
    exec (.close i) s = .next (s.addResult (.closedOk i)) := by
  have hsame : e.shut.shut = e.shut := rfl
  rw [exec_close hidle he hm, hsame, setInst_eq_self he]

end

/-- Settles O37: CLOSE's next state, and the two answers that `closed` gives in it. -/
theorem closeDiscardsAndRejectsReads : Obligations.CloseDiscardsAndRejectsReads := by
  intro s i e hop he hm
  have hidle : ∀ n, s.op ≠ some ⟨i, n⟩ := by simp [hop]
  obtain ⟨hi, -⟩ := List.getElem?_eq_some_iff.1 he
  have he1 : ((s.setInst i e.shut).addResult (.closedOk i)).insts[i]? = some e.shut := List.getElem?_set_self hi
  exact ⟨_, exec_close hidle he hm, rfl, exec_close_again hidle he1 hm, exec_read_of_closed hop he1 hm rfl⟩

/-- A closed adapter as CLOSE left it, with no READ under way on it. -/
def ClosedAt (i : Nat) (x : Inst) (s : State) : Prop := s.insts[i]? = some x ∧ ∀ n, s.op ≠ some ⟨i, n⟩

namespace ClosedAt
variable {s t : State} {i : Nat} {x : Inst}

/-- No host operation touches it: READ and CLOSE find it closed, and the others leave it alone (R87, R102). -/
theorem exec_call {c : HostCall} (hm : x.mode = .stream) (h : ClosedAt i x.shut s)
    (hx : exec c.toInstr s = .next t) : ClosedAt i x.shut t := by
  obtain ⟨he, hidle⟩ := h
  have hhost : isToken c.toInstr = false := by cases c <;> rfl
  obtain ⟨-, -, -, -, -, -, hop, hinsts, -⟩ := hostOperationFrame s t c.toInstr hhost hx
  by_cases htouch : touches s c.toInstr i
  · cases c with
    | construct | decode | openStream | status => cases htouch
    | read k n =>
      obtain rfl : k = i := htouch
      obtain ⟨e, -, hk, -, hcase⟩ := execRead_cases hx
      obtain rfl : x.shut = e := Option.some.inj (he.symm.trans hk)
      rcases hcase with ⟨-, rfl⟩ | ⟨hc, -⟩ | ⟨hc, -⟩ | ⟨hc, -⟩
      · exact ⟨he, hidle⟩
      · cases hc
      · cases hc
      · cases hc
    | close k =>
      obtain rfl : k = i := htouch
      obtain rfl : s.addResult (.closedOk k) = t :=
        Host.Outcome.next.inj ((exec_close_again hidle he hm).symm.trans hx)
      exact ⟨he, hidle⟩
  · refine ⟨hinsts i _ he htouch, ?_⟩
    cases c with
    | construct | decode | openStream | close | status => rw [hop (by simp [HostCall.toInstr])]; exact hidle
    | read k n =>
      obtain ⟨-, -, -, -, -, o, rs, ho, rfl⟩ := execRead_frame hx
      exact fun m hm => htouch (ho _ hm).symm

/-- Nor does a READ of another adapter that returns. -/
theorem settle (h : ClosedAt i x s) : ClosedAt i x (settle s) := by
  rcases settle_cases s with hs | ⟨r, e, bs, k, e1, hop, -, -, -, hs⟩ <;> rw [hs]
  · exact h
  · have hne : r.inst ≠ i := fun heq => h.2 r.n (by rw [hop, ← heq])
    exact ⟨(State.setInst_other e1 hne).trans h.1, nofun⟩

/-- No step of the machine touches it (R79, R81, R102). -/
theorem step (hm : x.mode = .stream) (h : ClosedAt i x.shut s) (hx : step s = .next t) : ClosedAt i x.shut t := by
  rcases step_cases hx with ⟨-, -, rfl⟩ | ⟨c, rest, -, -, hcall⟩ | ⟨r, e, hop, he, -⟩
  · exact h
  · exact exec_call (s := s.setCalls rest) hm h hcall
  · have hne : r.inst ≠ i := fun heq => h.2 r.n (by rw [hop, ← heq])
    obtain ⟨e1, -, ht⟩ := step_running hop he hx
    have hset : ClosedAt i x.shut (s.setInst r.inst e1) := ⟨(State.setInst_other e1 hne).trans h.1, h.2⟩
    rcases ht with rfl | ⟨rfl, -⟩
    · exact hset.settle
    · exact hset

theorem runSteps (hm : x.mode = .stream) (m : Nat) : ∀ {s : State}, ClosedAt i x.shut s → runSteps m s = .next t →
    ClosedAt i x.shut t := by
  induction m with
  | zero => intro s h hx; cases hx; exact h
  | succ m ih =>
    intro s h hx
    rw [runSteps_succ] at hx
    obtain ⟨u, hu, hx⟩ := andThen_next.1 hx
    exact ih (h.step hm hu) hx

end ClosedAt

/-- Settles O54: that the adapter is closed, with no READ under way on it, holds behind CLOSE and every step keeps it. -/
theorem closedAdapterRejectsEveryLaterRead : Obligations.ClosedAdapterRejectsEveryLaterRead := by
  intro s i e hidle he hm
  obtain ⟨hi, -⟩ := List.getElem?_eq_some_iff.1 he
  refine ⟨_, exec_close hidle he hm, fun m u hu => ?_⟩
  have hclosed : ClosedAt i e.shut ((s.setInst i e.shut).addResult (.closedOk i)) := ⟨List.getElem?_set_self hi, hidle⟩
  obtain ⟨he1, hidle1⟩ := hclosed.runSteps hm m hu
  exact ⟨he1, exec_close_again hidle1 he1 hm, fun hop => exec_read_of_closed hop he1 hm rfl⟩

end Sys2Proof.Machine
end

/-! ## The refusals of the host operations (R90, R100, R109, log 16, 17) -/
section

namespace Sys2Proof.Machine

/-! ### Beside a READ under way (log 17) -/

section
variable {s : State} {j m : Nat} (hop : s.op = some ⟨j, m⟩)
include hop

theorem exec_read_underWay (k n : Nat) : exec (.read k n) s = .refused .operationUnderWay := by
  simp [exec, execRead, hop]

theorem exec_close_underWay : exec (.close j) s = .refused .operationUnderWay := by
  simp [exec, execClose, State.busy, hop]

theorem exec_status_underWay : exec (.status j) s = .refused .operationUnderWay := by
  simp [exec, execStatus, State.busy, hop]

end

/-! ### With no READ under way: what the operation names is missing, or has no adapter (log 16) -/

/-- Settles O38: each operation looks for the READ under way, then for what it names, then for an adapter. -/
theorem hostOperationsStopByName : Obligations.HostOperationsStopByName := by
  intro s j
  refine ⟨fun hd input source => ⟨?_, ?_⟩, fun hop he n => ⟨?_, ?_, ?_⟩, fun e hop he hm n => ⟨?_, ?_⟩,
    fun m hop k n => ⟨exec_read_underWay hop k n, exec_close_underWay hop, exec_status_underWay hop⟩⟩
  · simp [exec, execDecode, hd]
  · simp [exec, execOpen, hd]
  · simp [exec, execRead, hop, he]
  · simp [exec, execClose, State.busy, hop, he]
  · simp [exec, execStatus, State.busy, hop, he]
  · simp [exec, execRead, hop, he, hm]
  · simp [exec, execClose, State.busy, hop, he, hm]

end Sys2Proof.Machine
end

/-! ## The counter bound within a token (R101, R105) -/
section

namespace Sys2Proof.Machine

section
variable {g : Generics} {e : Inst} {v : Byte} {k : Nat}

theorem pullBytes_overflow (h : g.countOk (e.consumed + k) = false) : pullBytes g k e = .refused .countOverflow := by
  simp [pullBytes, h]

theorem emit_overflow (h : g.countOk (e.outCount + 1) = false) : emit g v e = .refused .countOverflow := by
  simp [emit, h]

/-- LIT meets the bound at its pull or else at its `Emit`. -/
theorem litToken_overflow (h : g.countOk (e.consumed + 1) = false ∨ g.countOk (e.outCount + 1) = false) :
    litToken g v e = .refused .countOverflow := by
  cases hk : g.countOk (e.consumed + 1) with
  | false => rw [litToken, pullBytes_overflow hk, andThen_of_refused]
  | true =>
    have hout : g.countOk ((e.pulled 1).outCount + 1) = false := h.resolve_left (by simp [hk])
    rw [litToken, pullBytes_next.2 ⟨hk, rfl⟩, andThen_of_next, emit_overflow hout, andThen_of_refused]

theorem refToken_overflow (h : g.countOk (e.consumed + (k - e.refBuf.length)) = false) (l o : Int) :
    refToken g k l o e = .refused .countOverflow := by
  rw [refToken, pullBytes_overflow h, andThen_of_refused]

/-- COPY finds its byte under the invariant, and meets the bound at its `Emit`. -/
theorem Inst.Inv.copyToken_overflow (hi : e.Inv g) (hp : e.phase = .copy) (h : g.countOk (e.outCount + 1) = false) :
    copyToken g e = .refused .countOverflow := by
  obtain ⟨-, -, d, hdist, hd, hout, hwin⟩ := hi.inCopy hp
  obtain ⟨b, -, hread⟩ := hi.winRead hd hout hwin
  have hval : distValue e = d := by simp [distValue, hdist]
  rw [copyToken, hval, hread, andThen_of_next, emit_overflow h, andThen_of_refused]

end

/-- A token under a READ, where its phase selects it and its engine refuses. -/
theorem RunsOn.exec_eq_refused {s : State} {k : Nat} {e : Inst} {i : Instr} {r : Refusal} (hr : RunsOn s k e)
    (hi : isToken i = true) (hsel : selectedIn i e.phase = true) (h : engineExec s.gen i e = .refused r) :
    exec i s = .refused r := by
  rw [hr.exec_eq hi, if_pos hsel, h, andThen_of_refused]

/-- Settles O25: each token's pull or `Emit` meets the bound on its engine. -/
theorem counterBoundIsRefused : Obligations.CounterBoundIsRefused := by
  intro s k e hr
  have hlit (hp : e.phase = .lit) (v : Byte)
      (h : s.gen.countOk (e.consumed + 1) = false ∨ s.gen.countOk (e.outCount + 1) = false) :
      exec (.lit v) s = .refused .countOverflow :=
    hr.exec_eq_refused rfl (by rw [hp]; rfl) (litToken_overflow h)
  refine ⟨fun hin => ⟨fun hp c => ?_, fun hp v => hlit hp v (.inl hin)⟩, fun bytes hp hin => ?_, fun i l o hi hp hin => ?_,
    fun hout => ⟨fun hp v => hlit hp v (.inr hout), fun hp hinv => ?_⟩⟩
  · refine hr.exec_eq_refused rfl (by rw [hp]; rfl) ?_
    rw [engineExec, ctrlToken, pullBytes_overflow hin, andThen_of_refused]
  · exact hr.exec_eq_refused rfl (by rw [hp]; rfl) (refToken_overflow hin _ _)
  · refine hr.exec_eq_refused hi.isToken (by rw [hi.selectedIn, hp]; rfl) ?_
    rw [hi.engineExec, refToken_overflow hin]
  · exact hr.exec_eq_refused rfl (by rw [hp]; rfl) (hinv.copyToken_overflow hp hout)

end Sys2Proof.Machine
end

/-! ## The engines that an instruction leaves alone (R102) -/
section

namespace Sys2Proof.Machine

/-- A token may change the engine of the READ under way. -/
theorem touches_token {s : State} {i : Instr} {j : Nat} (hi : isToken i = true) :
    touches s i j ↔ ∃ n, s.op = some ⟨j, n⟩ := by
  cases i with
  | ctrl | endClean | lit | ref | refLsbLenlow | refMsbLenlow | refLsbLenhigh | refMsbLenhigh | copy | endTrunc => rfl
  | construct | decode | openStream | read | close | status => cases hi

/-- Settles O51: a token writes the engine of the READ under way, and the frame of the host operations says the rest. -/
theorem instancesAreIndependent : Obligations.InstancesAreIndependent := by
  intro s t i j e h he hj
  cases hi : isToken i with
  | true =>
    rw [exec_eq_runToken hi] at h
    obtain ⟨r, -, e1, hop, -, -, -, rfl⟩ := runToken_next.1 h
    have hne : r.inst ≠ j := by
      rintro rfl
      exact hj ((touches_token hi).2 ⟨r.n, hop⟩)
    exact (State.setInst_other e1 hne).trans he
  | false =>
    obtain ⟨-, -, -, -, -, -, -, hinsts, -⟩ := hostOperationFrame s t i hi h
    exact hinsts j e he hj

end Sys2Proof.Machine
end

/-! ## Terminal engines (R96) -/
section

namespace Sys2Proof.Machine

/-- `e1` is `e` but for what READ drains from `ready` and CLOSE discards. -/
def Inst.Drained (e e1 : Inst) : Prop :=
  e1 = { e with ready := e1.ready, closed := e1.closed } ∧ e1.ready <:+ e.ready ∧ (e.closed = true → e1.closed = true)

namespace Inst.Drained
variable {g : Generics} {n : Nat} {e e1 e2 : Inst} {bs : List Byte} {k : ReadKind}

theorem refl (e : Inst) : e.Drained e := ⟨rfl, List.suffix_rfl, id⟩

theorem trans (h : e.Drained e1) (h' : e1.Drained e2) : e.Drained e2 := by
  obtain ⟨hsame, hready, hclosed⟩ := h
  obtain ⟨hsame', hready', hclosed'⟩ := h'
  refine ⟨?_, hready'.trans hready, hclosed' ∘ hclosed⟩
  rw [hsame] at hsame'
  exact hsame'

theorem phase (h : e.Drained e1) : e1.phase = e.phase := by rw [h.1]

theorem readNow (h : readNow n e = some (bs, k, e1)) : e.Drained e1 := by
  obtain ⟨rest, hr, rfl⟩ := readNow_takes h
  exact ⟨rfl, ⟨bs, hr.symm⟩, id⟩

theorem shut (e : Inst) : e.Drained e.shut := ⟨rfl, List.nil_suffix, fun _ => rfl⟩

/-- No engine step is enabled in a terminal phase (R81). -/
theorem engineStep (ht : e.phase.terminal = true) (h : engineStep g e = .next e1) : e.Drained e1 := by
  simp only [Machine.engineStep, fetch_terminal ht] at h
  cases h
  exact refl e

end Inst.Drained

theorem drained_stepRelation : StepRelation fun e e1 => e.phase.terminal = true → e.Drained e1 where
  refl e _ := .refl e
  trans h h' ht := (h ht).trans (h' ((h ht).phase ▸ ht))
  engine h ht := .engineStep ht h
  read h _ := .readNow h
  shut e _ := .shut e

/-- Settles O48: a terminal engine takes no step of its own. -/
theorem terminalIsSticky : Obligations.TerminalIsSticky := by
  intro s t k e h he ht
  obtain ⟨e1, he1, hdrained⟩ := drained_stepRelation.step h k e he
  exact ⟨e1, he1, hdrained ht⟩

end Sys2Proof.Machine
end

/-! ## Failures (R93, R94, R95) -/
section

namespace Sys2Proof.Machine

/-- `e1` is what `raise` makes, with a cause of decoding, of `e` after some pulls: nothing has been emitted. -/
def FailsFrom (e e1 : Inst) : Prop :=
  ∃ c n src bs, (c = .unexpectedEof ∨ c = .chunkLength ∨ c = .offset) ∧
    e1 = raise c { e with consumed := n, src := src, refBuf := bs }

section
variable {g : Generics} {e e1 : Inst}

theorem truncated_eq (e : Inst) : truncated e = { e with src := e.src.drop 1, refBuf := (truncated e).refBuf } := by
  unfold truncated
  split <;> rfl

theorem completeToken_phase_ne_failed (e : Inst) : (completeToken e).phase ≠ .failed := by
  rw [completeToken_eq, Inst.goto_phase]
  rcases nextPhase_live e.nextSub with h | h | h <;> simp [h]

theorem refToken_failsFrom {k : Nat} {l o : Int} (h : refToken g k l o e = .next e1) (hf : e1.phase = .failed) :
    FailsFrom e e1 := by
  obtain ⟨-, rfl⟩ := refToken_next.1 h
  rcases resolve_cases g l o ((e.pulled (k - e.refBuf.length)).setRefBuf []) with ⟨-, hr⟩ | ⟨-, -, hr⟩ | ⟨-, -, hr⟩ <;>
    rw [hr] at hf ⊢
  · exact ⟨.chunkLength, _, _, _, .inr (.inl rfl), rfl⟩
  · exact ⟨.offset, _, _, _, .inr (.inr rfl), rfl⟩
  · cases hf

/-- Of the tokens only the references and END_TRUNC fail their engine; the others dispatch, finish, or go on copying. -/
theorem engineExec_failsFrom {i : Instr} (h : engineExec g i e = .next e1) (hlive : e.phase ≠ .failed)
    (hf : e1.phase = .failed) : FailsFrom e e1 := by
  cases i with
  | ctrl c =>
    obtain ⟨-, rfl⟩ := ctrlToken_next.1 h
    rw [dispatch_latchCtrl_eq] at hf
    split at hf <;> cases hf
  | endClean => cases h; cases hf
  | lit v =>
    obtain ⟨-, -, rfl⟩ := litToken_next.1 h
    exact absurd hf (completeToken_phase_ne_failed _)
  | ref | refLsbLenlow | refMsbLenlow | refLsbLenhigh | refMsbLenhigh => exact refToken_failsFrom h hf
  | copy =>
    obtain ⟨b, -, -, rfl⟩ := copyToken_next.1 h
    rcases copyAdvance_cases (emitted g b e) with hc | hc <;> rw [hc] at hf
    · exact absurd (by simpa [emitted_same] using hf) hlive
    · exact absurd hf (completeToken_phase_ne_failed _)
  | endTrunc =>
    rw [engineExec, endTruncToken_eq] at h
    cases h
    rw [truncated_eq]
    exact ⟨.unexpectedEof, _, _, _, .inl rfl, rfl⟩
  | construct | decode | openStream | read | close | status => cases h

/-- What `raise` leaves and what it flushes (R38, R93, R95). -/
theorem raise_precise {c : Cause} (hc : c = .unexpectedEof ∨ c = .chunkLength ∨ c = .offset) (e : Inst) :
    (raise c e).hist = e.hist ∧ (raise c e).outCount = e.outCount ∧ (raise c e).ring = e.ring ∧
    ((raise c e).cause = .unexpectedEof ∨ (raise c e).cause = .chunkLength ∨ (raise c e).cause = .offset) ∧
    (e.mode = .buffer → (raise c e).pending = e.pending ∧ (raise c e).ready = e.ready) ∧
    (e.mode = .stream → (raise c e).pending = 0 ∧ (raise c e).ready = e.ready ++ lastBytes e.pending e.hist) := by
  obtain ⟨-, hhist, hout, hring, -, -, -, -, -, -, hbuffer⟩ := raise_same c e
  refine ⟨hhist, hout, hring, hc, hbuffer, fun hm => ?_⟩
  rw [raise, flushIfStream_stream hm]
  exact ⟨rfl, rfl⟩

end

/-- A host operation, within a READ under way, leaves that READ's engine alone (R90, R102). -/
theorem RunsOn.exec_call_keeps {s t : State} {k : Nat} {e : Inst} {i : Instr} (hr : RunsOn s k e) (hi : isToken i = false)
    (h : exec i s = .next t) : t.insts[k]? = some e := by
  obtain ⟨⟨n, hop⟩, he⟩ := hr
  refine instancesAreIndependent s t i k e h he fun htouch => ?_
  cases i with
  | construct | decode | openStream | status => exact htouch
  | read j m => cases (exec_read_underWay hop j m).symm.trans h
  | close j =>
    obtain rfl : j = k := htouch
    cases (exec_close_underWay hop).symm.trans h
  | ctrl | endClean | lit | ref | refLsbLenlow | refMsbLenlow | refLsbLenhigh | refMsbLenhigh | copy | endTrunc => cases hi

/-- Settles O52: only a token fails the engine of the READ under way, and it does so by `raise`, before any `Emit`. -/
theorem failuresArePrecise : Obligations.FailuresArePrecise := by
  intro s t k e e1 i hr h he1 hlive hf
  cases hi : isToken i with
  | true =>
    obtain ⟨-, x, hx, hexec⟩ := hr.exec_token hi h
    obtain rfl : e1 = x := Option.some.inj (he1.symm.trans hx)
    obtain ⟨c, n, src, bs, hc, rfl⟩ := engineExec_failsFrom hexec hlive hf
    exact raise_precise hc _
  | false =>
    obtain rfl : e1 = e := Option.some.inj (he1.symm.trans (hr.exec_call_keeps hi h))
    exact absurd hf hlive

end Sys2Proof.Machine
end

/-! ## DECODE past the counter bound (R101, R105): a bounded engine does what the unbounded one does, or is refused -/
section

namespace Sys2Proof

/-- The same instantiation without a counter bound. -/
def Generics.unbounded (g : Generics) : Generics := { g with countBits := none }

end Sys2Proof

namespace Sys2Proof.Machine

/-- The bounded result `o` is the unbounded result `o'`, or the refusal of the bound. -/
def OrOverflow {α : Type} (o o' : Res α) : Prop := o = o' ∨ o = .refused .countOverflow

theorem OrOverflow.refl {α : Type} (o : Res α) : OrOverflow o o := .inl rfl

theorem OrOverflow.andThen {α β : Type} {o o' : Res α} {f f' : α → Res β} (ho : OrOverflow o o')
    (hf : ∀ a, OrOverflow (f a) (f' a)) : OrOverflow (andThen o f) (andThen o' f') := by
  rcases ho with rfl | rfl
  · cases o with
    | next a => exact hf a
    | fault r => exact .refl _
    | refused r => exact .refl _
  · exact .inr rfl

section
variable (g : Generics)

theorem pullBytes_orOverflow (k : Nat) (e : Inst) : OrOverflow (pullBytes g k e) (pullBytes g.unbounded k e) := by
  cases h : g.countOk (e.consumed + k) with
  | true => exact .inl ((pullBytes_next.2 ⟨h, rfl⟩).trans (pullBytes_next.2 ⟨rfl, rfl⟩).symm)
  | false => exact .inr (pullBytes_overflow h)

theorem emitted_unbounded (v : Byte) (e : Inst) : emitted g.unbounded v e = emitted g v e := rfl

theorem emit_orOverflow (v : Byte) (e : Inst) : OrOverflow (emit g v e) (emit g.unbounded v e) := by
  cases h : g.countOk (e.outCount + 1) with
  | true => exact .inl ((emit_next.2 ⟨h, rfl⟩).trans (emit_next.2 ⟨rfl, (emitted_unbounded g v e).symm⟩).symm)
  | false => exact .inr (emit_overflow h)

theorem refToken_orOverflow (k : Nat) (l o : Int) (e : Inst) :
    OrOverflow (refToken g k l o e) (refToken g.unbounded k l o e) :=
  (pullBytes_orOverflow g _ e).andThen fun _ => .refl _

theorem copyToken_orOverflow (e : Inst) : OrOverflow (copyToken g e) (copyToken g.unbounded e) :=
  (OrOverflow.refl (winRead g (distValue e) e)).andThen fun b => (emit_orOverflow g b e).andThen fun _ => .refl _

theorem engineExec_orOverflow (i : Instr) (e : Inst) : OrOverflow (engineExec g i e) (engineExec g.unbounded i e) := by
  cases i with
  | ctrl c => exact (pullBytes_orOverflow g 1 e).andThen fun _ => .refl _
  | lit v =>
    exact (pullBytes_orOverflow g 1 e).andThen fun e1 => (emit_orOverflow g v e1).andThen fun _ => .refl _
  | ref | refLsbLenlow | refMsbLenlow | refLsbLenhigh | refMsbLenhigh => exact refToken_orOverflow g _ _ _ e
  | copy => exact copyToken_orOverflow g e
  | endClean | endTrunc | construct | decode | openStream | read | close | status => exact .refl _

/-- What a step fetches does not turn on the bound. -/
theorem fetch_unbounded (e : Inst) : fetch g.unbounded e = fetch g e := rfl

theorem engineStep_orOverflow (e : Inst) : OrOverflow (engineStep g e) (engineStep g.unbounded e) := by
  unfold engineStep
  rw [fetch_unbounded]
  cases fetch g e with
  | run i => exact engineExec_orOverflow g i e
  | collect b => exact (pullBytes_orOverflow g 1 e).andThen fun _ => .refl _
  | waits | later | sourceFailed | terminal => exact .refl _

theorem runCopies_orOverflow (e : Inst) : OrOverflow (runCopies g e) (runCopies g.unbounded e) := by
  suffices H : ∀ k x, OrOverflow (copySteps g k x) (copySteps g.unbounded k x) from H _ e
  intro k
  induction k with
  | zero => exact fun x => .refl _
  | succ k ih => exact fun x => (copyToken_orOverflow g x).andThen ih

/-- The loops of DECODE and RunRound (R82, R85). -/
theorem drive_orOverflow (stop : Inst → Bool) (evs : List SrcEvent) :
    ∀ e, OrOverflow (drive g stop evs e) (drive g.unbounded stop evs e) := by
  induction evs with
  | nil => exact runCopies_orOverflow g
  | cons ev rest ih =>
    refine fun e => (runCopies_orOverflow g e).andThen fun x => ?_
    split
    · exact .refl _
    · exact (engineStep_orOverflow g x).andThen ih

/-! R83's function does not count. -/

theorem groupTokens_unbounded (c : Cfg) (ctl : Byte) (k : Nat) :
    ∀ h rest, groupTokens g.unbounded c ctl k h rest = groupTokens g c ctl k h rest := by
  induction k with
  | zero => exact fun _ _ => rfl
  | succ k ih =>
    intro h rest
    simp only [groupTokens, ih]
    rfl

theorem decodeGroups_unbounded (c : Cfg) (fuel : Nat) :
    ∀ h rest, decodeGroups g.unbounded c fuel h rest = decodeGroups g c fuel h rest := by
  induction fuel with
  | zero => exact fun _ _ => rfl
  | succ fuel ih =>
    intro h rest
    cases rest with
    | nil => rfl
    | cons ctl rest => simp only [decodeGroups, groupTokens_unbounded, ih]

theorem decodeFunction_unbounded (c : Cfg) (input : List Byte) :
    decodeFunction g.unbounded c input = decodeFunction g c input := by
  rw [decodeFunction, decodeGroups_unbounded, decodeFunction]

end

/-- DECODE's engine is refused where R83's function would pass the bound: it would else end with that function's counts, which
the invariant keeps within the bound. -/
theorem decodeRun_overflow {g : Generics} {c : Cfg} {input : List Byte} (hR : 1 ≤ g.refBytes)
    (hthr : g.thresholdMin ≤ c.threshold)
    (h : (g.countOk (decodeFunction g c input).2.2 && g.countOk (decodeFunction g c input).1.length) = false) :
    decodeRun g c input = .refused .countOverflow := by
  obtain ⟨e, hrun, heq⟩ := decodeRun_eq_decodeFunction (g := g.unbounded) (c := c) (input := input) hR hthr rfl rfl
  refine (drive_orOverflow g _ _ _).resolve_left fun hsame => ?_
  obtain ⟨hi, -⟩ := decodeRun_spec hR hthr (hsame.trans hrun)
  obtain ⟨hin, hout⟩ := hi.counters
  rw [decodeFunction_unbounded] at heq
  rw [hi.count] at hout
  simp [← heq, hin, hout] at h

/-- Settles O30: DECODE is refused with its engine, whose bounded run is the unbounded one, which follows R83's function, up to
the refusal. -/
theorem decodePastTheBoundIsRefused : Obligations.DecodePastTheBoundIsRefused := by
  intro s d c input hg hd hthr h
  simp [exec, execDecode, hd, decodeRun_overflow (Generics.refBytes_pos hg) hthr h]

end Sys2Proof.Machine
end
